-- ==== Sys2Proof/Word.lean ====
section
/-! DEFINITION. The words of HUFFCORE: only the widths that are fixed whatever the parameters are
(00_scope.md §3, §6; 30_encoding.md R80, R83). -/

namespace Sys2Proof

/-- A 64-bit command word `w`, 30_encoding.md R80. -/
abbrev CmdWord := BitVec 64

/-- A 40-bit response word, 30_encoding.md R83. -/
abbrev Response := BitVec 40

/-- The 32-bit `DATA` of a response, the operand field `B`, the register `FINFO`. -/
abbrev Word := BitVec 32

/-- A payload byte, 10_state.md R38. -/
abbrev Byte := BitVec 8

/-- A Symbol, held in the 16 bits of the operand field `A`: wide enough for either `SYMW`
(00_scope.md R4, 90_conflicts.md C1). That it is below `NSYM` is an invariant, not the type. -/
abbrev Symbol := BitVec 16

/-- A frequency count, held in the 32 bits of the operand field `B`: wide enough for every `CW`
(00_scope.md R5). That it is below `2^CW` is an invariant, not the type. -/
abbrev Count := BitVec 32

end Sys2Proof
end

