-- ==== Sys2Proof/Syntax.lean ====
section
/-! DEFINITION. The commands of HUFFCORE: one constructor per row of the opcode map
(30_encoding.md R82), with the operand fields that row uses and no others (R81, R84). -/

namespace Sys2Proof

/-- A decoded command. An operand is the raw unsigned value of its field (30_encoding.md R84);
that it is in range is checked when the command runs (60_exceptions.md R225). -/
inductive Instr where
  /-- `NOP`, R100 -/
  | nop
  /-- `RST`, R101 -/
  | rst
  /-- `RDCSR csr`, R102 -/
  | rdcsr (csr : BitVec 16)
  /-- `FSET sym, count`, R103 -/
  | fset (sym : Symbol) (count : Count)
  /-- `FGET sym`, R104 -/
  | fget (sym : Symbol)
  /-- `BUILD`, R125 -/
  | build
  /-- `NGET field, id`, R129 -/
  | nget (field : BitVec 16) (id : BitVec 32)
  /-- `DERIVE`, R142 -/
  | derive
  /-- `CLEN sym`, R146 -/
  | clen (sym : Symbol)
  /-- `CBITS sym, word`, R147 -/
  | cbits (sym : Symbol) (word : BitVec 32)
  /-- `ENC sym`, R161 -/
  | enc (sym : Symbol)
  /-- `PGET index`, R163 -/
  | pget (index : BitVec 32)
  /-- `PPUT byte`, R181 -/
  | pput (byte : Byte)
  /-- `PLEN nbits`, R182 -/
  | plen (nbits : BitVec 32)
  /-- `DSTEP`, R184 -/
  | dstep
  /-- `DRUN`, R185 -/
  | drun
  deriving DecidableEq, Repr

/-- The command's name in the opcode map, 30_encoding.md R82. -/
def Instr.mnemonic : Instr → String
  | .nop => "NOP"
  | .rst => "RST"
  | .rdcsr _ => "RDCSR"
  | .fset _ _ => "FSET"
  | .fget _ => "FGET"
  | .build => "BUILD"
  | .nget _ _ => "NGET"
  | .derive => "DERIVE"
  | .clen _ => "CLEN"
  | .cbits _ _ => "CBITS"
  | .enc _ => "ENC"
  | .pget _ => "PGET"
  | .pput _ => "PPUT"
  | .plen _ => "PLEN"
  | .dstep => "DSTEP"
  | .drun => "DRUN"

end Sys2Proof
end

