-- ==== Sys2Proof/Decode.lean ====
section
/-! DEFINITION. Decoding and encoding of the 64-bit command word (30_encoding.md R80 to R82, R85),
and the opcode map as masks and matches (R82), which R81 says is equivalent. -/

namespace Sys2Proof

/-- Why a word is ILLEGAL (30_encoding.md R81, R85). All raise the same `E_ILLEGAL`. -/
inductive Illegal where
  /-- `Z ≠ 0` -/
  | reservedField
  /-- `OP` is one of the 240 unassigned values -/
  | unassignedOpcode
  /-- an operand field the command does not use is not 0 (for PPUT, `A[15:8] ≠ 0` too) -/
  | unusedOperand
  deriving DecidableEq, Repr

/-- `OP = w[63:56]`, 30_encoding.md R80. -/
def opField (w : CmdWord) : BitVec 8 := w.extractLsb' 56 8

/-- `Z = w[55:48]`, 30_encoding.md R80. -/
def zField (w : CmdWord) : BitVec 8 := w.extractLsb' 48 8

/-- `A = w[47:32]`, 30_encoding.md R80. -/
def aField (w : CmdWord) : BitVec 16 := w.extractLsb' 32 16

/-- `B = w[31:0]`, 30_encoding.md R80. -/
def bField (w : CmdWord) : BitVec 32 := w.extractLsb' 0 32

/-- `w[63:32]`: `OP`, `Z` and `A`, what `E_ILLEGAL` records (60_exceptions.md R220). -/
def upperHalf (w : CmdWord) : Word := w.extractLsb' 32 32

/-- A command that uses neither operand field: both must be 0. -/
def decodeNone (a : BitVec 16) (b : BitVec 32) (i : Instr) : Except Illegal Instr :=
  if a = 0 ∧ b = 0 then .ok i else .error .unusedOperand

/-- A command that uses `A` only: `B` must be 0. -/
def decodeA (b : BitVec 32) (i : Instr) : Except Illegal Instr :=
  if b = 0 then .ok i else .error .unusedOperand

/-- A command that uses `B` only: `A` must be 0. -/
def decodeB (a : BitVec 16) (i : Instr) : Except Illegal Instr :=
  if a = 0 then .ok i else .error .unusedOperand

/-- PPUT uses `A[7:0]`: `A[15:8]` and `B` must be 0 (30_encoding.md R81, R82). -/
def decodeByte (a : BitVec 16) (b : BitVec 32) : Except Illegal Instr :=
  if a.extractLsb' 8 8 = 0 ∧ b = 0 then .ok (.pput (a.extractLsb' 0 8)) else .error .unusedOperand

/-- The sixteen opcodes of 30_encoding.md R82, with the operand fields each uses. -/
def decodeFields (op : BitVec 8) (a : BitVec 16) (b : BitVec 32) : Except Illegal Instr :=
  match op.toNat with
  | 0x00 => decodeNone a b .nop
  | 0x01 => decodeNone a b .rst
  | 0x02 => decodeA b (.rdcsr a)
  | 0x10 => .ok (.fset a b)
  | 0x11 => decodeA b (.fget a)
  | 0x20 => decodeNone a b .build
  | 0x21 => .ok (.nget a b)
  | 0x30 => decodeNone a b .derive
  | 0x31 => decodeA b (.clen a)
  | 0x32 => .ok (.cbits a b)
  | 0x40 => decodeA b (.enc a)
  | 0x41 => decodeB a (.pget b)
  | 0x50 => decodeByte a b
  | 0x51 => decodeB a (.plen b)
  | 0x52 => decodeNone a b .dstep
  | 0x53 => decodeNone a b .drun
  | _ => .error .unassignedOpcode

/-- `Decode(w)`, total on 64-bit words (30_encoding.md R81). -/
def decode (w : CmdWord) : Except Illegal Instr :=
  if zField w = 0 then decodeFields (opField w) (aField w) (bField w) else .error .reservedField

/-- The opcode of a command, 30_encoding.md R82. -/
def Instr.opcode : Instr → BitVec 8
  | .nop => 0x00
  | .rst => 0x01
  | .rdcsr _ => 0x02
  | .fset _ _ => 0x10
  | .fget _ => 0x11
  | .build => 0x20
  | .nget _ _ => 0x21
  | .derive => 0x30
  | .clen _ => 0x31
  | .cbits _ _ => 0x32
  | .enc _ => 0x40
  | .pget _ => 0x41
  | .pput _ => 0x50
  | .plen _ => 0x51
  | .dstep => 0x52
  | .drun => 0x53

/-- The operand field `A` of a command's word, 0 where the command does not use it. -/
def Instr.operandA : Instr → BitVec 16
  | .nop => 0
  | .rst => 0
  | .rdcsr csr => csr
  | .fset sym _ => sym
  | .fget sym => sym
  | .build => 0
  | .nget field _ => field
  | .derive => 0
  | .clen sym => sym
  | .cbits sym _ => sym
  | .enc sym => sym
  | .pget _ => 0
  | .pput byte => byte.setWidth 16
  | .plen _ => 0
  | .dstep => 0
  | .drun => 0

/-- The operand field `B` of a command's word, 0 where the command does not use it. -/
def Instr.operandB : Instr → BitVec 32
  | .nop => 0
  | .rst => 0
  | .rdcsr _ => 0
  | .fset _ count => count
  | .fget _ => 0
  | .build => 0
  | .nget _ id => id
  | .derive => 0
  | .clen _ => 0
  | .cbits _ word => word
  | .enc _ => 0
  | .pget index => index
  | .pput _ => 0
  | .plen nbits => nbits
  | .dstep => 0
  | .drun => 0

/-- The command word: `{OP, Z, A, B}` with `Z = 0` (30_encoding.md R80, R93). -/
def encode (i : Instr) : CmdWord :=
  i.opcode ++ 0#8 ++ i.operandA ++ i.operandB

/-- One row of the opcode map: a word is this command iff `w & mask = pattern`. -/
structure OpcodeRow where
  mnemonic : String
  pattern : CmdWord
  mask : CmdWord
  deriving DecidableEq, Repr

/-- The rows of families 0 to 2 of 30_encoding.md R82. -/
def opcodeRowsLow : List OpcodeRow :=
  [ ⟨"NOP", 0x0000000000000000, 0xFFFFFFFFFFFFFFFF⟩,
    ⟨"RST", 0x0100000000000000, 0xFFFFFFFFFFFFFFFF⟩,
    ⟨"RDCSR", 0x0200000000000000, 0xFFFF0000FFFFFFFF⟩,
    ⟨"FSET", 0x1000000000000000, 0xFFFF000000000000⟩,
    ⟨"FGET", 0x1100000000000000, 0xFFFF0000FFFFFFFF⟩,
    ⟨"BUILD", 0x2000000000000000, 0xFFFFFFFFFFFFFFFF⟩,
    ⟨"NGET", 0x2100000000000000, 0xFFFF000000000000⟩ ]

/-- The rows of families 3 to 5 of 30_encoding.md R82. -/
def opcodeRowsHigh : List OpcodeRow :=
  [ ⟨"DERIVE", 0x3000000000000000, 0xFFFFFFFFFFFFFFFF⟩,
    ⟨"CLEN", 0x3100000000000000, 0xFFFF0000FFFFFFFF⟩,
    ⟨"CBITS", 0x3200000000000000, 0xFFFF000000000000⟩,
    ⟨"ENC", 0x4000000000000000, 0xFFFF0000FFFFFFFF⟩,
    ⟨"PGET", 0x4100000000000000, 0xFFFFFFFF00000000⟩,
    ⟨"PPUT", 0x5000000000000000, 0xFFFFFF00FFFFFFFF⟩,
    ⟨"PLEN", 0x5100000000000000, 0xFFFFFFFF00000000⟩,
    ⟨"DSTEP", 0x5200000000000000, 0xFFFFFFFFFFFFFFFF⟩,
    ⟨"DRUN", 0x5300000000000000, 0xFFFFFFFFFFFFFFFF⟩ ]

/-- The opcode map, 30_encoding.md R82. -/
def opcodeRows : List OpcodeRow := opcodeRowsLow ++ opcodeRowsHigh

/-- `w & mask = match`, 30_encoding.md R81. -/
abbrev OpcodeRow.matches (r : OpcodeRow) (w : CmdWord) : Prop := w &&& r.mask = r.pattern

/-- The command word of a table row's word: `nbits` bits `w`, zeros above (log 11). -/
def tableWord (nbits w : Nat) : CmdWord := BitVec.ofNat 64 (w % 2 ^ nbits)

/-- The instruction the decoder reads from an opcode-table row's word. -/
def decodeTableWord (nbits w : Nat) : Option Instr :=
  match decode (tableWord nbits w) with
  | .ok i => some i
  | .error _ => none

end Sys2Proof
end

