-- ==== Sys2Proof/Config.lean ====
section
/-! DEFINITION. The implementation parameters of HUFFCORE (00_scope.md R4, R5, R7) and the sizes
that follow from them (00_scope.md R6, R8). The spec leaves no value of any result undefined, so
there is no free value here. -/

namespace Sys2Proof

/-- The legal values of `SYMW`, the width of a Symbol in bits (00_scope.md R4). -/
inductive SymWidth where
  | eight
  | sixteen
  deriving DecidableEq, Repr

/-- `SYMW` as a number of bits. -/
def SymWidth.bits : SymWidth → Nat
  | .eight => 8
  | .sixteen => 16

/-- One choice of the parameters `SYMW`, `CW` and `PCAP`. -/
structure Config where
  /-- `SYMW`, 00_scope.md R4 -/
  symw : SymWidth
  /-- `CW`, the width of a count in bits, 00_scope.md R5 -/
  cw : Nat
  /-- `PCAP`, the capacity of the payload memory in bytes, 00_scope.md R7 -/
  pcap : Nat
  deriving DecidableEq, Repr

namespace Config

/-- The defaults of 00_scope.md R4, R5, R7: `SYMW = 8`, `CW = 32`, `PCAP = 65536`. -/
def default : Config := { symw := .eight, cw := 32, pcap := 65536 }

/-- The parameter values the spec allows (00_scope.md R5, R7; `SYMW` is legal by its type). -/
abbrev Legal (c : Config) : Prop :=
  1 ≤ c.cw ∧ c.cw ≤ 32 ∧ 1 ≤ c.pcap ∧ c.pcap ≤ 2 ^ 29 - 1

/-- `NSYM = 2^SYMW`, 00_scope.md R4. -/
def nsym (c : Config) : Nat := 2 ^ c.symw.bits

/-- `MAXNODES = 2·NSYM − 1`, 00_scope.md R8. -/
def maxNodes (c : Config) : Nat := 2 * c.nsym - 1

/-- `IDW = SYMW + 1`, the width of a node id, 00_scope.md R8. -/
def idw (c : Config) : Nat := c.symw.bits + 1

/-- `MAXLEN = NSYM − 1`, the longest possible code, 00_scope.md R8. -/
def maxLen (c : Config) : Nat := c.nsym - 1

/-- `LENW = SYMW`, the width of `CODE[s].LEN`, 00_scope.md R8. -/
def lenw (c : Config) : Nat := c.symw.bits

/-- `CODEWORDS = ceil(MAXLEN / 32)`, 00_scope.md R8. -/
def codeWords (c : Config) : Nat := (c.maxLen + 31) / 32

/-- `NW = CW + SYMW`, the width of a node weight, 00_scope.md R6. -/
def nw (c : Config) : Nat := c.cw + c.symw.bits

/-- The payload memory's size in bits, `8·PCAP`. -/
def payBits (c : Config) : Nat := 8 * c.pcap

end Config

end Sys2Proof
end

