-- ==== Sys2Proof/Machine/State.lean ====
section
/-! DEFINITION. The state of one HUFFCORE instance (10_state.md R22) as plain data, and its value
after reset (10_state.md R42). Beside the spec's state it holds three things of the model's own: the
parameters, what the host has issued and not yet had answered, and the last response (log 1, 2, 3). -/

namespace Sys2Proof.Machine

/-- `PHASE`, the lifecycle stage (10_state.md R23; the encoding 3 never occurs, so it has no name). -/
inductive Phase where
  | load
  | built
  | coded
  deriving DecidableEq, Repr

/-- `PMODE`, who wrote the payload (10_state.md R25; the encoding 3 never occurs). -/
inductive PMode where
  | none
  | enc
  | host
  deriving DecidableEq, Repr

/-- The cause codes 0 to 7 (60_exceptions.md R220; 8 to 15 are reserved and never produced). -/
inductive Cause where
  /-- 0: no fault since reset -/
  | none
  /-- 1: `E_MISSING_CODE`, raised by ENC -/
  | missingCode
  /-- 2: `E_MALFORMED`, raised by DSTEP and DRUN -/
  | malformed
  /-- 3: `E_CORRUPT_CONTAINER`, reserved for the external ContainerCodec, never written (R232) -/
  | corruptContainer
  /-- 4: `E_IO`, reserved for the external collaborators, never written (R232) -/
  | io
  /-- 5: `E_CAPACITY`, raised by ENC and PPUT -/
  | capacity
  /-- 6: `E_SEQUENCE`, the command is not legal in this `PHASE` or `PMODE` -/
  | sequence
  /-- 7: `E_ILLEGAL`, the word does not decode or an operand is out of range -/
  | illegal
  deriving DecidableEq, Repr

/-- An entry of the node arena `NODE` (10_state.md R36). Ids are numbers below `MAXNODES`; the weight
is the exact sum (00_scope.md R6, R9; log 5). -/
structure Node where
  /-- a left child is present -/
  lv : Bool
  /-- a right child is present -/
  rv : Bool
  /-- id of the left child, 0 when `lv` is false -/
  l : Nat
  /-- id of the right child, 0 when `rv` is false -/
  r : Nat
  /-- the Symbol of a leaf, else 0 -/
  sym : Symbol
  /-- the weight -/
  w : Nat
  deriving DecidableEq, Repr

/-- An entry of the CodeTable `CODE` (10_state.md R37): code bit i is bit i of `bits` (30_encoding.md
R89; log 5). -/
structure CodeEntry where
  /-- the symbol has a code -/
  v : Bool
  /-- the number of bits of the code, 0 when `v` is false -/
  len : Nat
  /-- bit i is `c[i]` for `i < len`, 0 above -/
  bits : Nat
  deriving DecidableEq, Repr

/-- A table by rising index that lists the entries that hold a value; an index it does not list
holds none (10_state.md R42, 93_implementation_defined.md B1, B2; log 4). -/
abbrev Table (α : Type) := List (Nat × α)

/-- The payload memory `PAY` (10_state.md R38): the bytes that have been written. -/
abbrev Memory := List Host.Cell

/-- What the host does to the machine (00_scope.md R10, 70_reset_and_hazards.md R250). -/
inductive HostInput where
  /-- a command word on the command port -/
  | command (w : CmdWord)
  /-- the hardware reset input, between two commands -/
  | reset
  /-- the hardware reset input while the command `w` runs: `w` is abandoned without a response -/
  | resetDuring (w : CmdWord)
  deriving DecidableEq, Repr

/-- The state of the machine. -/
structure State where
  /-- the parameters `SYMW`, `CW`, `PCAP`, constant (model's own; log 1) -/
  cfg : Config
  /-- host inputs not yet taken, oldest first (model's own; log 2) -/
  inputs : List HostInput
  /-- the response of the last command, none before the first (model's own; R83; log 3) -/
  resp : Option Response
  /-- `PHASE`, R23 -/
  phase : Phase
  /-- `FAULT`, R24 -/
  fault : Bool
  /-- `CAUSE`, R24 -/
  cause : Cause
  /-- `FINFO`, R24 -/
  finfo : Word
  /-- `PMODE`, R25 -/
  pmode : PMode
  /-- `NLEAF`, R26 -/
  nleaf : Nat
  /-- `NNODES`, R26 -/
  nnodes : Nat
  /-- `ROOTV`, R27 -/
  rootv : Bool
  /-- `ROOT`, R27 -/
  root : Nat
  /-- `BITLEN`, R28 -/
  bitlen : Nat
  /-- `PBYTES`, R29 -/
  pbytes : Nat
  /-- `RPOS`, R30 -/
  rpos : Nat
  /-- `CUR`, R31 -/
  cur : Nat
  /-- `FREQ`, R35: the entries that are not 0, by rising symbol; an unlisted symbol reads 0 -/
  freq : Table Count
  /-- `NODE`, R36: the entries that have been written, by rising id -/
  node : Table Node
  /-- `CODE`, R37: the entries that have been written, by rising symbol -/
  code : Table CodeEntry
  /-- `PAY`, R38: the bytes that have been written, by rising index -/
  pay : Memory
  /-- `OUT`, R39: the Symbols emitted since reset, oldest first -/
  out : List Symbol
  deriving DecidableEq, Repr

/-- The machine right after reset (10_state.md R42), with the default parameters (00_scope.md R4, R5,
R7), nothing issued by the host and nothing answered (log 1, 2, 3). -/
def State.reset : State where
  cfg := Config.default
  inputs := []
  resp := none
  phase := .load
  fault := false
  cause := .none
  finfo := 0
  pmode := .none
  nleaf := 0
  nnodes := 0
  rootv := false
  root := 0
  bitlen := 0
  pbytes := 0
  rpos := 0
  cur := 0
  freq := []
  node := []
  code := []
  pay := []
  out := []

/-- What stops the MODEL. The faults of the SPEC are not here: they are next states with `FAULT` set
(60_exceptions.md R221). Each of these marks a state that no run from reset reaches, where the spec
gives no value; each is safe: the machine has no such state (log 4, log 12). -/
inductive Fault where
  /-- `NODE[id]` is read and holds no value (R66). Raised by BUILD, NGET, DERIVE, DSTEP, DRUN. Safe. -/
  | unwrittenNode (id : Nat)
  /-- `CODE[sym]` is read and holds no value (R67). Raised by CLEN, CBITS, ENC. Safe. -/
  | unwrittenCode (sym : Nat)
  /-- `PAY[index]` is read and holds no value (R68). Raised by PGET, ENC, DSTEP, DRUN. Safe. -/
  | unwrittenByte (index : Nat)
  /-- PQ_MIN on an empty queue, or TB_FINISH on a queue of two or more (the preconditions of R122 and
  R124). No state raises it: BUILD keeps them. Safe. -/
  | queuePrecondition
  /-- DERIVE's walk goes deeper than the tree has nodes: the arena is no tree (R145). Safe. -/
  | walkBound
  /-- DRUN takes more steps than R271 allows. No state raises it. Safe. -/
  | runBound
  deriving DecidableEq, Repr

/-- Why the model gives an instruction no meaning. -/
inductive Refusal where
  /-- the instruction's arm has no meaning yet; raised by exec alone (here by no arm). Safe. -/
  | notModelled (mnemonic : String)
  deriving DecidableEq, Repr

/-- One step's outcome. -/
abbrev Outcome := Host.Outcome State Fault Refusal

end Sys2Proof.Machine
end

