-- ==== Sys2Proof/Machine/Flags.lean ====
section
/-! DEFINITION. Every flag and code the machine computes: the register codes, `STATUS` with `DEND`,
`CFG`, `PCAPR`, the response word, `seqinfo` and the output `fault_o`. -/

namespace Sys2Proof.Machine

/-- The 2-bit value of `PHASE`, 10_state.md R23. -/
def Phase.code : Phase → BitVec 2
  | .load => 0
  | .built => 1
  | .coded => 2

/-- The 2-bit value of `PMODE`, 10_state.md R25. -/
def PMode.code : PMode → BitVec 2
  | .none => 0
  | .enc => 1
  | .host => 2

/-- The 4-bit cause code, 60_exceptions.md R220. -/
def Cause.code : Cause → BitVec 4
  | .none => 0
  | .missingCode => 1
  | .malformed => 2
  | .corruptContainer => 3
  | .io => 4
  | .capacity => 5
  | .sequence => 6
  | .illegal => 7

/-- The response word: `ERR` in 39:36, zeros in 35:32, `DATA` in 31:0 (30_encoding.md R83). -/
def mkResponse (err : BitVec 4) (data : Word) : Response := err ++ 0#4 ++ data

/-- `ERR` of a response, 30_encoding.md R83. -/
def Response.err (r : Response) : BitVec 4 := r.extractLsb' 36 4

/-- `DATA` of a response, 30_encoding.md R83. -/
def Response.data (r : Response) : Word := r.extractLsb' 0 32

/-- `ok(v)`: the command was performed with this result (30_encoding.md R83). -/
def okResponse (v : Word) : Response := mkResponse 0 v

/-- `STATUS.DEND`: every payload bit is consumed and the cursor is between symbols (10_state.md R32). -/
def State.dend (s : State) : Bool :=
  decide (s.bitlen ≤ s.rpos) && (!s.rootv || decide (s.cur = s.root))

/-- `STATUS`: `DEND` in bit 6, `PMODE` 5:4, `ROOTV` 3, `FAULT` 2, `PHASE` 1:0 (10_state.md R32). -/
def State.status (s : State) : Word :=
  0#25 ++ BitVec.ofBool s.dend ++ s.pmode.code ++ BitVec.ofBool s.rootv
    ++ BitVec.ofBool s.fault ++ s.phase.code

/-- `CFG`: `SYMW` in bits 7:0, `CW` 15:8, the architecture version 1 in 23:16 (10_state.md R33). -/
def State.cfgWord (s : State) : Word :=
  0#8 ++ 1#8 ++ BitVec.ofNat 8 s.cfg.cw ++ BitVec.ofNat 8 s.cfg.symw.bits

/-- `PCAPR`, 10_state.md R33. -/
def State.pcapWord (s : State) : Word := BitVec.ofNat 32 s.cfg.pcap

/-- `seqinfo`, what `E_SEQUENCE` records: `OP` in bits 15:8, `PMODE` 5:4, `PHASE` 1:0 (60_exceptions.md
R220). -/
def State.seqInfo (s : State) (i : Instr) : Word :=
  0#16 ++ i.opcode ++ 0#2 ++ s.pmode.code ++ 0#2 ++ s.phase.code

/-- What `E_ILLEGAL` records for a decoded command: `w[63:32]` of its word (60_exceptions.md R220). -/
def illegalInfo (i : Instr) : Word := upperHalf (encode i)

/-- The level output `fault_o = FAULT` (60_exceptions.md R227, R229). -/
def State.faultO (s : State) : Bool := s.fault

end Sys2Proof.Machine
end

