-- ==== Sys2Proof/WellFormed.lean ====
section
/-! DEFINITION. Well-formed commands: the operand ranges of 30_encoding.md R84 that depend on the
parameters alone. A node id and a byte index are bounded by the registers `NNODES` and `PBYTES`, so
they are checked in the state (Machine/Operands.lean), not here. A command that is not well-formed
still decodes and still runs: its meaning raises `E_ILLEGAL`. -/

namespace Sys2Proof

/-- A Symbol operand must be below `NSYM`. -/
def Config.symOk (c : Config) (sym : Symbol) : Bool := decide (sym.toNat < c.nsym)

/-- A count operand must be below `2^CW`. -/
def Config.countOk (c : Config) (count : Count) : Bool := decide (count.toNat < 2 ^ c.cw)

/-- A word index must be below `CODEWORDS`. -/
def Config.wordOk (c : Config) (word : BitVec 32) : Bool := decide (word.toNat < c.codeWords)

/-- A CSR number must be at most 11. -/
def csrOk (csr : BitVec 16) : Bool := decide (csr.toNat ≤ 11)

/-- A field selector must be at most 5. -/
def fieldOk (field : BitVec 16) : Bool := decide (field.toNat ≤ 5)

/-- The operand ranges of 30_encoding.md R84 that the parameters decide. -/
def Instr.wellFormed (c : Config) : Instr → Bool
  | .nop => true
  | .rst => true
  | .rdcsr csr => csrOk csr
  | .fset sym count => c.symOk sym && c.countOk count
  | .fget sym => c.symOk sym
  | .build => true
  | .nget field _ => fieldOk field
  | .derive => true
  | .clen sym => c.symOk sym
  | .cbits sym word => c.symOk sym && c.wordOk word
  | .enc sym => c.symOk sym
  | .pget _ => true
  | .pput _ => true
  | .plen _ => true
  | .dstep => true
  | .drun => true

end Sys2Proof
end

