-- ==== Sys2Proof/Machine/Operands.lean ====
section
/-! DEFINITION. The operand forms (30_encoding.md R84): CSR numbers, field selectors, and the fields
of a node and of a code entry that they select. -/

namespace Sys2Proof.Machine

/-- The control and status registers, 10_state.md R34. -/
inductive Csr where
  | cfg
  | pcapr
  | status
  | cause
  | finfo
  | nleaf
  | nnodes
  | root
  | bitlen
  | pbytes
  | rpos
  | cur
  deriving DecidableEq, Repr

/-- The CSR of a number, none above 11 (10_state.md R34). -/
def Csr.ofNumber (n : BitVec 16) : Option Csr :=
  match n.toNat with
  | 0 => some .cfg
  | 1 => some .pcapr
  | 2 => some .status
  | 3 => some .cause
  | 4 => some .finfo
  | 5 => some .nleaf
  | 6 => some .nnodes
  | 7 => some .root
  | 8 => some .bitlen
  | 9 => some .pbytes
  | 10 => some .rpos
  | 11 => some .cur
  | _ => none

/-- `zext_32(CSR[n])`, 10_state.md R34. -/
def State.readCsr (s : State) : Csr → Word
  | .cfg => s.cfgWord
  | .pcapr => s.pcapWord
  | .status => s.status
  | .cause => s.cause.code.setWidth 32
  | .finfo => s.finfo
  | .nleaf => BitVec.ofNat 32 s.nleaf
  | .nnodes => BitVec.ofNat 32 s.nnodes
  | .root => BitVec.ofNat 32 s.root
  | .bitlen => BitVec.ofNat 32 s.bitlen
  | .pbytes => BitVec.ofNat 32 s.pbytes
  | .rpos => BitVec.ofNat 32 s.rpos
  | .cur => BitVec.ofNat 32 s.cur

/-- The field selectors of NGET, 30_encoding.md R90. -/
inductive NodeField where
  | flags
  | l
  | r
  | sym
  | wlo
  | whi
  deriving DecidableEq, Repr

/-- The field of a selector, none above 5 (30_encoding.md R90). -/
def NodeField.ofSelector (a : BitVec 16) : Option NodeField :=
  match a.toNat with
  | 0 => some .flags
  | 1 => some .l
  | 2 => some .r
  | 3 => some .sym
  | 4 => some .wlo
  | 5 => some .whi
  | _ => none

/-- `DATA` of NGET (30_encoding.md R90): `FLAGS` is `LV` in bit 0 and `RV` in bit 1; `WLO = W[31:0]`,
`WHI = W[NW−1:32]`. -/
def Node.readField (n : Node) : NodeField → Word
  | .flags => 0#30 ++ BitVec.ofBool n.rv ++ BitVec.ofBool n.lv
  | .l => BitVec.ofNat 32 n.l
  | .r => BitVec.ofNat 32 n.r
  | .sym => n.sym.setWidth 32
  | .wlo => BitVec.ofNat 32 n.w
  | .whi => BitVec.ofNat 32 (n.w / 2 ^ 32)

/-- `DATA` of CLEN: `V` in bit 31, `LEN` in bits 15:0 (42_code_deriver.md R146). -/
def CodeEntry.lenWord (e : CodeEntry) : Word :=
  BitVec.ofBool e.v ++ 0#15 ++ BitVec.ofNat 16 e.len

/-- `DATA` of CBITS word k: `BITS[32k+31 : 32k]` (42_code_deriver.md R147). -/
def CodeEntry.bitsWord (e : CodeEntry) (k : Nat) : Word :=
  BitVec.ofNat 32 (e.bits >>> (32 * k))

/-- Code bit i, `c[i]` (30_encoding.md R89). -/
def CodeEntry.bit (e : CodeEntry) (i : Nat) : Bool := e.bits.testBit i

/-- The three kinds of node, 10_state.md R36, 44_decoder.md R183. -/
inductive Kind where
  | leaf
  | internal
  | broken
  deriving DecidableEq, Repr

/-- `Kind(i)` of a node: LEAF when no child is present, INTERNAL when both are, else BROKEN (R183). -/
def Node.kind (n : Node) : Kind :=
  match n.lv, n.rv with
  | false, false => .leaf
  | true, true => .internal
  | _, _ => .broken

end Sys2Proof.Machine
end

