-- ==== Sys2Proof/Machine/Ops.lean ====
section
/-! DEFINITION. The named operations over the tables, the payload and the response, shared by the
meanings: table reads and writes, `raise` (60_exceptions.md R221) and the refusal (R224), the bit
primitives (20_memory.md R69), reset (70_reset_and_hazards.md R250), and taking the host's inputs. -/

namespace Sys2Proof.Machine

/-! ### Tables -/

/-- The entry at an index, if one has been written. -/
def Table.get? {α : Type} : Table α → Nat → Option α
  | [], _ => none
  | (k, v) :: t, a => if k = a then some v else Table.get? t a

/-- Writes the entry at an index, keeping the indices rising. -/
def Table.set {α : Type} : Table α → Nat → α → Table α
  | [], a, x => [(a, x)]
  | (k, v) :: t, a, x =>
    if a < k then (a, x) :: (k, v) :: t
    else if k = a then (a, x) :: t
    else (k, v) :: Table.set t a x

/-- Takes the entry at an index out of the list. -/
def Table.erase {α : Type} : Table α → Nat → Table α
  | [], _ => []
  | (k, v) :: t, a => if k = a then Table.erase t a else (k, v) :: Table.erase t a

/-- The canonical form: strictly rising indices. -/
abbrev Table.wf {α : Type} (t : Table α) : Prop := t.Pairwise (fun x y => x.1 < y.1)

/-- The payload byte at an index, none where nothing has been written (20_memory.md R68). -/
def Memory.read (m : Memory) (q : Nat) : Option Byte := Table.get? m q

/-- Writes a payload byte. -/
def Memory.write (m : Memory) (q : Nat) (b : Byte) : Memory := Table.set m q b

/-- The canonical form of the payload memory: strictly rising addresses. No entry equals what an
unlisted address reads as, because that is no value at all. -/
abbrev Memory.wf (m : Memory) : Prop := Table.wf m

/-- `FREQ[s]`: 0 for a symbol with no entry (10_state.md R35). -/
def freqGet (f : Table Count) (sym : Nat) : Count := (Table.get? f sym).getD 0

/-- `FREQ[s] <- c`; a count of 0 removes the entry (40_control_and_table.md R103). -/
def freqSet (f : Table Count) (sym : Nat) (c : Count) : Table Count :=
  if c = 0 then Table.erase f sym else Table.set f sym c

/-- The canonical form of the frequency table: rising symbols, no entry of 0. -/
abbrev freqWf (f : Table Count) : Prop := Table.wf f ∧ ∀ e ∈ f, e.2 ≠ 0

/-- `FREQ[s]` in a state. -/
def State.count (s : State) (sym : Nat) : Count := freqGet s.freq sym

/-- `NODE[i]`; a read of an entry that holds no value stops the model (R66; log 4). -/
def State.readNode (s : State) (i : Nat) : Except Fault Node :=
  match Table.get? s.node i with
  | some n => .ok n
  | none => .error (.unwrittenNode i)

/-- `NODE[i] <- n`. -/
def State.writeNode (s : State) (i : Nat) (n : Node) : State :=
  { s with node := Table.set s.node i n }

/-- `CODE[s]`; a read of an entry that holds no value stops the model (R67; log 4). -/
def State.readCode (s : State) (sym : Nat) : Except Fault CodeEntry :=
  match Table.get? s.code sym with
  | some e => .ok e
  | none => .error (.unwrittenCode sym)

/-- `CODE[s] <- e`. -/
def State.writeCode (s : State) (sym : Nat) (e : CodeEntry) : State :=
  { s with code := Table.set s.code sym e }

/-- `PAY[q]`; a read of a byte that holds no value stops the model (R68; log 4). -/
def State.readByte (s : State) (q : Nat) : Except Fault Byte :=
  match Memory.read s.pay q with
  | some b => .ok b
  | none => .error (.unwrittenByte q)

/-! ### Responses and faults -/

/-- `respond(ERR = e, DATA = v)`, 30_encoding.md R83. -/
def State.respond (s : State) (err : BitVec 4) (data : Word) : State :=
  { s with resp := some (mkResponse err data) }

/-- `ok(v)`, 30_encoding.md R83. -/
def State.ok (s : State) (v : Word) : State := s.respond 0 v

/-- The response of a faulting or refused command: the latched values (30_encoding.md R83). -/
def State.respondLatched (s : State) : State := s.respond s.cause.code s.finfo

/-- The first fault since reset is recorded, a later one is not (60_exceptions.md R221, R223). -/
def State.latch (s : State) (c : Cause) (info : Word) : State :=
  if s.fault then s else { s with fault := true, cause := c, finfo := info }

/-- `raise E(info)`: TAKING A FAULT, the one primitive by which a fault happens (60_exceptions.md
R221, R227). The only return from it is reset (R228). -/
def State.raise (s : State) (c : Cause) (info : Word) : State := (s.latch c info).respondLatched

/-- The command ends with `ok(v)`. -/
def done (s : State) (v : Word) : Outcome := .next (s.ok v)

/-- The command ends with a fault. -/
def raised (s : State) (c : Cause) (info : Word) : Outcome := .next (s.raise c info)

/-- `E_ILLEGAL` for a decoded command, with `FINFO = w[63:32]` (30_encoding.md R84). -/
def raiseIllegal (s : State) (i : Instr) : Outcome := raised s .illegal (illegalInfo i)

/-- `E_SEQUENCE` for a command that is not legal in this `PHASE` or `PMODE` (60_exceptions.md R220). -/
def raiseSequence (s : State) (i : Instr) : Outcome := raised s .sequence (s.seqInfo i)

/-- A state-changing command while a fault is latched is refused: no state change, the latched values
as response (00_scope.md R10, 60_exceptions.md R224). -/
def unlessFaulted (s : State) (k : Outcome) : Outcome :=
  if s.fault then .next s.respondLatched else k

/-- Goes on with the value read, or stops the model. -/
def orStop {α : Type} (r : Except Fault α) (k : α → Outcome) : Outcome :=
  match r with
  | .ok x => k x
  | .error f => .fault f

/-! ### Payload bits -/

/-- A byte with the bit `v` at bit position `k` and 0 elsewhere. -/
def bitAt (v : Bool) (k : Nat) : Byte := (BitVec.ofBool v).setWidth 8 <<< k

/-- Payload bit p of a byte: most significant bit first (20_memory.md R61). -/
def bitOfByte (b : Byte) (p : Nat) : Bool := b.getLsbD (7 - p % 8)

/-- `GetBit(p) = PAY[p div 8][7 − (p mod 8)]`, 20_memory.md R69. -/
def State.getBit (s : State) (p : Nat) : Except Fault Bool :=
  match s.readByte (p / 8) with
  | .ok b => .ok (bitOfByte b p)
  | .error f => .error f

/-- `PutBit(v)`: appends one bit at `BITLEN`; a new byte opens with seven 0 pad bits (20_memory.md R69). -/
def State.putBit (s : State) (v : Bool) : Except Fault State :=
  let q := s.bitlen / 8
  let r := s.bitlen % 8
  if r = 0 then
    .ok { s with pay := Memory.write s.pay q (bitAt v 7), pbytes := q + 1, bitlen := s.bitlen + 1 }
  else
    match s.readByte q with
    | .ok b => .ok { s with pay := Memory.write s.pay q (b ||| bitAt v (7 - r)), bitlen := s.bitlen + 1 }
    | .error f => .error f

/-- `emit(s)`: appends a Symbol to `OUT` (10_state.md R39). -/
def State.emit (s : State) (sym : Symbol) : State := { s with out := s.out ++ [sym] }

/-! ### Reset and the host's inputs -/

/-- Every piece of state at its reset value (70_reset_and_hazards.md R250, 10_state.md R42). The
parameters are constants and what the host has issued is the host's: both stay (log 1, 2). -/
def State.toReset (s : State) : State := { State.reset with cfg := s.cfg, inputs := s.inputs }

/-- A word that decodes to no command raises `E_ILLEGAL` with `FINFO = w[63:32]` (30_encoding.md R81,
00_scope.md R10). -/
def illegalWord (s : State) (w : CmdWord) : Outcome := raised s .illegal (upperHalf w)

/-- The machine with its oldest host input taken. -/
def State.dropInput (s : State) : State := { s with inputs := s.inputs.tail }

/-- A command word placed where the machine takes its next input. -/
def State.pushCommand (s : State) (w : CmdWord) : State := { s with inputs := .command w :: s.inputs }

end Sys2Proof.Machine
end

