-- ==== Sys2Proof/Machine/BitDecoder.lean ====
section
/-! DEFINITION. The bitstream decoder BD and the payload load: PPUT, PLEN, DSTEP, DRUN (44_decoder.md
R180 to R189). -/

namespace Sys2Proof.Machine

/-- PPUT appends one byte to the payload memory (R181). -/
def execPput (byte : Byte) (s : State) : Outcome :=
  unlessFaulted s <|
    if s.pmode = .enc then raiseSequence s (.pput byte)
    else if s.cfg.pcap ≤ s.pbytes then raised s .capacity (BitVec.ofNat 32 s.pbytes)
    else
      done { s with pay := Memory.write s.pay s.pbytes byte, pbytes := s.pbytes + 1, pmode := .host } 0

/-- PLEN sets the logical bit length of the payload (R182). -/
def execPlen (nbits : BitVec 32) (s : State) : Outcome :=
  unlessFaulted s <|
    if s.pmode = .enc then raiseSequence s (.plen nbits)
    else done { s with bitlen := nbits.toNat, pmode := .host } 0

/-- What one `Step` answers (R184): `END`, `NONE`, `EMIT(s)`, or that it raises `E_MALFORMED`. -/
inductive StepResult where
  | finished
  | quiet
  | emitted (sym : Symbol)
  | malformed
  deriving DecidableEq, Repr

/-- One bit consumed: `RPOS <- RPOS + 1` (R184). -/
def State.consume (s : State) : State := { s with rpos := s.rpos + 1 }

/-- The descent from the cursor to the child `c`: a leaf is emitted and the cursor goes back to the
root, an internal node becomes the cursor, a broken node is check 5 (R184). -/
def descend (s : State) (c : Nat) : Except Fault (StepResult × State) :=
  match s.readNode c with
  | .error f => .error f
  | .ok nd =>
    match nd.kind with
    | .leaf => .ok (.emitted nd.sym, { (s.emit nd.sym).consume with cur := s.root })
    | .internal => .ok (.quiet, { s.consume with cur := c })
    | .broken => .ok (.malformed, s)

/-- `Step` from the cursor on, in a tree whose root is not a leaf: check 4, then left on 0 and right
on 1 (R184). -/
def stepFromCursor (s : State) (b : Bool) : Except Fault (StepResult × State) :=
  match s.readNode s.cur with
  | .error f => .error f
  | .ok nd => if nd.kind = .internal then descend s (if b then nd.r else nd.l) else .ok (.malformed, s)

/-- `Step` with a bit `b` at hand: a single-leaf tree emits its symbol and does not look at the bit
(R184, R186). -/
def stepWithBit (s : State) (b : Bool) : Except Fault (StepResult × State) :=
  match s.readNode s.root with
  | .error f => .error f
  | .ok nd =>
    if nd.kind = .leaf then .ok (.emitted nd.sym, (s.emit nd.sym).consume) else stepFromCursor s b

/-- `Step`: at most one payload bit (R184). On `malformed` the state is the one before it. -/
def decodeStep (s : State) : Except Fault (StepResult × State) :=
  if s.bitlen ≤ s.rpos then
    if s.rootv && decide (s.cur ≠ s.root) then .ok (.malformed, s) else .ok (.finished, s)
  else if !s.rootv then .ok (.malformed, s)
  else if s.pbytes ≤ s.rpos / 8 then .ok (.malformed, s)
  else
    match s.getBit s.rpos with
    | .error f => .error f
    | .ok b => stepWithBit s b

/-- `E_MALFORMED` with `FINFO = RPOS` (R184). -/
def raiseMalformed (s : State) : Outcome := raised s .malformed (BitVec.ofNat 32 s.rpos)

/-- How DSTEP answers: `END` is bit 17, `EMIT` bit 16 with the symbol in 15:0 (R184). -/
def answerStep : StepResult × State → Outcome
  | (.finished, s) => done s 0x00020000
  | (.quiet, s) => done s 0x00000000
  | (.emitted sym, s) => done s (0x00010000 ||| sym.setWidth 32)
  | (.malformed, s) => raiseMalformed s

/-- DSTEP consumes at most one payload bit, in phase BUILT or CODED (R184). -/
def execDstep (s : State) : Outcome :=
  unlessFaulted s <|
    if s.phase = .load then raiseSequence s .dstep
    else orStop (decodeStep s) answerStep

/-- DRUN's loop with `n` symbols emitted so far, for at most the given number of `Step`s (R185). -/
def runSteps : Nat → Nat → State → Outcome
  | 0, _, _ => .fault .runBound
  | k + 1, n, s =>
    match decodeStep s with
    | .error f => .fault f
    | .ok (.finished, t) => done t (BitVec.ofNat 32 n)
    | .ok (.quiet, t) => runSteps k n t
    | .ok (.emitted _, t) => runSteps k (n + 1) t
    | .ok (.malformed, t) => raiseMalformed t

/-- DRUN decodes all remaining bits and then checks the end (R185); at most `BITLEN − RPOS + 1` calls
of `Step` (R271). -/
def execDrun (s : State) : Outcome :=
  unlessFaulted s <|
    if s.phase = .load then raiseSequence s .drun
    else runSteps (s.bitlen - s.rpos + 1) 0 s

end Sys2Proof.Machine
end

