-- ==== Sys2Proof/Machine/CodeDeriver.lean ====
section
/-! DEFINITION. The code-table deriver CD: DERIVE, CLEN, CBITS (42_code_deriver.md R140 to R149). The
walk's path is a local value of DERIVE (10_state.md R40). -/

namespace Sys2Proof.Machine

/-- The entry of a symbol without a code (R142). -/
def noCode : CodeEntry := { v := false, len := 0, bits := 0 }

/-- `Pack(path)`: bit i is `path[i]`, 0 above (R142). -/
def pack : List Bool → Nat
  | [] => 0
  | b :: p => b.toNat + 2 * pack p

/-- The entry of a symbol whose leaf is reached by this path (R142). -/
def codeOfPath (path : List Bool) : CodeEntry :=
  { v := true, len := path.length, bits := pack path }

/-- The CodeTable with no codes: every entry `{V = 0, LEN = 0, BITS = 0}` (R142). -/
def blankCodes (c : Config) : Table CodeEntry := (List.range c.nsym).map fun sym => (sym, noCode)

/-- `Walk(n, path)`, left subtree before right (R142, R145), no deeper than the given bound. -/
def walk : Nat → Nat → List Bool → State → Except Fault State
  | 0, _, _, _ => .error .walkBound
  | d + 1, n, path, s =>
    match s.readNode n with
    | .error f => .error f
    | .ok nd =>
      if nd.kind = .leaf then .ok (s.writeCode nd.sym.toNat (codeOfPath path))
      else
        match walk d nd.l (path ++ [false]) s with
        | .error f => .error f
        | .ok s' => walk d nd.r (path ++ [true]) s'

/-- The codes of the tree: none without a root, the single bit 0 when the root is a leaf, else the
paths (R142, R143, R144). A path passes through no more nodes than there are. -/
def deriveCodes (s : State) : Except Fault State :=
  let s0 := { s with code := blankCodes s.cfg }
  if s.rootv then
    match s.readNode s.root with
    | .error f => .error f
    | .ok nd =>
      if nd.kind = .leaf then .ok (s0.writeCode nd.sym.toNat { v := true, len := 1, bits := 0 })
      else walk s.nnodes s.root [] s0
  else .ok s0

/-- DERIVE runs CD over the tree, in phase BUILT only (R142). -/
def execDerive (s : State) : Outcome :=
  unlessFaulted s <|
    if s.phase ≠ .built then raiseSequence s .derive
    else orStop (deriveCodes s) fun t => done { t with phase := .coded } (BitVec.ofNat 32 t.nleaf)

/-- CLEN reads whether a symbol has a code, and its length (R146). -/
def execClen (sym : Symbol) (s : State) : Outcome :=
  if !s.cfg.symOk sym then raiseIllegal s (.clen sym)
  else if s.phase ≠ .coded then raiseSequence s (.clen sym)
  else orStop (s.readCode sym.toNat) fun e => done s e.lenWord

/-- CBITS reads 32 bits of a symbol's code (R147). -/
def execCbits (sym : Symbol) (word : BitVec 32) (s : State) : Outcome :=
  if !s.cfg.symOk sym || !s.cfg.wordOk word then raiseIllegal s (.cbits sym word)
  else if s.phase ≠ .coded then raiseSequence s (.cbits sym word)
  else orStop (s.readCode sym.toNat) fun e => done s (e.bitsWord word.toNat)

end Sys2Proof.Machine
end

