-- ==== Sys2Proof/Machine/Control.lean ====
section
/-! DEFINITION. The control commands NOP, RST, RDCSR (40_control_and_table.md R100 to R102). -/

namespace Sys2Proof.Machine

/-- NOP does nothing, also while a fault is latched (R100). -/
def execNop (s : State) : Outcome := done s 0

/-- RST is the hardware reset as a command, with a response (R101). -/
def execRst (s : State) : Outcome := done s.toReset 0

/-- RDCSR reads one control and status register, also while a fault is latched (R102). -/
def execRdcsr (csr : BitVec 16) (s : State) : Outcome :=
  match Csr.ofNumber csr with
  | none => raiseIllegal s (.rdcsr csr)
  | some r => done s (s.readCsr r)

end Sys2Proof.Machine
end

