-- ==== Sys2Proof/Machine/Encoder.lean ====
section
/-! DEFINITION. The bitstream encoder BE: ENC and PGET (43_encoder.md R160 to R164). -/

namespace Sys2Proof.Machine

/-- `for i <- 0 .. LEN − 1: PutBit(BITS[i])`, from bit `i` on, `n` bits (R161). -/
def putCode (e : CodeEntry) : Nat → Nat → State → Except Fault State
  | 0, _, s => .ok s
  | n + 1, i, s =>
    match s.putBit (e.bit i) with
    | .error f => .error f
    | .ok s' => putCode e n (i + 1) s'

/-- ENC appends the code of one symbol to the payload (R161). -/
def execEnc (sym : Symbol) (s : State) : Outcome :=
  unlessFaulted s <|
    if !s.cfg.symOk sym then raiseIllegal s (.enc sym)
    else if s.phase ≠ .coded ∨ s.pmode = .host then raiseSequence s (.enc sym)
    else orStop (s.readCode sym.toNat) fun e =>
      if !e.v then raised s .missingCode (sym.setWidth 32)
      else if s.cfg.payBits < s.bitlen + e.len then raised s .capacity (BitVec.ofNat 32 s.bitlen)
      else orStop (putCode e e.len 0 s) fun t =>
        done { t with pmode := .enc } (BitVec.ofNat 32 e.len)

/-- PGET reads one payload byte, also while a fault is latched (R163). -/
def execPget (index : BitVec 32) (s : State) : Outcome :=
  if s.pbytes ≤ index.toNat then raiseIllegal s (.pget index)
  else orStop (s.readByte index.toNat) fun b => done s (b.setWidth 32)

end Sys2Proof.Machine
end

