-- ==== Sys2Proof/Machine/FreqTable.lean ====
section
/-! DEFINITION. The frequency table commands FSET and FGET (40_control_and_table.md R103, R104). -/

namespace Sys2Proof.Machine

/-- FSET writes one entry of the FrequencyTable, in phase LOAD only (R103). -/
def execFset (sym : Symbol) (count : Count) (s : State) : Outcome :=
  unlessFaulted s <|
    if !s.cfg.symOk sym || !s.cfg.countOk count then raiseIllegal s (.fset sym count)
    else if s.phase ≠ .load then raiseSequence s (.fset sym count)
    else done { s with freq := freqSet s.freq sym.toNat count } 0

/-- FGET reads one entry of the FrequencyTable, also while a fault is latched (R104). -/
def execFget (sym : Symbol) (s : State) : Outcome :=
  if !s.cfg.symOk sym then raiseIllegal s (.fget sym)
  else done s (s.count sym.toNat)

end Sys2Proof.Machine
end

