-- ==== Sys2Proof/Machine/TreeBuilder.lean ====
section
/-! DEFINITION. The tree builder TB: BUILD as the composition of its micro-operations TB_INIT,
PQ_MIN, TB_MERGE, TB_FINISH, and NGET (41_tree_builder.md R121 to R129). The queue `Q` is a list of
node ids without repeats, a local value of BUILD (10_state.md R40). -/

namespace Sys2Proof.Machine

/-- The leaf of a symbol with its count as weight (R121). -/
def leafNode (sym : Nat) (c : Count) : Node :=
  { lv := false, rv := false, l := 0, r := 0, sym := BitVec.ofNat 16 sym, w := c.toNat }

/-- The internal node over `a` (left) and `b` (right), its weight the sum of theirs (R123). -/
def mergedNode (a b wa wb : Nat) : Node :=
  { lv := true, rv := true, l := a, r := b, sym := 0, w := wa + wb }

/-- TB_INIT's loop over the symbols: `n` leaves are written so far and their ids are in `q` (R121). -/
def tbScan : List Nat → Nat → State → List Nat → Nat × State × List Nat
  | [], n, s, q => (n, s, q)
  | sym :: rest, n, s, q =>
    if s.count sym = 0 then tbScan rest n s q
    else tbScan rest (n + 1) (s.writeNode n (leafNode sym (s.count sym))) (q ++ [n])

/-- `TB_INIT`: a leaf for every symbol with a count, in ascending symbol value (R121). -/
def tbInit (s : State) : State × List Nat :=
  match tbScan (List.range s.cfg.nsym) 0 s [] with
  | (n, s', q) => ({ s' with nleaf := n, nnodes := n }, q)

/-- The queue's order: the keys `(NODE[i].W, i)` compared lexicographically (R122). -/
def keyLt (w1 i1 w2 i2 : Nat) : Bool := decide (w1 < w2) || (decide (w1 = w2) && decide (i1 < i2))

/-- The id with the least key among `i`, whose weight is `w`, and the ids of the list (R122). -/
def pqLeast (s : State) (i w : Nat) : List Nat → Except Fault Nat
  | [] => .ok i
  | j :: q =>
    match s.readNode j with
    | .error f => .error f
    | .ok n => if keyLt n.w j w i then pqLeast s j n.w q else pqLeast s i w q

/-- `PQ_MIN`: the id with the least key, and the queue without it (R122). -/
def pqMin (s : State) : List Nat → Except Fault (Nat × List Nat)
  | [] => .error .queuePrecondition
  | i :: q =>
    match s.readNode i with
    | .error f => .error f
    | .ok n =>
      match pqLeast s i n.w q with
      | .error f => .error f
      | .ok m => .ok (m, (i :: q).erase m)

/-- The new node of a merge and the queue after it: `a` was removed first, `b` second (R123). -/
def tbJoin (s : State) (a b : Nat) (q : List Nat) : Except Fault (State × List Nat) :=
  match s.readNode a, s.readNode b with
  | .ok na, .ok nb =>
    .ok ({ s.writeNode s.nnodes (mergedNode a b na.w nb.w) with nnodes := s.nnodes + 1 },
      q ++ [s.nnodes])
  | .error f, _ => .error f
  | _, .error f => .error f

/-- `TB_MERGE`: the first node removed becomes the left child, the second the right (R123). -/
def tbMerge (s : State) (q : List Nat) : Except Fault (State × List Nat) :=
  match pqMin s q with
  | .error f => .error f
  | .ok (a, q1) =>
    match pqMin s q1 with
    | .error f => .error f
    | .ok (b, q2) => tbJoin s a b q2

/-- `while |Q| ≥ 2: TB_MERGE`, for at most the given number of merges (R125, R271). -/
def tbLoop : Nat → State → List Nat → Except Fault (State × List Nat)
  | 0, s, q => .ok (s, q)
  | k + 1, s, q =>
    if 2 ≤ q.length then
      match tbMerge s q with
      | .error f => .error f
      | .ok (s', q') => tbLoop k s' q'
    else .ok (s, q)

/-- `TB_FINISH` names the root and puts the decoder's cursor there (R124). -/
def tbFinish (s : State) : List Nat → Except Fault State
  | [] => .ok { s with rootv := false, root := 0, cur := 0 }
  | [r] => .ok { s with rootv := true, root := r, cur := r }
  | _ :: _ :: _ => .error .queuePrecondition

/-- TB_INIT, the merges (each lowers `|Q|` by one, so `|Q|` of them are enough) and TB_FINISH (R125). -/
def buildTree (s : State) : Except Fault State :=
  match tbInit s with
  | (s1, q1) =>
    match tbLoop q1.length s1 q1 with
    | .error f => .error f
    | .ok (s2, q2) => tbFinish s2 q2

/-- BUILD runs TB over the frequency table, in phase LOAD only (R125). -/
def execBuild (s : State) : Outcome :=
  unlessFaulted s <|
    if s.phase ≠ .load then raiseSequence s .build
    else orStop (buildTree s) fun t => done { t with phase := .built } (BitVec.ofNat 32 t.nleaf)

/-- NGET reads one field of one node, also while a fault is latched (R129). -/
def execNget (field : BitVec 16) (id : BitVec 32) (s : State) : Outcome :=
  match NodeField.ofSelector field with
  | none => raiseIllegal s (.nget field id)
  | some f =>
    if s.nnodes ≤ id.toNat then raiseIllegal s (.nget field id)
    else orStop (s.readNode id.toNat) fun n => done s (n.readField f)

end Sys2Proof.Machine
end

