-- ==== Sys2Proof/Machine/Dispatch.lean ====
section
/-! DEFINITION. One arm per command (30_encoding.md R82): the meaning each decoded command has. -/

namespace Sys2Proof.Machine

def exec (i : Instr) (s : State) : Host.Outcome State Fault Refusal :=
  match i with
  | .nop => Sys2Proof.Machine.execNop s
  | .rst => Sys2Proof.Machine.execRst s
  | .rdcsr csr => Sys2Proof.Machine.execRdcsr csr s
  | .fset sym count => Sys2Proof.Machine.execFset sym count s
  | .fget sym => Sys2Proof.Machine.execFget sym s
  | .build => Sys2Proof.Machine.execBuild s
  | .nget field id => Sys2Proof.Machine.execNget field id s
  | .derive => Sys2Proof.Machine.execDerive s
  | .clen sym => Sys2Proof.Machine.execClen sym s
  | .cbits sym word => Sys2Proof.Machine.execCbits sym word s
  | .enc sym => Sys2Proof.Machine.execEnc sym s
  | .pget index => Sys2Proof.Machine.execPget index s
  | .pput byte => Sys2Proof.Machine.execPput byte s
  | .plen nbits => Sys2Proof.Machine.execPlen nbits s
  | .dstep => Sys2Proof.Machine.execDstep s
  | .drun => Sys2Proof.Machine.execDrun s

end Sys2Proof.Machine
end

