-- ==== Sys2Proof/Machine/Step.lean ====
section
/-! DEFINITION. One step: the machine takes the host's oldest input and performs it to completion
(00_scope.md R10, 70_reset_and_hazards.md R250). -/

namespace Sys2Proof.Machine

/-- `Exec(w)`: decode, raise `E_ILLEGAL` where the word is no command, else run the command
(00_scope.md R10; the refusal while a fault is latched is part of the state-changing meanings). -/
def runWord (w : CmdWord) (s : State) : Host.Outcome State Fault Refusal :=
  match decode w with
  | .ok i => exec i s
  | .error _ => illegalWord s w

/-- One step. With nothing issued the machine waits for the host and nothing changes (log 2). A
hardware reset, also one that abandons a running command, leaves the reset state and no response
(R250). -/
def step (s : State) : Host.Outcome State Fault Refusal :=
  match s.inputs with
  | [] => .next s
  | .command w :: _ => runWord w s.dropInput
  | .reset :: _ => .next s.dropInput.toReset
  | .resetDuring _ :: _ => .next s.dropInput.toReset

/-- The machine with a table row's word as the command it takes next (log 11). -/
def State.withFetchWord (s : State) (nbits w : Nat) : State := s.pushCommand (tableWord nbits w)

end Sys2Proof.Machine
end

