-- ==== Sys2Proof/Machine/HostSide.lean ====
section
/-! DEFINITION. What the host does with the commands: the pseudo-commands (30_encoding.md R94), the
compress and decompress sequences (70_reset_and_hazards.md R252, R253; 45_properties.md), the counting
duty (R254) and the container fields the host reads out (43_encoder.md R164). No part of the machine's
step uses them. -/

namespace Sys2Proof.Machine

/-- `FTAB s1:c1, s2:c2, ...`: one FSET per pair, in the order written (R94). -/
def ftab (pairs : List (Symbol × Count)) : List Instr := pairs.map fun p => .fset p.1 p.2

/-- `ENCS "text"`: one ENC per symbol, in order (R94). -/
def encs (text : List Symbol) : List Instr := text.map .enc

/-- `PLOAD b0, b1, ...`: one PPUT per byte, in order (R94). -/
def pload (bytes : List Byte) : List Instr := bytes.map .pput

/-- FrequencyCounter's contract: `count(s)` is the number of occurrences of s in the input (R254). -/
def occurrences (text : List Symbol) (sym : Symbol) : Nat := text.count sym

/-- The pairs of the frequency table of a text, one for each symbol present (R254). -/
def tableOf (c : Config) (text : List Symbol) : List (Symbol × Count) :=
  ((List.range c.nsym).map (BitVec.ofNat 16)).filterMap fun sym =>
    if occurrences text sym = 0 then none else some (sym, BitVec.ofNat 32 (occurrences text sym))

/-- The commands of R252 after reset: the table, BUILD, DERIVE, one ENC per symbol. -/
def compressSeq (table : List (Symbol × Count)) (text : List Symbol) : List Instr :=
  ftab table ++ [.build, .derive] ++ encs text

/-- The commands of R253 after reset: the table, BUILD, the payload's bytes and its bit length, DRUN. -/
def decompressSeq (table : List (Symbol × Count)) (bytes : List Byte) (nbits : BitVec 32) : List Instr :=
  ftab table ++ [.build] ++ pload bytes ++ [.plen nbits, .drun]

/-- Commands performed one after another, in issue order (00_scope.md R10). -/
def execAll : List Instr → State → Outcome
  | [], s => .next s
  | i :: rest, s =>
    match exec i s with
    | .next t => execAll rest t
    | .fault f => .fault f
    | .refused r => .refused r

/-- `payload_bytes` of R164: the bytes `PAY[0 .. PBYTES − 1]`. -/
def State.payloadBytes (s : State) : List Byte :=
  (List.range s.pbytes).filterMap (Memory.read s.pay)

/-- `frequency_table` of R164: the pairs of the symbols with a non-zero count. -/
def State.frequencyPairs (s : State) : List (Symbol × Count) :=
  ((List.range s.cfg.nsym).filter fun sym => s.count sym ≠ 0).map fun sym =>
    (BitVec.ofNat 16 sym, s.count sym)

/-- An instance straight after reset with these parameters (R42). -/
def State.fresh (c : Config) : State := { State.reset with cfg := c }

end Sys2Proof.Machine
end

