-- ==== Sys2Proof/Machine/Assembler.lean ====
section
/-! DEFINITION. The assembler notation of 30_encoding.md R92 to R94: one line of text to the commands
it stands for. Names are matched as they are spelled in the spec; spaces separate; a `;` outside quotes
starts a comment (log 13). -/

namespace Sys2Proof.Machine

/-- The tokens of a line. -/
inductive Token where
  | word (text : List Char)
  /-- a character in single quotes -/
  | char (c : Char)
  /-- a text in double quotes -/
  | text (t : List Char)
  | comma
  | colon
  deriving DecidableEq, Repr

/-- The word collected so far (last character first), if any, before the tokens that follow it. -/
def flushWord (acc : List Char) (rest : List Token) : List Token :=
  if acc = [] then rest else .word acc.reverse :: rest

/-- Cuts a line into tokens: `inText` says that a double quote is open, `acc` holds the characters
collected so far, last first. -/
def tokens : Bool → List Char → List Char → Option (List Token)
  | false, acc, [] => some (flushWord acc [])
  | true, _, [] => none
  | true, acc, '"' :: rest => (tokens false [] rest).map (.text acc.reverse :: ·)
  | true, acc, c :: rest => tokens true (c :: acc) rest
  | false, acc, ';' :: _ => some (flushWord acc [])
  | false, acc, '"' :: rest => (tokens true [] rest).map (flushWord acc)
  | false, acc, ',' :: rest => (tokens false [] rest).map fun ts => flushWord acc (.comma :: ts)
  | false, acc, ':' :: rest => (tokens false [] rest).map fun ts => flushWord acc (.colon :: ts)
  | false, acc, '\'' :: c :: '\'' :: rest =>
    (tokens false [] rest).map fun ts => flushWord acc (.char c :: ts)
  | false, acc, c :: rest =>
    if c = ' ' ∨ c = '\t' then (tokens false [] rest).map (flushWord acc)
    else tokens false (c :: acc) rest

/-- The value of a digit, upper or lower case. -/
def digitValue (c : Char) : Nat :=
  if '0' ≤ c ∧ c ≤ '9' then c.toNat - '0'.toNat
  else if 'a' ≤ c ∧ c ≤ 'f' then c.toNat - 'a'.toNat + 10
  else if 'A' ≤ c ∧ c ≤ 'F' then c.toNat - 'A'.toNat + 10
  else 16

/-- The value of a string of digits in a base, none if a character is no digit of it. -/
def digitsValue (base : Nat) : List Char → Nat → Option Nat
  | [], n => some n
  | c :: rest, n => if digitValue c < base then digitsValue base rest (base * n + digitValue c) else none

/-- A decimal number, or a hexadecimal one with `0x` (R93). -/
def numberValue : List Char → Option Nat
  | [] => none
  | '0' :: 'x' :: c :: rest => digitsValue 16 (c :: rest) 0
  | word => digitsValue 10 word 0

/-- The value of a name, by its place in a list of names. -/
def nameValue (word : List Char) : List String → Nat → Option Nat
  | [], _ => none
  | name :: rest, n => if name.toList = word then some n else nameValue word rest (n + 1)

/-- The names of the CSRs by number (10_state.md R34). -/
def csrNames : List String :=
  ["CFG", "PCAPR", "STATUS", "CAUSE", "FINFO", "NLEAF", "NNODES", "ROOT", "BITLEN", "PBYTES", "RPOS", "CUR"]

/-- The names of NGET's field selectors by number (30_encoding.md R90). -/
def fieldNames : List String := ["FLAGS", "L", "R", "SYM", "WLO", "WHI"]

/-- An ASCII character is its value (R93). -/
def charValue (c : Char) : Option Nat := if c.toNat < 128 then some c.toNat else none

/-- The value of an operand: a number, a character, or a name of the list (R92, R93). -/
def operandValue (names : List String) : Token → Option Nat
  | .word w =>
    match numberValue w with
    | some n => some n
    | none => nameValue w names 0
  | .char c => charValue c
  | .text _ => none
  | .comma => none
  | .colon => none

/-- An operand in a field of `w` bits: a value that does not fit has no word. -/
def fieldValue (w : Nat) (names : List String) (t : Token) : Option (BitVec w) :=
  match operandValue names t with
  | some n => if n < 2 ^ w then some (BitVec.ofNat w n) else none
  | none => none

/-- A command without operands (R92). -/
def assembleNone (m : String) : Option Instr :=
  match m with
  | "NOP" => some .nop
  | "RST" => some .rst
  | "BUILD" => some .build
  | "DERIVE" => some .derive
  | "DSTEP" => some .dstep
  | "DRUN" => some .drun
  | _ => none

/-- A command with one operand (R92). -/
def assembleOne (m : String) (x : Token) : Option Instr :=
  match m with
  | "RDCSR" => (fieldValue 16 csrNames x).map .rdcsr
  | "FGET" => (fieldValue 16 [] x).map .fget
  | "CLEN" => (fieldValue 16 [] x).map .clen
  | "ENC" => (fieldValue 16 [] x).map .enc
  | "PGET" => (fieldValue 32 [] x).map .pget
  | "PPUT" => (fieldValue 8 [] x).map .pput
  | "PLEN" => (fieldValue 32 [] x).map .plen
  | _ => none

/-- A command with two operands, A before B (R92). -/
def assembleTwo (m : String) (x y : Token) : Option Instr :=
  match m with
  | "FSET" => (fieldValue 16 [] x).bind fun a => (fieldValue 32 [] y).map (.fset a)
  | "NGET" => (fieldValue 16 fieldNames x).bind fun a => (fieldValue 32 [] y).map (.nget a)
  | "CBITS" => (fieldValue 16 [] x).bind fun a => (fieldValue 32 [] y).map (.cbits a)
  | _ => none

/-- The pairs `s1:c1, s2:c2, ...` of FTAB (R94). -/
def pairList : List Token → Option (List (Symbol × Count))
  | [x, .colon, y] =>
    (fieldValue 16 [] x).bind fun a => (fieldValue 32 [] y).map fun b => [(a, b)]
  | x :: .colon :: y :: .comma :: rest =>
    (fieldValue 16 [] x).bind fun a => (fieldValue 32 [] y).bind fun b =>
      (pairList rest).map ((a, b) :: ·)
  | _ => none

/-- The bytes `b0, b1, ...` of PLOAD (R94). -/
def byteList : List Token → Option (List Byte)
  | [x] => (fieldValue 8 [] x).map ([·])
  | x :: .comma :: rest => (fieldValue 8 [] x).bind fun b => (byteList rest).map (b :: ·)
  | _ => none

/-- The symbols of a text in double quotes, each its ASCII value (R94). -/
def textSymbols : List Char → Option (List Symbol)
  | [] => some []
  | c :: rest =>
    (charValue c).bind fun n => (textSymbols rest).map (BitVec.ofNat 16 n :: ·)

/-- The commands of a line's tokens; an empty or comment line has none (R92, R94). -/
def assembleTokens : List Token → Option (List Instr)
  | [] => some []
  | [.word m] => (assembleNone (String.ofList m)).map ([·])
  | .word m :: args =>
    match String.ofList m, args with
    | "FTAB", _ => (pairList args).map ftab
    | "PLOAD", _ => (byteList args).map pload
    | "ENCS", [.text t] => (textSymbols t).map encs
    | name, [x] => (assembleOne name x).map ([·])
    | name, [x, .comma, y] => (assembleTwo name x y).map ([·])
    | _, _ => none
  | _ => none

/-- The commands one line of assembler text stands for, none if it is no line of R92 to R94. -/
def assemble (line : String) : Option (List Instr) :=
  (tokens false [] line.toList).bind assembleTokens

end Sys2Proof.Machine
end

