-- ==== Sys2Proof/Safety.lean ====
section
/-! DEFINITION. The words the statements are written in: reads of one entry, one payload bit, the path
of a node, the facts a built tree and a derived CodeTable have (41_tree_builder.md R128, 42_code_deriver.md
R142), and the invariant of the machine (10_state.md R41). -/

namespace Sys2Proof.Machine

/-! ### Reading one thing -/

/-- `NODE[i]`, none where nothing has been written. -/
def State.nodeAt (s : State) (i : Nat) : Option Node := Table.get? s.node i

/-- `CODE[s]`, none where nothing has been written. -/
def State.codeAt (s : State) (sym : Nat) : Option CodeEntry := Table.get? s.code sym

/-- `PAY[q]`, none where nothing has been written. -/
def State.byteAt (s : State) (q : Nat) : Option Byte := Memory.read s.pay q

/-- Payload bit p: bit `7 − (p mod 8)` of `PAY[p div 8]` (20_memory.md R61). -/
def State.payBit (s : State) (p : Nat) : Option Bool :=
  (s.byteAt (p / 8)).map fun b => b.getLsbD (7 - p % 8)

/-- The symbols with a count, in ascending order; their number is N (00_scope.md §6). -/
def State.present (s : State) : List Nat := (List.range s.cfg.nsym).filter fun x => s.count x ≠ 0

/-- The sum of all counts. -/
def State.totalCount (s : State) : Nat := (s.present.map fun x => (s.count x).toNat).sum

/-- The code of a symbol as a sequence of bits, `c[0]` first; empty where it has none (R87, R89). -/
def State.codeBits (s : State) (sym : Symbol) : List Bool :=
  match s.codeAt sym.toNat with
  | some e => (List.range e.len).map e.bit
  | none => []

/-- The codes of a text one after another (43_encoder.md R160). -/
def State.encoding (s : State) (text : List Symbol) : List Bool := text.flatMap s.codeBits

/-- The symbol has a code. -/
def State.HasCode (s : State) (sym : Symbol) : Prop := ∃ e, s.codeAt sym.toNat = some e ∧ e.v = true

/-- The payload is exactly this sequence of bits. -/
def State.HoldsBits (s : State) (bits : List Bool) : Prop :=
  s.bitlen = bits.length ∧ ∀ p (h : p < bits.length), s.payBit p = some bits[p]

/-! ### Which command may run when -/

/-- The commands that change state, refused while a fault is latched (60_exceptions.md R224). -/
def changesState : Instr → Bool
  | .nop => false
  | .rst => false
  | .rdcsr _ => false
  | .fset _ _ => true
  | .fget _ => false
  | .build => true
  | .nget _ _ => false
  | .derive => true
  | .clen _ => false
  | .cbits _ _ => false
  | .enc _ => true
  | .pget _ => false
  | .pput _ => true
  | .plen _ => true
  | .dstep => true
  | .drun => true

/-- The table of 10_state.md R23: which command is legal in which phase. -/
def phaseLegal : Instr → Phase → Bool
  | .fset _ _, p => p == .load
  | .build, p => p == .load
  | .derive, p => p == .built
  | .clen _, p => p == .coded
  | .cbits _ _, p => p == .coded
  | .enc _, p => p == .coded
  | .dstep, p => p != .load
  | .drun, p => p != .load
  | .nop, _ => true
  | .rst, _ => true
  | .rdcsr _, _ => true
  | .fget _, _ => true
  | .nget _ _, _ => true
  | .pget _, _ => true
  | .pput _, _ => true
  | .plen _, _ => true

/-- Which command is legal with which owner of the payload (10_state.md R25). -/
def pmodeLegal : Instr → PMode → Bool
  | .enc _, m => m != .host
  | .pput _, m => m != .enc
  | .plen _, m => m != .enc
  | .nop, _ => true
  | .rst, _ => true
  | .rdcsr _, _ => true
  | .fset _ _, _ => true
  | .fget _, _ => true
  | .build, _ => true
  | .nget _ _, _ => true
  | .derive, _ => true
  | .clen _, _ => true
  | .cbits _ _, _ => true
  | .pget _, _ => true
  | .dstep, _ => true
  | .drun, _ => true

/-- The operand ranges of 30_encoding.md R84, those that registers bound among them. -/
def operandsInRange (i : Instr) (s : State) : Bool :=
  i.wellFormed s.cfg &&
    match i with
    | .nget _ id => decide (id.toNat < s.nnodes)
    | .pget index => decide (index.toNat < s.pbytes)
    | .nop | .rst | .rdcsr _ | .fset _ _ | .fget _ | .build | .derive | .clen _ | .cbits _ _
    | .enc _ | .pput _ | .plen _ | .dstep | .drun => true

/-- The causes a command may raise (60_exceptions.md R222). -/
def mayRaise : Instr → List Cause
  | .nop => []
  | .rst => []
  | .rdcsr _ => [.illegal]
  | .fset _ _ => [.illegal, .sequence]
  | .fget _ => [.illegal]
  | .build => [.sequence]
  | .nget _ _ => [.illegal]
  | .derive => [.sequence]
  | .clen _ => [.illegal, .sequence]
  | .cbits _ _ => [.illegal, .sequence]
  | .enc _ => [.illegal, .sequence, .missingCode, .capacity]
  | .pget _ => [.illegal]
  | .pput _ => [.sequence, .capacity]
  | .plen _ => [.sequence]
  | .dstep => [.sequence, .malformed]
  | .drun => [.sequence, .malformed]

/-- The state `t` is `s` with this fault recorded and answered, and nothing else changed. -/
def RaisedFrom (s t : State) (c : Cause) (info : Word) : Prop :=
  t = { s with fault := true, cause := c, finfo := info, resp := some (mkResponse c.code info) }

/-! ### The tree -/

/-- The path of a node, from the root downward: 0 to the left child, 1 to the right (R141). -/
inductive PathTo (s : State) : Nat → List Bool → Prop where
  | root : s.rootv = true → PathTo s s.root []
  | left {k : Nat} {p : List Bool} {n : Node} : PathTo s k p → s.nodeAt k = some n →
      n.kind = .internal → PathTo s n.l (p ++ [false])
  | right {k : Nat} {p : List Bool} {n : Node} : PathTo s k p → s.nodeAt k = some n →
      n.kind = .internal → PathTo s n.r (p ++ [true])

/-- Node `i` is a child of the internal node `k`. -/
def ChildOf (s : State) (i k : Nat) : Prop :=
  ∃ n, s.nodeAt k = some n ∧ n.kind = .internal ∧ (n.l = i ∨ n.r = i)

/-- The facts of 41_tree_builder.md R128 about `NODE[0 .. NNODES−1]`, items 1 to 5. -/
structure TreeFacts (s : State) : Prop where
  /-- item 1: `NLEAF = N` -/
  leaves : s.nleaf = s.present.length
  /-- item 1: `NNODES = 2N − 1`, 0 when N = 0 -/
  nodes : s.nnodes = 2 * s.nleaf - 1
  /-- item 2: leaf i holds the i-th present symbol and its count -/
  leaf : ∀ i (h : i < s.present.length), s.nodeAt i = some
    { lv := false, rv := false, l := 0, r := 0, sym := BitVec.ofNat 16 s.present[i],
      w := (s.count s.present[i]).toNat }
  /-- item 3: an internal node has two distinct children of lesser id and the sum of their weights -/
  internal : ∀ k, s.nleaf ≤ k → k < s.nnodes → ∃ l r nl nr, s.nodeAt l = some nl ∧
    s.nodeAt r = some nr ∧ l < k ∧ r < k ∧ l ≠ r ∧ s.nodeAt k = some
      { lv := true, rv := true, l := l, r := r, sym := 0, w := nl.w + nr.w }
  /-- item 4: there is a root iff N ≥ 1, and it is the last node -/
  root : s.rootv = decide (1 ≤ s.nleaf) ∧ s.root = s.nnodes - 1
  /-- item 4: every other node is the child of exactly one internal node -/
  parent : ∀ i, i + 1 < s.nnodes → ∃! k, k < s.nnodes ∧ ChildOf s i k
  /-- item 5: the root's weight is the sum of all counts -/
  total : s.rootv = true → ∃ n, s.nodeAt s.root = some n ∧ n.w = s.totalCount

/-- Node `i` is in the queue when the internal node `k` is made: it exists and is no child yet. -/
def LiveAt (s : State) (k i : Nat) : Prop := i < k ∧ ∀ k', k' < k → ¬ ChildOf s i k'

/-- The key of one node is less than the key of another: `(W, id)` lexicographically (R122). -/
def KeyLess (s : State) (i j : Nat) : Prop :=
  ∃ ni nj, s.nodeAt i = some ni ∧ s.nodeAt j = some nj ∧ (ni.w < nj.w ∨ (ni.w = nj.w ∧ i < j))

/-- Every internal node joins the two nodes of least key among those in the queue when it is made, the
least one as its left child (R122, R123, R125). -/
def GreedyTree (s : State) : Prop :=
  ∀ k, s.nleaf ≤ k → k < s.nnodes → ∃ n, s.nodeAt k = some n ∧
    LiveAt s k n.l ∧ LiveAt s k n.r ∧ KeyLess s n.l n.r ∧
    ∀ j, LiveAt s k j → j ≠ n.l → j ≠ n.r → KeyLess s n.r j

/-- Some TB_MERGEs one after another, each on a queue of two or more (`while |Q| ≥ 2: TB_MERGE`, R125). -/
inductive MergesTo : State → List Nat → State → List Nat → Prop where
  | none (s : State) (q : List Nat) : MergesTo s q s q
  | more {s t u : State} {q q' q'' : List Nat} : 2 ≤ q.length → tbMerge s q = .ok (t, q') →
      MergesTo t q' u q'' → MergesTo s q u q''

/-- The entry of a symbol is the code of this path (R87, R89, R142). -/
def EntryOfPath (e : CodeEntry) (p : List Bool) : Prop :=
  e.v = true ∧ e.len = p.length ∧ ∀ j, e.bits.testBit j = p.getD j false

/-- What DERIVE leaves in `CODE` (42_code_deriver.md R142): a code for exactly the symbols with a count,
the single bit 0 when there is one of them, else the path of the symbol's leaf. -/
structure CodeFacts (s : State) : Prop where
  absent : ∀ x, x < s.cfg.nsym → s.count x = 0 →
    s.codeAt x = some { v := false, len := 0, bits := 0 }
  single : ∀ x, x < s.cfg.nsym → s.count x ≠ 0 → s.nleaf = 1 →
    s.codeAt x = some { v := true, len := 1, bits := 0 }
  path : ∀ x, x < s.cfg.nsym → s.count x ≠ 0 → 2 ≤ s.nleaf →
    ∃ i n p e, s.nodeAt i = some n ∧ n.kind = .leaf ∧ n.sym.toNat = x ∧ PathTo s i p ∧
      s.codeAt x = some e ∧ EntryOfPath e p

/-! ### The invariant -/

/-- The tables' canonical forms, and which of their entries hold a value (R26, R29, R35, R67). -/
structure TablesWf (s : State) : Prop where
  freq : freqWf s.freq
  freqRange : ∀ e ∈ s.freq, e.1 < s.cfg.nsym ∧ e.2.toNat < 2 ^ s.cfg.cw
  node : Table.wf s.node
  nodeWritten : ∀ i, (s.nodeAt i).isSome = true ↔ i < s.nnodes
  code : Table.wf s.code
  codeWritten : ∀ x, (s.codeAt x).isSome = true ↔ s.phase = .coded ∧ x < s.cfg.nsym
  pay : Memory.wf s.pay
  payWritten : ∀ q, (s.byteAt q).isSome = true ↔ q < s.pbytes

/-- Item 5 of 10_state.md R41, with 43_encoder.md R162: the payload registers. -/
structure PayloadFacts (s : State) : Prop where
  capacity : s.pbytes ≤ s.cfg.pcap
  unowned : s.pmode = .none → s.bitlen = 0 ∧ s.pbytes = 0
  encoded : s.pmode = .enc → s.phase = .coded ∧ s.pbytes = (s.bitlen + 7) / 8 ∧
    s.bitlen ≤ 8 * s.cfg.pcap
  padding : s.pmode = .enc → ∀ p, s.bitlen ≤ p → p < 8 * s.pbytes → s.payBit p = some false

/-- Item 6 of 10_state.md R41 and 44_decoder.md R187: the decoder's registers. -/
structure CursorFacts (s : State) : Prop where
  cursor : s.rootv = true → s.cur < s.nnodes ∧
    (s.cur = s.root ∨ ∃ n, s.nodeAt s.cur = some n ∧ n.kind = .internal)
  noTree : s.rootv = false → s.root = 0 ∧ s.cur = 0 ∧ s.rpos = 0 ∧ s.out = []
  emitted : ∀ x ∈ s.out, x.toNat < s.cfg.nsym

/-- Item 7 of 10_state.md R41: the fault registers. -/
structure FaultFacts (s : State) : Prop where
  clear : s.fault = false → s.cause = .none ∧ s.finfo = 0
  latched : s.fault = true → s.cause ∈ [Cause.missingCode, .malformed, .capacity, .sequence, .illegal]

/-- The invariant of the machine, 10_state.md R41 (its item 1 holds by the types of `PHASE` and
`PMODE`), with the parameters legal and `BITLEN` and `RPOS` within their 32 bits. -/
structure Inv (s : State) : Prop where
  legal : s.cfg.Legal
  tables : TablesWf s
  load : s.phase = .load → s.nleaf = 0 ∧ s.nnodes = 0 ∧ s.rootv = false ∧ s.root = 0 ∧ s.cur = 0 ∧
    s.rpos = 0 ∧ s.out = []
  tree : s.phase ≠ .load → TreeFacts s
  codes : s.phase = .coded → CodeFacts s
  payload : PayloadFacts s
  cursor : CursorFacts s
  faults : FaultFacts s
  bitlenWidth : s.bitlen < 2 ^ 32
  rposWidth : s.rpos < 2 ^ 32

/-- Every register and every table field is within the width of 10_state.md R22, R36, R37. -/
structure FitsWidths (s : State) : Prop where
  idRegisters : s.nleaf < 2 ^ s.cfg.idw ∧ s.nnodes < 2 ^ s.cfg.idw ∧ s.root < 2 ^ s.cfg.idw ∧
    s.cur < 2 ^ s.cfg.idw
  wordRegisters : s.bitlen < 2 ^ 32 ∧ s.pbytes < 2 ^ 32 ∧ s.rpos < 2 ^ 32
  counts : ∀ x, (s.count x).toNat < 2 ^ s.cfg.cw
  nodes : ∀ i n, s.nodeAt i = some n → i < s.cfg.maxNodes ∧ n.l < 2 ^ s.cfg.idw ∧
    n.r < 2 ^ s.cfg.idw ∧ n.sym.toNat < 2 ^ s.cfg.symw.bits ∧ n.w < 2 ^ s.cfg.nw
  codes : ∀ x e, s.codeAt x = some e → e.len ≤ s.cfg.maxLen ∧ e.len < 2 ^ s.cfg.lenw ∧
    e.bits < 2 ^ (32 * s.cfg.codeWords)

/-- The payload is the encoding of a text, written by ENC alone, and the decoder has given out its
first symbols and stands inside the code of the next one (43_encoder.md R160, 44_decoder.md R189). -/
def EncodedText (s : State) (done rest : List Symbol) (path : List Bool) : Prop :=
  s.pmode ≠ .host ∧ (∀ x ∈ done ++ rest, s.HasCode x) ∧ s.HoldsBits (s.encoding (done ++ rest)) ∧
  s.out = done ∧ s.rpos = (s.encoding done).length + path.length ∧
  ((path = [] ∧ s.cur = s.root) ∨
    (PathTo s s.cur path ∧ ∃ x more tail, rest = x :: more ∧ tail ≠ [] ∧ s.codeBits x = path ++ tail))

/-- The payload is the encoding of some text, and the decoder is somewhere in it, unless the host has
loaded the payload. -/
def DecodesItsOwn (s : State) : Prop :=
  s.pmode ≠ .host → ∃ done rest path, EncodedText s done rest path

/-! ### Several DSTEPs -/

/-- The command went well and did not reach the end of the stream: neither a fault nor `END`. -/
def wentOn (t : State) : Prop := t.fault = false ∧ t.resp ≠ some (okResponse 0x00020000)

/-- `k` successive DSTEPs, none of which faults or reaches the end of the stream. -/
inductive DstepsTo : Nat → State → State → Prop where
  | none (s : State) : DstepsTo 0 s s
  | more {k : Nat} {s t u : State} : DstepsTo k s t → exec .dstep t = .next u → wentOn u →
      DstepsTo (k + 1) s u

end Sys2Proof.Machine
end

