-- ==== Sys2Proof/Certificates/Slice0/Obligations.lean ====
section
/-! DEFINITION. The statements for the provers. Each docstring names the rule of spec/ it formalises.
The frame of a command is written as an equation `t = { s with ... }`: every field that is not named
there is unchanged. -/

open Sys2Proof Sys2Proof.Machine

/-! ### Encoding -/

/-- Every command decodes back from its word, with every operand at every value (R80, R81, R82). -/
def Obligations.DecodeOfEncode : Prop := ∀ i : Instr, decode (encode i) = .ok i

/-- R81: a word decodes to the command whose opcode and operand fields it holds, with `Z` and every
unused field 0, and to nothing else; that is the row of the opcode map it matches; at most one row
matches; any other word raises `E_ILLEGAL` with `FINFO = w[63:32]`; while a fault is latched it answers
with the latched values and changes nothing else (R223). -/
def Obligations.DecodeFollowsTheOpcodeMap : Prop :=
  (∀ (w : CmdWord) (i : Instr), decode w = .ok i ↔
    w.extractLsb' 56 8 = i.opcode ∧ w.extractLsb' 48 8 = 0 ∧ w.extractLsb' 32 16 = i.operandA ∧
      w.extractLsb' 0 32 = i.operandB) ∧
  (∀ (w : CmdWord) (m : String), (∃ i, decode w = .ok i ∧ i.mnemonic = m) ↔
    ∃ r ∈ opcodeRows, r.mnemonic = m ∧ w &&& r.mask = r.pattern) ∧
  (∀ (w : CmdWord), ∀ r ∈ opcodeRows, ∀ r' ∈ opcodeRows,
    w &&& r.mask = r.pattern → w &&& r'.mask = r'.pattern → r = r') ∧
  (∀ (s : State) (w : CmdWord) (rest : List HostInput), s.inputs = .command w :: rest →
    (∀ i, decode w ≠ .ok i) → s.fault = false →
    ∃ t, step s = .next t ∧ RaisedFrom { s with inputs := rest } t .illegal (w.extractLsb' 32 32)) ∧
  (∀ (s : State) (w : CmdWord) (rest : List HostInput), s.inputs = .command w :: rest →
    (∀ i, decode w ≠ .ok i) → s.fault = true →
    step s = .next { s with inputs := rest, resp := some (s.cause.code ++ 0#4 ++ s.finfo) })

/-- R85: a word with an unassigned `OP`, with `Z ≠ 0` or with a non-zero operand field its opcode does
not use is illegal and raises `E_ILLEGAL`; none of them is a no-op. -/
def Obligations.ReservedEncodingsRaiseIllegal : Prop :=
  ∀ (s : State) (w : CmdWord) (rest : List HostInput), s.inputs = .command w :: rest →
    s.fault = false →
    (((w.extractLsb' 56 8).toNat ∉ [0x00, 0x01, 0x02, 0x10, 0x11, 0x20, 0x21, 0x30, 0x31, 0x32, 0x40,
        0x41, 0x50, 0x51, 0x52, 0x53]) ∨
      w.extractLsb' 48 8 ≠ 0 ∨
      ((w.extractLsb' 56 8).toNat ∈ [0x00, 0x01, 0x20, 0x30, 0x52, 0x53] ∧
        (w.extractLsb' 32 16 ≠ 0 ∨ w.extractLsb' 0 32 ≠ 0)) ∨
      ((w.extractLsb' 56 8).toNat ∈ [0x02, 0x11, 0x31, 0x40] ∧ w.extractLsb' 0 32 ≠ 0) ∨
      ((w.extractLsb' 56 8).toNat ∈ [0x41, 0x51] ∧ w.extractLsb' 32 16 ≠ 0) ∨
      ((w.extractLsb' 56 8).toNat = 0x50 ∧
        (w.extractLsb' 40 8 ≠ 0 ∨ w.extractLsb' 0 32 ≠ 0))) →
    ∃ t, step s = .next t ∧ RaisedFrom { s with inputs := rest } t .illegal (w.extractLsb' 32 32)

/-- R93's example words, and three more of 95_test_vectors.md, decode to the commands they stand for. -/
def Obligations.WordsOfTheSpecDecode : Prop :=
  decode 0x1000006100000004 = .ok (.fset 0x61 4) ∧ decode 0x4000006100000000 = .ok (.enc 0x61) ∧
  decode 0x2100000400000006 = .ok (.nget 4 6) ∧ decode 0x500000AF00000000 = .ok (.pput 0xAF) ∧
  decode 0x510000000000000C = .ok (.plen 12) ∧ decode 0x0200000B00000000 = .ok (.rdcsr 11) ∧
  decode 0x3200006400000000 = .ok (.cbits 0x64 0) ∧ decode 0x4100000000000001 = .ok (.pget 1)

/-- R92, R93: the assembler's example lines assemble to the words the spec gives. -/
def Obligations.AssemblerGivesTheSpecWords : Prop :=
  (assemble "FSET 'a', 4").map (·.map encode) = some [0x1000006100000004] ∧
  (assemble "ENC 'a'").map (·.map encode) = some [0x4000006100000000] ∧
  (assemble "NGET WLO, 6").map (·.map encode) = some [0x2100000400000006] ∧
  (assemble "PPUT 0xAF").map (·.map encode) = some [0x500000AF00000000] ∧
  (assemble "PLEN 12").map (·.map encode) = some [0x510000000000000C]

/-! ### The step -/

/-- When the host's oldest input is a word that decodes to `i`, a step is `i` performed in the state
with that input taken (R10; that inputs wait in a list is the model's choice, log 2). -/
def Obligations.StepRunsTheDecodedCommand : Prop :=
  ∀ (s : State) (w : CmdWord) (rest : List HostInput) (i : Instr), s.inputs = .command w :: rest →
    decode w = .ok i → step s = exec i { s with inputs := rest }

/-- The model's choice (log 2): with nothing issued a step changes nothing. -/
def Obligations.StepWaitsForTheHost : Prop := ∀ s : State, s.inputs = [] → step s = .next s

/-- R250, R101: the RST command, the hardware reset between two commands and the hardware reset while a
command runs leave the same state, every piece of it at its value of R42; RST alone answers, with 0. The
parameters and what the host has still to say stay, unwritten entries hold no value and a hardware reset
leaves no response: these are the model's choices (log 1, 2, 3, 4). -/
def Obligations.EveryResetGivesTheResetState : Prop :=
  encode .rst = 0x0100000000000000 ∧
  ∀ s : State, ∃ z : State,
    (z.phase = .load ∧ z.fault = false ∧ z.cause = .none ∧ z.finfo = 0 ∧ z.pmode = .none ∧
      z.nleaf = 0 ∧ z.nnodes = 0 ∧ z.rootv = false ∧ z.root = 0 ∧ z.bitlen = 0 ∧ z.pbytes = 0 ∧
      z.rpos = 0 ∧ z.cur = 0 ∧ (∀ x, z.count x = 0) ∧ (∀ i, z.nodeAt i = none) ∧
      (∀ x, z.codeAt x = none) ∧ (∀ q, z.byteAt q = none) ∧ z.out = [] ∧ z.status = 0x00000040 ∧
      z.cfg = s.cfg ∧ z.resp = none) ∧
    exec .rst s = .next { z with inputs := s.inputs, resp := some (okResponse 0) } ∧
    (∀ rest, s.inputs = .reset :: rest → step s = .next { z with inputs := rest }) ∧
    (∀ w rest, s.inputs = .resetDuring w :: rest → step s = .next { z with inputs := rest })

/-- Every command ends with one response: `ERR = 0`, or `ERR` and `DATA` are the latched `CAUSE` and
`FINFO` (R83). -/
def Obligations.EveryCommandAnswers : Prop :=
  ∀ (i : Instr) (s t : State), exec i s = .next t → ∃ err data,
    t.resp = some (err ++ 0#4 ++ data) ∧
    (err = 0 ∨ (t.fault = true ∧ err = t.cause.code ∧ data = t.finfo))

/-- No command of the model ends in a refusal of the model's, and none touches the parameters or what the
host has still to say (both are the model's fields, log 1, 2). -/
def Obligations.CommandsLeaveTheHostAlone : Prop :=
  ∀ (i : Instr) (s : State), (∀ r, exec i s ≠ .refused r) ∧
    ∀ t, exec i s = .next t → t.cfg = s.cfg ∧ t.inputs = s.inputs

/-! ### Faults -/

/-- R221: the first fault is recorded, a later one is not, and both answer with the latched values;
nothing else changes. -/
def Obligations.RaiseLatchesTheFirstFault : Prop :=
  ∀ (s : State) (c : Cause) (info : Word),
    (s.fault = false → s.raise c info = { s with fault := true, cause := c, finfo := info, resp := some (c.code ++ 0#4 ++ info) }) ∧
    (s.fault = true → s.raise c info = { s with resp := some (s.cause.code ++ 0#4 ++ s.finfo) })

/-- R224, R223, R225: while a fault is latched, the state-changing commands are refused with the latched
values; a reading command that would fault (an operand out of range, CLEN or CBITS outside CODED) answers
with them too; and every command but RST changes nothing but the response. -/
def Obligations.LatchedFaultFreezesTheState : Prop :=
  ∀ (i : Instr) (s : State), s.fault = true →
    (changesState i = true →
      exec i s = .next { s with resp := some (s.cause.code ++ 0#4 ++ s.finfo) }) ∧
    (operandsInRange i s = false ∨ phaseLegal i s.phase = false →
      exec i s = .next { s with resp := some (s.cause.code ++ 0#4 ++ s.finfo) }) ∧
    (i ≠ .rst → ∀ t, exec i s = .next t → t = { s with resp := t.resp })

/-- R223: a latched cause and its information stay, step after step, until a reset or RST; a later raise
answers with the latched values and writes nothing. -/
def Obligations.LatchedFaultStaysUntilReset : Prop :=
  ∀ (s t : State), s.fault = true → step s = .next t →
    (∀ c info, s.raise c info = { s with resp := some (s.cause.code ++ 0#4 ++ s.finfo) }) ∧
    ((t.fault = true ∧ t.cause = s.cause ∧ t.finfo = s.finfo) ∨
    ∃ rest, s.inputs = .reset :: rest ∨ (∃ w, s.inputs = .resetDuring w :: rest) ∨
      ∃ w, s.inputs = .command w :: rest ∧ decode w = .ok .rst)

/-- R226: a command that faults has changed nothing but the fault registers and the response; DRUN
outside LOAD leaves exactly what some DSTEPs that go on, followed by the faulting one, leave. -/
def Obligations.FaultsArePrecise : Prop :=
  ∀ (i : Instr) (s t : State), s.fault = false → exec i s = .next t → t.fault = true →
    (i ≠ .drun → RaisedFrom s t t.cause t.finfo) ∧
    (i = .drun → s.phase = .load → RaisedFrom s t t.cause t.finfo) ∧
    (i = .drun → s.phase ≠ .load → ∃ k u, DstepsTo k s u ∧ exec .dstep u = .next t)

/-- R222: a command raises only the causes the table of R222 lists for it (so never the reserved codes
3 and 4, R232). -/
def Obligations.CommandsRaiseOnlyTheirFaults : Prop :=
  ∀ (i : Instr) (s t : State), s.fault = false → exec i s = .next t → t.fault = true →
    t.cause ∈ mayRaise i

/-- R84: an operand out of range raises `E_ILLEGAL` with `FINFO = w[63:32]`, whatever the phase, after
the refusal while a fault is latched and before the phase check. -/
def Obligations.OperandOutOfRangeRaisesIllegal : Prop :=
  ∀ (i : Instr) (s : State), operandsInRange i s = false →
    (s.fault = false → ∃ t, exec i s = .next t ∧
      RaisedFrom s t .illegal (i.opcode ++ 0#8 ++ i.operandA)) ∧
    (s.fault = true → exec i s = .next { s with resp := some (s.cause.code ++ 0#4 ++ s.finfo) })

/-- R23, R25: a command with operands in range that is not legal in this phase or with this owner of the
payload raises `E_SEQUENCE` with the opcode, `PMODE` and `PHASE`; one that is legal in both does not. -/
def Obligations.PhaseAndOwnerDecideLegality : Prop :=
  ∀ (i : Instr) (s : State), operandsInRange i s = true → s.fault = false →
    (phaseLegal i s.phase = false ∨ pmodeLegal i s.pmode = false → ∃ t, exec i s = .next t ∧
      RaisedFrom s t .sequence
        (i.opcode.setWidth 32 <<< 8 ||| s.pmode.code.setWidth 32 <<< 4 ||| s.phase.code.setWidth 32)) ∧
    (phaseLegal i s.phase = true ∧ pmodeLegal i s.pmode = true → ∀ t, exec i s = .next t →
      t.fault = true → t.cause ≠ .sequence)

/-- R23, R25, R26, R27, R28, R29, R30, R31, R35 to R39: which commands write which piece of state. -/
def Obligations.OnlyTheirCommandsWriteTheState : Prop :=
  ∀ (i : Instr) (s t : State), exec i s = .next t → i ≠ .rst →
    (t.phase ≠ s.phase → (i = .build ∧ s.phase = .load ∧ t.phase = .built) ∨
      (i = .derive ∧ s.phase = .built ∧ t.phase = .coded)) ∧
    (t.freq ≠ s.freq → s.phase = .load ∧ ∃ x c, i = .fset x c) ∧
    (t.node ≠ s.node ∨ t.nleaf ≠ s.nleaf ∨ t.nnodes ≠ s.nnodes ∨ t.rootv ≠ s.rootv ∨
      t.root ≠ s.root → i = .build ∧ s.phase = .load) ∧
    (t.code ≠ s.code → i = .derive ∧ s.phase = .built) ∧
    (t.pay ≠ s.pay ∨ t.pbytes ≠ s.pbytes → (∃ x, i = .enc x) ∨ ∃ b, i = .pput b) ∧
    (t.bitlen ≠ s.bitlen → (∃ x, i = .enc x) ∨ ∃ n, i = .plen n) ∧
    (t.pmode ≠ s.pmode → (t.pmode = .enc ∧ ∃ x, i = .enc x) ∨
      (t.pmode = .host ∧ ((∃ b, i = .pput b) ∨ ∃ n, i = .plen n))) ∧
    (t.rpos ≠ s.rpos ∨ t.out ≠ s.out → i = .dstep ∨ i = .drun) ∧
    (t.cur ≠ s.cur → i = .build ∨ i = .dstep ∨ i = .drun) ∧
    (s.out <+: t.out ∧ s.rpos ≤ t.rpos)

/-- R64: the reading commands change nothing but the response, unless they fault. -/
def Obligations.ReadsHaveNoSideEffect : Prop :=
  ∀ (i : Instr) (s t : State), changesState i = false → i ≠ .rst → exec i s = .next t →
    t = { s with resp := t.resp } ∨ RaisedFrom s t t.cause t.finfo

/-! ### Control commands and the frequency table -/

/-- R100: NOP does nothing and answers `ok(0)`, in every state. -/
def Obligations.NopDoesNothing : Prop :=
  encode .nop = 0 ∧
  ∀ s : State, exec .nop s = .next { s with resp := some (0#4 ++ 0#4 ++ 0#32) }

/-- R102, R34: RDCSR answers the register, zero-extended, in every state; a number above 11 raises
`E_ILLEGAL`. -/
def Obligations.RdcsrReadsTheRegister : Prop :=
  (∀ n, encode (.rdcsr n) = 0x0200#16 ++ n ++ 0#32) ∧
  ∀ s : State,
    (∃ v, exec (.rdcsr 0) s = .next { s with resp := some (okResponse v) } ∧
      v = 0#8 ++ 1#8 ++ BitVec.ofNat 8 s.cfg.cw ++ BitVec.ofNat 8 s.cfg.symw.bits) ∧
    exec (.rdcsr 1) s = .next { s with resp := some (okResponse (BitVec.ofNat 32 s.cfg.pcap)) } ∧
    exec (.rdcsr 2) s = .next { s with resp := some (okResponse s.status) } ∧
    exec (.rdcsr 3) s = .next { s with resp := some (okResponse (s.cause.code.setWidth 32)) } ∧
    exec (.rdcsr 4) s = .next { s with resp := some (okResponse s.finfo) } ∧
    exec (.rdcsr 5) s = .next { s with resp := some (okResponse (BitVec.ofNat 32 s.nleaf)) } ∧
    exec (.rdcsr 6) s = .next { s with resp := some (okResponse (BitVec.ofNat 32 s.nnodes)) } ∧
    exec (.rdcsr 7) s = .next { s with resp := some (okResponse (BitVec.ofNat 32 s.root)) } ∧
    exec (.rdcsr 8) s = .next { s with resp := some (okResponse (BitVec.ofNat 32 s.bitlen)) } ∧
    exec (.rdcsr 9) s = .next { s with resp := some (okResponse (BitVec.ofNat 32 s.pbytes)) } ∧
    exec (.rdcsr 10) s = .next { s with resp := some (okResponse (BitVec.ofNat 32 s.rpos)) } ∧
    exec (.rdcsr 11) s = .next { s with resp := some (okResponse (BitVec.ofNat 32 s.cur)) } ∧
    (∀ n : BitVec 16, 11 < n.toNat → s.fault = false → ∃ t, exec (.rdcsr n) s = .next t ∧
      RaisedFrom s t .illegal (0x02#8 ++ 0#8 ++ n))

/-- R32: the fields of `STATUS`; `DEND` is 1 iff every payload bit is consumed and the cursor is between
symbols; bits 31:7 read 0. -/
def Obligations.StatusCollectsTheFlags : Prop :=
  ∀ s : State, s.status.extractLsb' 0 2 = s.phase.code ∧ s.status.getLsbD 2 = s.fault ∧
    s.status.getLsbD 3 = s.rootv ∧ s.status.extractLsb' 4 2 = s.pmode.code ∧
    (s.status.getLsbD 6 = true ↔ s.rpos ≥ s.bitlen ∧ (s.rootv = false ∨ s.cur = s.root)) ∧
    s.status.extractLsb' 7 25 = 0

/-- R33: `CFG` and `PCAPR` hold the parameters and the version; the defaults read `0x00012008` and
`0x00010000`. -/
def Obligations.CfgHoldsTheParameters : Prop :=
  (∀ s : State, s.cfg.Legal → (s.cfgWord.extractLsb' 0 8).toNat = s.cfg.symw.bits ∧
    (s.cfgWord.extractLsb' 8 8).toNat = s.cfg.cw ∧ s.cfgWord.extractLsb' 16 8 = 1 ∧
    s.cfgWord.extractLsb' 24 8 = 0 ∧ s.pcapWord.toNat = s.cfg.pcap) ∧
  State.reset.cfgWord = 0x00012008 ∧ State.reset.pcapWord = 0x00010000

/-- R103: FSET writes one entry of the table in phase LOAD, every other entry keeping its value; its
faults in order. -/
def Obligations.FsetWritesOneCount : Prop :=
  (∀ x c, encode (.fset x c) = 0x1000#16 ++ x ++ c) ∧
  ∀ (s : State) (x : Symbol) (c : Count), s.fault = false →
    (x.toNat < s.cfg.nsym ∧ c.toNat < 2 ^ s.cfg.cw → s.phase = .load →
      ∃ t, exec (.fset x c) s = .next t ∧ t = { s with freq := t.freq, resp := some (okResponse 0) } ∧
        ∀ y, t.count y = if y = x.toNat then c else s.count y) ∧
    (x.toNat ≥ s.cfg.nsym ∨ c.toNat ≥ 2 ^ s.cfg.cw → ∃ t, exec (.fset x c) s = .next t ∧
      RaisedFrom s t .illegal (0x10#8 ++ 0#8 ++ x)) ∧
    (x.toNat < s.cfg.nsym ∧ c.toNat < 2 ^ s.cfg.cw → s.phase ≠ .load →
      ∃ t, exec (.fset x c) s = .next t ∧
        RaisedFrom s t .sequence (0#16 ++ 0x10#8 ++ 0#2 ++ s.pmode.code ++ 0#2 ++ s.phase.code))

/-- R104: FGET answers the count of a symbol, in every state; a symbol out of range raises. -/
def Obligations.FgetReadsOneCount : Prop :=
  (∀ x, encode (.fget x) = 0x1100#16 ++ x ++ 0#32) ∧
  ∀ (s : State) (x : Symbol),
    (x.toNat < s.cfg.nsym →
      exec (.fget x) s = .next { s with resp := some (okResponse (s.count x.toNat)) }) ∧
    (x.toNat ≥ s.cfg.nsym → s.fault = false → ∃ t, exec (.fget x) s = .next t ∧
      RaisedFrom s t .illegal (0x11#8 ++ 0#8 ++ x))

/-! ### The tree builder -/

/-- R121: TB_INIT writes one leaf per symbol with a count, in ascending symbol value, and its queue
holds their ids. -/
def Obligations.TbInitMakesTheLeaves : Prop :=
  ∀ s : State, ∃ t, tbInit s = (t, List.range s.present.length) ∧
    t = { s with node := t.node, nleaf := s.present.length, nnodes := s.present.length } ∧
    (∀ i (h : i < s.present.length), t.nodeAt i = some
      { lv := false, rv := false, l := 0, r := 0, sym := BitVec.ofNat 16 s.present[i],
        w := (s.count s.present[i]).toNat }) ∧
    ∀ i, s.present.length ≤ i → t.nodeAt i = s.nodeAt i

/-- R122: PQ_MIN removes and returns the id of least key `(NODE[i].W, i)`. -/
def Obligations.PqMinTakesTheLeastKey : Prop :=
  ∀ (s : State) (q : List Nat), q ≠ [] → q.Nodup → (∀ i ∈ q, (s.nodeAt i).isSome = true) →
    ∃ m, m ∈ q ∧ pqMin s q = .ok (m, q.erase m) ∧ ∀ j ∈ q, j ≠ m → KeyLess s m j

/-- R123: TB_MERGE makes the node `NNODES` over the two ids of least key, the least one left, with the
sum of their weights, and puts it in the queue in their place. -/
def Obligations.TbMergeJoinsTheTwoLeast : Prop :=
  ∀ (s : State) (q : List Nat), 2 ≤ q.length → q.Nodup → (∀ i ∈ q, i < s.nnodes) →
    (∀ i ∈ q, (s.nodeAt i).isSome = true) →
    ∃ a b na nb t q', tbMerge s q = .ok (t, q') ∧ a ∈ q ∧ b ∈ q ∧ KeyLess s a b ∧
      (∀ j ∈ q, j ≠ a → j ≠ b → KeyLess s b j) ∧ s.nodeAt a = some na ∧ s.nodeAt b = some nb ∧
      t = { s with node := t.node, nnodes := s.nnodes + 1 } ∧
      t.nodeAt s.nnodes = some
        { lv := true, rv := true, l := a, r := b, sym := 0, w := na.w + nb.w } ∧
      (∀ i, i ≠ s.nnodes → t.nodeAt i = s.nodeAt i) ∧
      (∀ i, i ∈ q' ↔ i = s.nnodes ∨ (i ∈ q ∧ i ≠ a ∧ i ≠ b)) ∧ q'.length + 1 = q.length

/-- R125, R128, R207: in phase LOAD BUILD completes on every table and leaves the tree of R128, the
cursor on its root and N as the answer; it touches nothing else; in another phase it raises. -/
def Obligations.BuildMakesTheTree : Prop :=
  encode .build = 0x2000000000000000 ∧
  ∀ s : State, s.fault = false →
    (s.phase = .load → ∃ t, exec .build s = .next t ∧ TreeFacts t ∧ t.cur = t.root ∧
      t.phase = .built ∧ t.resp = some (okResponse (BitVec.ofNat 32 s.present.length)) ∧
      t = { s with node := t.node, nleaf := t.nleaf, nnodes := t.nnodes, rootv := t.rootv, root := t.root, cur := t.cur, phase := t.phase, resp := t.resp }) ∧
    (s.phase ≠ .load → ∃ t, exec .build s = .next t ∧
      RaisedFrom s t .sequence (0#16 ++ 0x20#8 ++ 0#2 ++ s.pmode.code ++ 0#2 ++ s.phase.code))

/-- R125 with R122 and R123: every internal node that BUILD makes joins the two nodes of least key
among those not yet merged, the least one as its left child. -/
def Obligations.BuildIsGreedy : Prop :=
  ∀ s : State, s.fault = false → s.phase = .load → ∃ t, exec .build s = .next t ∧ GreedyTree t

/-- R124, R125: BUILD is TB_INIT, then TB_MERGE as long as two ids or more are in the queue, then
TB_FINISH: the one id left is the root and the cursor, or there is none. -/
def Obligations.BuildRunsItsMicroOperations : Prop :=
  ∀ s : State, s.fault = false → s.phase = .load → ∃ s1 q1 s2 q2 u, tbInit s = (s1, q1) ∧
    MergesTo s1 q1 s2 q2 ∧ q2.length ≤ 1 ∧ tbFinish s2 q2 = .ok u ∧
    (∀ r, q2 = [r] → u = { s2 with rootv := true, root := r, cur := r }) ∧
    (q2 = [] → u = { s2 with rootv := false, root := 0, cur := 0 }) ∧
    exec .build s = .next { u with phase := .built, resp := some (okResponse (BitVec.ofNat 32 u.nleaf)) }

/-- R126, R127: BUILD on a table with no symbol gives no tree; on a table with one symbol, one leaf that
is the root. -/
def Obligations.BuildEdgeCases : Prop :=
  ∀ s : State, s.fault = false → s.phase = .load →
    ((∀ x, x < s.cfg.nsym → s.count x = 0) → ∃ t, exec .build s = .next t ∧ t.nleaf = 0 ∧
      t.nnodes = 0 ∧ t.rootv = false ∧ t.root = 0 ∧ t.cur = 0 ∧ t.phase = .built ∧
      t.node = s.node ∧ t.resp = some (okResponse 0)) ∧
    (∀ x, x < s.cfg.nsym → s.count x ≠ 0 → (∀ y, y < s.cfg.nsym → y ≠ x → s.count y = 0) →
      ∃ t, exec .build s = .next t ∧ t.nleaf = 1 ∧ t.nnodes = 1 ∧ t.rootv = true ∧ t.root = 0 ∧
        t.cur = 0 ∧ t.phase = .built ∧ t.resp = some (okResponse 1) ∧
        t.nodeAt 0 = some { lv := false, rv := false, l := 0, r := 0, sym := BitVec.ofNat 16 x, w := (s.count x).toNat })

/-- R208, R205: the tree and the codes depend on the table alone: two instances with equal counts, alike
in nothing else, build equal arenas and derive equal codes. -/
def Obligations.TreeAndCodesDependOnTheTableAlone : Prop :=
  ∀ s s' : State, s.fault = false → s'.fault = false → s.phase = .load → s'.phase = .load →
    s.cfg.symw = s'.cfg.symw → (∀ x, x < s.cfg.nsym → s.count x = s'.count x) →
    ∃ t t' u u', exec .build s = .next t ∧ exec .build s' = .next t' ∧ exec .derive t = .next u ∧
      exec .derive t' = .next u' ∧ t.nleaf = t'.nleaf ∧ t.nnodes = t'.nnodes ∧ t.rootv = t'.rootv ∧
      t.root = t'.root ∧ (∀ i, i < t.nnodes → t.nodeAt i = t'.nodeAt i) ∧
      ∀ x, x < s.cfg.nsym → u.codeAt x = u'.codeAt x

/-- R129, R90: NGET answers one field of a node that exists, in every state; a selector above 5 or an id
not below `NNODES` raises `E_ILLEGAL`. What selector 5 (`WHI`) answers when `NW` is at most 32, where the
slice `W[NW−1:32]` is empty, is the model's deduction (log 14). -/
def Obligations.NgetReadsOneField : Prop :=
  (∀ a b, encode (.nget a b) = 0x2100#16 ++ a ++ b) ∧
  ∀ (s : State) (a : BitVec 16) (b : BitVec 32) (n : Node),
    (b.toNat < s.nnodes → s.nodeAt b.toNat = some n →
      (a = 0 → exec (.nget a b) s = .next { s with resp := some (okResponse ((if n.rv then 2 else 0) + (if n.lv then 1 else 0))) }) ∧
      (a = 1 → exec (.nget a b) s = .next { s with resp := some (okResponse (BitVec.ofNat 32 n.l)) }) ∧
      (a = 2 → exec (.nget a b) s = .next { s with resp := some (okResponse (BitVec.ofNat 32 n.r)) }) ∧
      (a = 3 → exec (.nget a b) s = .next { s with resp := some (okResponse (n.sym.setWidth 32)) }) ∧
      (a = 4 → exec (.nget a b) s = .next { s with resp := some (okResponse (BitVec.ofNat 32 (n.w % 2 ^ 32))) }) ∧
      (a = 5 → exec (.nget a b) s = .next { s with resp := some (okResponse (BitVec.ofNat 32 (n.w / 2 ^ 32))) })) ∧
    (5 < a.toNat ∨ s.nnodes ≤ b.toNat → s.fault = false → ∃ t, exec (.nget a b) s = .next t ∧
      RaisedFrom s t .illegal (0x21#8 ++ 0#8 ++ a))

/-! ### The code-table deriver -/

/-- R142, R145: in phase BUILT DERIVE completes on every tree and writes every entry of `CODE`: the path
of the symbol's leaf, or the single bit 0, or no code; it answers N and touches nothing else; in another
phase it raises. -/
def Obligations.DeriveWritesTheCodes : Prop :=
  encode .derive = 0x3000000000000000 ∧
  ∀ s : State, s.fault = false →
    (s.phase = .built → TreeFacts s → ∃ t, exec .derive s = .next t ∧ CodeFacts t ∧
      t = { s with code := t.code, phase := .coded, resp := some (okResponse (BitVec.ofNat 32 s.nleaf)) } ∧
      ((List.range s.cfg.nsym).filter fun x => (t.codeAt x).any (·.v)).length = s.nleaf) ∧
    (s.phase ≠ .built → ∃ t, exec .derive s = .next t ∧
      RaisedFrom s t .sequence (0#16 ++ 0x30#8 ++ 0#2 ++ s.pmode.code ++ 0#2 ++ s.phase.code))

/-- R141: in a built tree every node has exactly one path. -/
def Obligations.EveryNodeHasOnePath : Prop :=
  ∀ s : State, TreeFacts s → ∀ i, i < s.nnodes → ∃! p, PathTo s i p

/-- R149, R201: no code is a prefix of another. -/
def Obligations.CodesArePrefixFree : Prop :=
  ∀ s : State, TreeFacts s → CodeFacts s → ∀ x y : Symbol, x ≠ y → x.toNat < s.cfg.nsym →
    y.toNat < s.cfg.nsym → s.HasCode x → s.HasCode y → ¬ s.codeBits x <+: s.codeBits y

/-- R148: code lengths are bounded: `1 ≤ LEN ≤ N − 1` for N ≥ 2, 1 for N = 1, hence at most `MAXLEN` and
within `LENW` bits. -/
def Obligations.CodeLengthsAreBounded : Prop :=
  ∀ s : State, TreeFacts s → CodeFacts s → ∀ x e, x < s.cfg.nsym → s.codeAt x = some e → e.v = true →
    (2 ≤ s.nleaf → 1 ≤ e.len ∧ e.len ≤ s.nleaf - 1) ∧ (s.nleaf = 1 → e.len = 1) ∧
    e.len ≤ s.cfg.nsym - 1 ∧ e.len < 2 ^ s.cfg.lenw

/-- R202: after BUILD and DERIVE a symbol with a greater count has a code that is no longer. -/
def Obligations.MoreFrequentSymbolsHaveNoLongerCodes : Prop :=
  ∀ s : State, s.fault = false → s.phase = .load → ∃ t u, exec .build s = .next t ∧
    exec .derive t = .next u ∧ ∀ x y ex ey, x < s.cfg.nsym → y < s.cfg.nsym →
      (s.count y).toNat < (s.count x).toNat → 1 ≤ (s.count y).toNat → u.codeAt x = some ex →
      u.codeAt y = some ey → ex.len ≤ ey.len

/-- R146: CLEN answers `V` in bit 31 and `LEN` in bits 15:0, in phase CODED; its faults in order. -/
def Obligations.ClenReadsTheLength : Prop :=
  (∀ x, encode (.clen x) = 0x3100#16 ++ x ++ 0#32) ∧
  ∀ (s : State) (x : Symbol) (e : CodeEntry),
    (x.toNat < s.cfg.nsym → s.phase = .coded → s.codeAt x.toNat = some e → e.len < 2 ^ 16 →
      ∃ v : Word, exec (.clen x) s = .next { s with resp := some (okResponse v) } ∧
        v.getLsbD 31 = e.v ∧ (v.extractLsb' 0 16).toNat = e.len ∧ v.extractLsb' 16 15 = 0) ∧
    (x.toNat ≥ s.cfg.nsym → s.fault = false → ∃ t, exec (.clen x) s = .next t ∧
      RaisedFrom s t .illegal (0x31#8 ++ 0#8 ++ x)) ∧
    (x.toNat < s.cfg.nsym → s.phase ≠ .coded → s.fault = false → ∃ t, exec (.clen x) s = .next t ∧
      RaisedFrom s t .sequence (0#16 ++ 0x31#8 ++ 0#2 ++ s.pmode.code ++ 0#2 ++ s.phase.code))

/-- R147, R89: CBITS word k answers code bit 32k + j in `DATA[j]`, in phase CODED; its faults in order. -/
def Obligations.CbitsReadsOneWord : Prop :=
  (∀ x k, encode (.cbits x k) = 0x3200#16 ++ x ++ k) ∧
  ∀ (s : State) (x : Symbol) (k : BitVec 32) (e : CodeEntry),
    (x.toNat < s.cfg.nsym → k.toNat < s.cfg.codeWords → s.phase = .coded →
      s.codeAt x.toNat = some e →
      ∃ v : Word, exec (.cbits x k) s = .next { s with resp := some (okResponse v) } ∧
        ∀ j, j < 32 → v.getLsbD j = e.bits.testBit (32 * k.toNat + j)) ∧
    (x.toNat ≥ s.cfg.nsym ∨ k.toNat ≥ s.cfg.codeWords → s.fault = false →
      ∃ t, exec (.cbits x k) s = .next t ∧ RaisedFrom s t .illegal (0x32#8 ++ 0#8 ++ x)) ∧
    (x.toNat < s.cfg.nsym → k.toNat < s.cfg.codeWords → s.phase ≠ .coded → s.fault = false →
      ∃ t, exec (.cbits x k) s = .next t ∧
        RaisedFrom s t .sequence (0#16 ++ 0x32#8 ++ 0#2 ++ s.pmode.code ++ 0#2 ++ s.phase.code))

/-! ### The encoder -/

/-- R69, R61: PutBit puts its bit at position `BITLEN`, most significant bit first, leaves the bits
before it alone and zero pad bits after it; GetBit reads any bit of a byte that holds a value. -/
def Obligations.PutBitAppendsOneBit : Prop :=
  (∀ (s : State) (p : Nat) (b : Byte), s.byteAt (p / 8) = some b →
    s.getBit p = .ok (b.getLsbD (7 - p % 8))) ∧
  ∀ (s : State) (v : Bool),
    (s.bitlen % 8 ≠ 0 → ∃ b, s.byteAt (s.bitlen / 8) = some b ∧ ∀ j, j < 8 - s.bitlen % 8 → b.getLsbD j = false) →
    ∃ t, s.putBit v = .ok t ∧
      t = { s with pay := t.pay, bitlen := s.bitlen + 1, pbytes := if s.bitlen % 8 = 0 then s.bitlen / 8 + 1 else s.pbytes } ∧
      t.getBit s.bitlen = .ok v ∧ (∀ p, p < s.bitlen → t.payBit p = s.payBit p) ∧
      (∀ p, s.bitlen < p → p / 8 = s.bitlen / 8 → t.payBit p = some false) ∧
      ∀ q, q ≠ s.bitlen / 8 → t.byteAt q = s.byteAt q

/-- R161, R160: ENC appends the code of its symbol to the payload, first code bit first, and changes no
earlier bit and no other byte; its faults in order write nothing. -/
def Obligations.EncAppendsTheCode : Prop :=
  (∀ x, encode (.enc x) = 0x4000#16 ++ x ++ 0#32) ∧
  ∀ (s : State) (x : Symbol), Inv s → s.fault = false →
    (x.toNat ≥ s.cfg.nsym → ∃ t, exec (.enc x) s = .next t ∧
      RaisedFrom s t .illegal (0x40#8 ++ 0#8 ++ x)) ∧
    (x.toNat < s.cfg.nsym → s.phase ≠ .coded ∨ s.pmode = .host → ∃ t, exec (.enc x) s = .next t ∧
      RaisedFrom s t .sequence (0#16 ++ 0x40#8 ++ 0#2 ++ s.pmode.code ++ 0#2 ++ s.phase.code)) ∧
    (∀ e, x.toNat < s.cfg.nsym → s.phase = .coded → s.pmode ≠ .host → s.codeAt x.toNat = some e →
      (e.v = false → ∃ t, exec (.enc x) s = .next t ∧ RaisedFrom s t .missingCode (x.setWidth 32)) ∧
      (e.v = true → 8 * s.cfg.pcap < s.bitlen + e.len → ∃ t, exec (.enc x) s = .next t ∧
        RaisedFrom s t .capacity (BitVec.ofNat 32 s.bitlen)) ∧
      (e.v = true → s.bitlen + e.len ≤ 8 * s.cfg.pcap → ∃ t, exec (.enc x) s = .next t ∧
        t = { s with pay := t.pay, bitlen := s.bitlen + e.len, pbytes := (s.bitlen + e.len + 7) / 8, pmode := .enc, resp := some (okResponse (BitVec.ofNat 32 e.len)) } ∧
        (∀ p, p < s.bitlen → t.payBit p = s.payBit p) ∧
        (∀ j, j < e.len → t.payBit (s.bitlen + j) = some (e.bits.testBit j)) ∧
        (∀ p, s.bitlen + e.len ≤ p → p < 8 * t.pbytes → t.payBit p = some false) ∧
        ∀ q, q < s.bitlen / 8 ∨ (s.bitlen + e.len + 7) / 8 ≤ q → t.byteAt q = s.byteAt q))

/-- R163, R68: PGET answers one written payload byte, in every state; an index not below `PBYTES`
raises `E_ILLEGAL`. -/
def Obligations.PgetReadsOneByte : Prop :=
  (∀ q, encode (.pget q) = 0x41000000#32 ++ q) ∧
  ∀ (s : State) (q : BitVec 32) (b : Byte),
    (q.toNat < s.pbytes → s.byteAt q.toNat = some b →
      exec (.pget q) s = .next { s with resp := some (okResponse (b.setWidth 32)) }) ∧
    (s.pbytes ≤ q.toNat → s.fault = false → ∃ t, exec (.pget q) s = .next t ∧
      RaisedFrom s t .illegal (0x41#8 ++ 0#8 ++ 0#16))

/-! ### The payload load and the decoder -/

/-- R181: PPUT appends one byte at index `PBYTES` and changes no other; its faults in order. -/
def Obligations.PputAppendsOneByte : Prop :=
  (∀ b, encode (.pput b) = 0x500000#24 ++ b ++ 0#32) ∧
  ∀ (s : State) (b : Byte), s.fault = false →
    (s.pmode = .enc → ∃ t, exec (.pput b) s = .next t ∧
      RaisedFrom s t .sequence (0#16 ++ 0x50#8 ++ 0#2 ++ s.pmode.code ++ 0#2 ++ s.phase.code)) ∧
    (s.pmode ≠ .enc → s.cfg.pcap ≤ s.pbytes → ∃ t, exec (.pput b) s = .next t ∧
      RaisedFrom s t .capacity (BitVec.ofNat 32 s.pbytes)) ∧
    (s.pmode ≠ .enc → s.pbytes < s.cfg.pcap → ∃ t, exec (.pput b) s = .next t ∧
      t = { s with pay := t.pay, pbytes := s.pbytes + 1, pmode := .host, resp := some (okResponse 0) } ∧
      t.byteAt s.pbytes = some b ∧ ∀ q, q ≠ s.pbytes → t.byteAt q = s.byteAt q)

/-- R182: PLEN sets the bit length to any 32-bit value; when the payload is the encoder's it raises. -/
def Obligations.PlenSetsTheBitLength : Prop :=
  (∀ n, encode (.plen n) = 0x51000000#32 ++ n) ∧
  ∀ (s : State) (n : BitVec 32), s.fault = false →
    (s.pmode ≠ .enc →
      exec (.plen n) s = .next { s with bitlen := n.toNat, pmode := .host, resp := some (okResponse 0) }) ∧
    (s.pmode = .enc → ∃ t, exec (.plen n) s = .next t ∧
      RaisedFrom s t .sequence (0#16 ++ 0x51#8 ++ 0#2 ++ s.pmode.code ++ 0#2 ++ s.phase.code))

/-- R184, R186: what one DSTEP does, case by case, in the order of its checks. -/
def Obligations.DstepConsumesOneBit : Prop :=
  encode .dstep = 0x5200000000000000 ∧
  ∀ s : State, s.fault = false →
    (s.phase = .load → ∃ t, exec .dstep s = .next t ∧
      RaisedFrom s t .sequence (0#16 ++ 0x52#8 ++ 0#2 ++ s.pmode.code ++ 0#2 ++ s.phase.code)) ∧
    (s.phase ≠ .load →
      (s.rpos ≥ s.bitlen → s.rootv = true → s.cur ≠ s.root → ∃ t, exec .dstep s = .next t ∧
        RaisedFrom s t .malformed (BitVec.ofNat 32 s.rpos)) ∧
      (s.rpos ≥ s.bitlen → s.rootv = false ∨ s.cur = s.root →
        exec .dstep s = .next { s with resp := some (okResponse 0x00020000) }) ∧
      (s.rpos < s.bitlen → s.rootv = false ∨ s.pbytes ≤ s.rpos / 8 → ∃ t, exec .dstep s = .next t ∧
        RaisedFrom s t .malformed (BitVec.ofNat 32 s.rpos)) ∧
      (∀ b n, s.rpos < s.bitlen → s.rootv = true → s.rpos / 8 < s.pbytes →
        s.payBit s.rpos = some b → s.nodeAt s.root = some n →
        (n.lv = false ∧ n.rv = false →
          exec .dstep s = .next { s with out := s.out ++ [n.sym], rpos := s.rpos + 1, resp := some (okResponse (0x00010000 ||| n.sym.setWidth 32)) }) ∧
        (∀ m, ¬ (n.lv = false ∧ n.rv = false) → s.nodeAt s.cur = some m →
          (¬ (m.lv = true ∧ m.rv = true) → ∃ t, exec .dstep s = .next t ∧
            RaisedFrom s t .malformed (BitVec.ofNat 32 s.rpos)) ∧
          (∀ d, m.lv = true ∧ m.rv = true → s.nodeAt (if b then m.r else m.l) = some d →
            (d.lv = false ∧ d.rv = false →
              exec .dstep s = .next { s with out := s.out ++ [d.sym], cur := s.root, rpos := s.rpos + 1, resp := some (okResponse (0x00010000 ||| d.sym.setWidth 32)) }) ∧
            (d.lv = true ∧ d.rv = true →
              exec .dstep s = .next { s with cur := if b then m.r else m.l, rpos := s.rpos + 1, resp := some (okResponse 0) }) ∧
            (d.lv ≠ d.rv → ∃ t, exec .dstep s = .next t ∧
              RaisedFrom s t .malformed (BitVec.ofNat 32 s.rpos))))))

/-- R185: DRUN is DSTEP until `END` or a fault: it ends, after some DSTEPs that go on, with the one that
does not; at `END` it answers the number of symbols emitted, at a fault it is that fault; in phase LOAD
it raises. -/
def Obligations.DrunIsDstepUntilTheEnd : Prop :=
  encode .drun = 0x5300000000000000 ∧
  ∀ s : State, Inv s → s.fault = false →
    (s.phase = .load → ∃ t, exec .drun s = .next t ∧
      RaisedFrom s t .sequence (0#16 ++ 0x53#8 ++ 0#2 ++ s.pmode.code ++ 0#2 ++ s.phase.code)) ∧
    (s.phase ≠ .load → ∃ k u v, DstepsTo k s u ∧ exec .dstep u = .next v ∧ ¬ wentOn v ∧
      k ≤ s.bitlen - s.rpos ∧
      (v.fault = true → exec .drun s = .next v) ∧
      (v.fault = false → v.status.getLsbD 6 = true ∧
        exec .drun s = .next { v with resp := some (okResponse (BitVec.ofNat 32 (v.out.length - s.out.length))) }))

/-- R187: without a tree a DSTEP reaches the end of an empty payload and faults at position 0 of any
other. -/
def Obligations.WithoutATreeNothingDecodes : Prop :=
  ∀ s : State, Inv s → s.fault = false → s.phase ≠ .load → s.rootv = false →
    (s.bitlen = 0 → exec .dstep s = .next { s with resp := some (okResponse 0x00020000) } ∧
      exec .drun s = .next { s with resp := some (okResponse 0) }) ∧
    (0 < s.bitlen → ∃ t, exec .dstep s = .next t ∧ exec .drun s = .next t ∧
      RaisedFrom s t .malformed 0)

/-- R188: in a state that meets the invariant a DSTEP raises `E_MALFORMED` only because a bit remains
and there is no tree, or its byte was not loaded, or the stream ended mid-path. -/
def Obligations.MalformedHasThreeCauses : Prop :=
  ∀ s t : State, Inv s → s.fault = false → s.phase ≠ .load → exec .dstep s = .next t →
    (t.fault = true ↔
      (s.rpos < s.bitlen ∧ s.rootv = false) ∨ (s.rpos < s.bitlen ∧ s.pbytes ≤ s.rpos / 8) ∨
        (s.bitlen ≤ s.rpos ∧ s.rootv = true ∧ s.cur ≠ s.root)) ∧
    (t.fault = true → t.cause = .malformed)

/-- R189: when the payload was written by ENC, no DSTEP raises, and DRUN emits exactly the symbols
encoded and not yet decoded. -/
def Obligations.EncodedPayloadDecodes : Prop :=
  ∀ (s : State) (done rest : List Symbol) (path : List Bool), Inv s → s.fault = false →
    s.pmode = .enc → EncodedText s done rest path →
    (∃ t, exec .dstep s = .next t ∧ t.fault = false) ∧
    ∃ u, exec .drun s = .next u ∧ u.out = done ++ rest ∧ u.rpos = s.bitlen ∧ u.cur = s.root ∧
      u.fault = false ∧ u.status.getLsbD 6 = true ∧
      u.resp = some (okResponse (BitVec.ofNat 32 rest.length)) ∧
      u = { s with out := u.out, rpos := u.rpos, cur := u.cur, resp := u.resp }

/-- R206: when the bytes loaded end before the bit length does, DRUN ends with `E_MALFORMED` at the
first bit of the missing byte (or at the first bit, without a tree). -/
def Obligations.TruncationIsDetected : Prop :=
  ∀ s : State, Inv s → s.fault = false → s.phase ≠ .load → 8 * s.pbytes < s.bitlen →
    s.rpos ≤ 8 * s.pbytes → ∃ t, exec .drun s = .next t ∧ t.fault = true ∧ t.cause = .malformed ∧
      (s.rootv = true → t.rpos = 8 * s.pbytes ∧ t.finfo = BitVec.ofNat 32 (8 * s.pbytes))

/-! ### The machine as a whole -/

/-- R41: every step keeps the invariant (which entries hold a value is the model's, log 4). -/
def Obligations.StepKeepsTheInvariant : Prop :=
  ∀ s t : State, Inv s → step s = .next t → Inv t

/-- The reset state, with any legal parameters, meets the invariant. -/
def Obligations.ResetMeetsTheInvariant : Prop :=
  ∀ c : Config, c.Legal → Inv (State.fresh c) ∧ DecodesItsOwn (State.fresh c)

/-- R271: from a state that meets the invariant every step ends in a next state. It rests on the sink and
the host being always ready, which is presumed (log 7, R268); that with nothing issued the step is the
state itself is the model's choice (log 2). -/
def Obligations.EveryStepEnds : Prop := ∀ s : State, Inv s → ∃ t, step s = .next t

/-- R22, R36, R37, R6: in a state that meets the invariant every register and table field fits its
width; so no sum of weights overflows. -/
def Obligations.EverythingFitsItsWidth : Prop := ∀ s : State, Inv s → FitsWidths s

/-- R160, R189: every step keeps it that a payload of the encoder's is the encoding of a text, of which
the decoder has given out the first symbols. -/
def Obligations.StepKeepsTheEncodedText : Prop :=
  ∀ s t : State, Inv s → DecodesItsOwn s → step s = .next t → DecodesItsOwn t

/-- R200: the round trip. From reset, with the frequency table of a text loaded in any order, if the
encoding fits, the compress sequence raises no fault; then DRUN on the same instance emits the text, and
so does the decompress sequence on another instance, given the table in any order and the bytes and bit
length that the first has produced. -/
def Obligations.RoundTrip : Prop :=
  ∀ (c : Config) (text : List Symbol) (table : List (Symbol × Count)), c.Legal →
    (∀ x ∈ text, x.toNat < c.nsym) → (∀ x ∈ text, occurrences text x < 2 ^ c.cw) →
    table.Perm (tableOf c text) →
    ∃ t, execAll (ftab table ++ [.build, .derive]) (State.fresh c) = .next t ∧
      ((t.encoding text).length ≤ 8 * c.pcap →
        ∃ u, execAll (compressSeq table text) (State.fresh c) = .next u ∧ u.fault = false ∧
          (∃ v, exec .drun u = .next v ∧ v.out = text ∧ v.fault = false ∧ v.status.getLsbD 6 = true) ∧
          ∀ (c' : Config) (table' : List (Symbol × Count)), c'.Legal → c'.symw = c.symw →
            (∀ x ∈ text, occurrences text x < 2 ^ c'.cw) → u.pbytes ≤ c'.pcap → table'.Perm table →
            ∃ v, execAll (decompressSeq table' u.payloadBytes (BitVec.ofNat 32 u.bitlen)) (State.fresh c') = .next v ∧
              v.out = text ∧ v.fault = false ∧ v.status.getLsbD 6 = true)
end

