-- ==== Sys2Proof/Laws/State.lean ====
section
/-! SUPPORT. One lemma per field per named update of State, so that no later proof unfolds a record
update. -/

namespace Sys2Proof.Machine

variable (s : State)

@[simp] theorem State.respond_cfg (err : BitVec 4) (data : Word) : (s.respond err data).cfg = s.cfg := rfl
@[simp] theorem State.respond_inputs (err : BitVec 4) (data : Word) : (s.respond err data).inputs = s.inputs := rfl
@[simp] theorem State.respond_resp (err : BitVec 4) (data : Word) : (s.respond err data).resp = some (mkResponse err data) := rfl
@[simp] theorem State.respond_phase (err : BitVec 4) (data : Word) : (s.respond err data).phase = s.phase := rfl
@[simp] theorem State.respond_fault (err : BitVec 4) (data : Word) : (s.respond err data).fault = s.fault := rfl
@[simp] theorem State.respond_cause (err : BitVec 4) (data : Word) : (s.respond err data).cause = s.cause := rfl
@[simp] theorem State.respond_finfo (err : BitVec 4) (data : Word) : (s.respond err data).finfo = s.finfo := rfl
@[simp] theorem State.respond_pmode (err : BitVec 4) (data : Word) : (s.respond err data).pmode = s.pmode := rfl
@[simp] theorem State.respond_nleaf (err : BitVec 4) (data : Word) : (s.respond err data).nleaf = s.nleaf := rfl
@[simp] theorem State.respond_nnodes (err : BitVec 4) (data : Word) : (s.respond err data).nnodes = s.nnodes := rfl
@[simp] theorem State.respond_rootv (err : BitVec 4) (data : Word) : (s.respond err data).rootv = s.rootv := rfl
@[simp] theorem State.respond_root (err : BitVec 4) (data : Word) : (s.respond err data).root = s.root := rfl
@[simp] theorem State.respond_bitlen (err : BitVec 4) (data : Word) : (s.respond err data).bitlen = s.bitlen := rfl
@[simp] theorem State.respond_pbytes (err : BitVec 4) (data : Word) : (s.respond err data).pbytes = s.pbytes := rfl
@[simp] theorem State.respond_rpos (err : BitVec 4) (data : Word) : (s.respond err data).rpos = s.rpos := rfl
@[simp] theorem State.respond_cur (err : BitVec 4) (data : Word) : (s.respond err data).cur = s.cur := rfl
@[simp] theorem State.respond_freq (err : BitVec 4) (data : Word) : (s.respond err data).freq = s.freq := rfl
@[simp] theorem State.respond_node (err : BitVec 4) (data : Word) : (s.respond err data).node = s.node := rfl
@[simp] theorem State.respond_code (err : BitVec 4) (data : Word) : (s.respond err data).code = s.code := rfl
@[simp] theorem State.respond_pay (err : BitVec 4) (data : Word) : (s.respond err data).pay = s.pay := rfl
@[simp] theorem State.respond_out (err : BitVec 4) (data : Word) : (s.respond err data).out = s.out := rfl

@[simp] theorem State.ok_cfg (v : Word) : (s.ok v).cfg = s.cfg := rfl
@[simp] theorem State.ok_inputs (v : Word) : (s.ok v).inputs = s.inputs := rfl
@[simp] theorem State.ok_resp (v : Word) : (s.ok v).resp = some (okResponse v) := rfl
@[simp] theorem State.ok_phase (v : Word) : (s.ok v).phase = s.phase := rfl
@[simp] theorem State.ok_fault (v : Word) : (s.ok v).fault = s.fault := rfl
@[simp] theorem State.ok_cause (v : Word) : (s.ok v).cause = s.cause := rfl
@[simp] theorem State.ok_finfo (v : Word) : (s.ok v).finfo = s.finfo := rfl
@[simp] theorem State.ok_pmode (v : Word) : (s.ok v).pmode = s.pmode := rfl
@[simp] theorem State.ok_nleaf (v : Word) : (s.ok v).nleaf = s.nleaf := rfl
@[simp] theorem State.ok_nnodes (v : Word) : (s.ok v).nnodes = s.nnodes := rfl
@[simp] theorem State.ok_rootv (v : Word) : (s.ok v).rootv = s.rootv := rfl
@[simp] theorem State.ok_root (v : Word) : (s.ok v).root = s.root := rfl
@[simp] theorem State.ok_bitlen (v : Word) : (s.ok v).bitlen = s.bitlen := rfl
@[simp] theorem State.ok_pbytes (v : Word) : (s.ok v).pbytes = s.pbytes := rfl
@[simp] theorem State.ok_rpos (v : Word) : (s.ok v).rpos = s.rpos := rfl
@[simp] theorem State.ok_cur (v : Word) : (s.ok v).cur = s.cur := rfl
@[simp] theorem State.ok_freq (v : Word) : (s.ok v).freq = s.freq := rfl
@[simp] theorem State.ok_node (v : Word) : (s.ok v).node = s.node := rfl
@[simp] theorem State.ok_code (v : Word) : (s.ok v).code = s.code := rfl
@[simp] theorem State.ok_pay (v : Word) : (s.ok v).pay = s.pay := rfl
@[simp] theorem State.ok_out (v : Word) : (s.ok v).out = s.out := rfl

@[simp] theorem State.respondLatched_cfg : (s.respondLatched).cfg = s.cfg := rfl
@[simp] theorem State.respondLatched_inputs : (s.respondLatched).inputs = s.inputs := rfl
@[simp] theorem State.respondLatched_resp : (s.respondLatched).resp = some (mkResponse s.cause.code s.finfo) := rfl
@[simp] theorem State.respondLatched_phase : (s.respondLatched).phase = s.phase := rfl
@[simp] theorem State.respondLatched_fault : (s.respondLatched).fault = s.fault := rfl
@[simp] theorem State.respondLatched_cause : (s.respondLatched).cause = s.cause := rfl
@[simp] theorem State.respondLatched_finfo : (s.respondLatched).finfo = s.finfo := rfl
@[simp] theorem State.respondLatched_pmode : (s.respondLatched).pmode = s.pmode := rfl
@[simp] theorem State.respondLatched_nleaf : (s.respondLatched).nleaf = s.nleaf := rfl
@[simp] theorem State.respondLatched_nnodes : (s.respondLatched).nnodes = s.nnodes := rfl
@[simp] theorem State.respondLatched_rootv : (s.respondLatched).rootv = s.rootv := rfl
@[simp] theorem State.respondLatched_root : (s.respondLatched).root = s.root := rfl
@[simp] theorem State.respondLatched_bitlen : (s.respondLatched).bitlen = s.bitlen := rfl
@[simp] theorem State.respondLatched_pbytes : (s.respondLatched).pbytes = s.pbytes := rfl
@[simp] theorem State.respondLatched_rpos : (s.respondLatched).rpos = s.rpos := rfl
@[simp] theorem State.respondLatched_cur : (s.respondLatched).cur = s.cur := rfl
@[simp] theorem State.respondLatched_freq : (s.respondLatched).freq = s.freq := rfl
@[simp] theorem State.respondLatched_node : (s.respondLatched).node = s.node := rfl
@[simp] theorem State.respondLatched_code : (s.respondLatched).code = s.code := rfl
@[simp] theorem State.respondLatched_pay : (s.respondLatched).pay = s.pay := rfl
@[simp] theorem State.respondLatched_out : (s.respondLatched).out = s.out := rfl

@[simp] theorem State.writeNode_cfg (i : Nat) (n : Node) : (s.writeNode i n).cfg = s.cfg := rfl
@[simp] theorem State.writeNode_inputs (i : Nat) (n : Node) : (s.writeNode i n).inputs = s.inputs := rfl
@[simp] theorem State.writeNode_resp (i : Nat) (n : Node) : (s.writeNode i n).resp = s.resp := rfl
@[simp] theorem State.writeNode_phase (i : Nat) (n : Node) : (s.writeNode i n).phase = s.phase := rfl
@[simp] theorem State.writeNode_fault (i : Nat) (n : Node) : (s.writeNode i n).fault = s.fault := rfl
@[simp] theorem State.writeNode_cause (i : Nat) (n : Node) : (s.writeNode i n).cause = s.cause := rfl
@[simp] theorem State.writeNode_finfo (i : Nat) (n : Node) : (s.writeNode i n).finfo = s.finfo := rfl
@[simp] theorem State.writeNode_pmode (i : Nat) (n : Node) : (s.writeNode i n).pmode = s.pmode := rfl
@[simp] theorem State.writeNode_nleaf (i : Nat) (n : Node) : (s.writeNode i n).nleaf = s.nleaf := rfl
@[simp] theorem State.writeNode_nnodes (i : Nat) (n : Node) : (s.writeNode i n).nnodes = s.nnodes := rfl
@[simp] theorem State.writeNode_rootv (i : Nat) (n : Node) : (s.writeNode i n).rootv = s.rootv := rfl
@[simp] theorem State.writeNode_root (i : Nat) (n : Node) : (s.writeNode i n).root = s.root := rfl
@[simp] theorem State.writeNode_bitlen (i : Nat) (n : Node) : (s.writeNode i n).bitlen = s.bitlen := rfl
@[simp] theorem State.writeNode_pbytes (i : Nat) (n : Node) : (s.writeNode i n).pbytes = s.pbytes := rfl
@[simp] theorem State.writeNode_rpos (i : Nat) (n : Node) : (s.writeNode i n).rpos = s.rpos := rfl
@[simp] theorem State.writeNode_cur (i : Nat) (n : Node) : (s.writeNode i n).cur = s.cur := rfl
@[simp] theorem State.writeNode_freq (i : Nat) (n : Node) : (s.writeNode i n).freq = s.freq := rfl
@[simp] theorem State.writeNode_node (i : Nat) (n : Node) : (s.writeNode i n).node = Table.set s.node i n := rfl
@[simp] theorem State.writeNode_code (i : Nat) (n : Node) : (s.writeNode i n).code = s.code := rfl
@[simp] theorem State.writeNode_pay (i : Nat) (n : Node) : (s.writeNode i n).pay = s.pay := rfl
@[simp] theorem State.writeNode_out (i : Nat) (n : Node) : (s.writeNode i n).out = s.out := rfl

@[simp] theorem State.writeCode_cfg (x : Nat) (e : CodeEntry) : (s.writeCode x e).cfg = s.cfg := rfl
@[simp] theorem State.writeCode_inputs (x : Nat) (e : CodeEntry) : (s.writeCode x e).inputs = s.inputs := rfl
@[simp] theorem State.writeCode_resp (x : Nat) (e : CodeEntry) : (s.writeCode x e).resp = s.resp := rfl
@[simp] theorem State.writeCode_phase (x : Nat) (e : CodeEntry) : (s.writeCode x e).phase = s.phase := rfl
@[simp] theorem State.writeCode_fault (x : Nat) (e : CodeEntry) : (s.writeCode x e).fault = s.fault := rfl
@[simp] theorem State.writeCode_cause (x : Nat) (e : CodeEntry) : (s.writeCode x e).cause = s.cause := rfl
@[simp] theorem State.writeCode_finfo (x : Nat) (e : CodeEntry) : (s.writeCode x e).finfo = s.finfo := rfl
@[simp] theorem State.writeCode_pmode (x : Nat) (e : CodeEntry) : (s.writeCode x e).pmode = s.pmode := rfl
@[simp] theorem State.writeCode_nleaf (x : Nat) (e : CodeEntry) : (s.writeCode x e).nleaf = s.nleaf := rfl
@[simp] theorem State.writeCode_nnodes (x : Nat) (e : CodeEntry) : (s.writeCode x e).nnodes = s.nnodes := rfl
@[simp] theorem State.writeCode_rootv (x : Nat) (e : CodeEntry) : (s.writeCode x e).rootv = s.rootv := rfl
@[simp] theorem State.writeCode_root (x : Nat) (e : CodeEntry) : (s.writeCode x e).root = s.root := rfl
@[simp] theorem State.writeCode_bitlen (x : Nat) (e : CodeEntry) : (s.writeCode x e).bitlen = s.bitlen := rfl
@[simp] theorem State.writeCode_pbytes (x : Nat) (e : CodeEntry) : (s.writeCode x e).pbytes = s.pbytes := rfl
@[simp] theorem State.writeCode_rpos (x : Nat) (e : CodeEntry) : (s.writeCode x e).rpos = s.rpos := rfl
@[simp] theorem State.writeCode_cur (x : Nat) (e : CodeEntry) : (s.writeCode x e).cur = s.cur := rfl
@[simp] theorem State.writeCode_freq (x : Nat) (e : CodeEntry) : (s.writeCode x e).freq = s.freq := rfl
@[simp] theorem State.writeCode_node (x : Nat) (e : CodeEntry) : (s.writeCode x e).node = s.node := rfl
@[simp] theorem State.writeCode_code (x : Nat) (e : CodeEntry) : (s.writeCode x e).code = Table.set s.code x e := rfl
@[simp] theorem State.writeCode_pay (x : Nat) (e : CodeEntry) : (s.writeCode x e).pay = s.pay := rfl
@[simp] theorem State.writeCode_out (x : Nat) (e : CodeEntry) : (s.writeCode x e).out = s.out := rfl

@[simp] theorem State.emit_cfg (x : Symbol) : (s.emit x).cfg = s.cfg := rfl
@[simp] theorem State.emit_inputs (x : Symbol) : (s.emit x).inputs = s.inputs := rfl
@[simp] theorem State.emit_resp (x : Symbol) : (s.emit x).resp = s.resp := rfl
@[simp] theorem State.emit_phase (x : Symbol) : (s.emit x).phase = s.phase := rfl
@[simp] theorem State.emit_fault (x : Symbol) : (s.emit x).fault = s.fault := rfl
@[simp] theorem State.emit_cause (x : Symbol) : (s.emit x).cause = s.cause := rfl
@[simp] theorem State.emit_finfo (x : Symbol) : (s.emit x).finfo = s.finfo := rfl
@[simp] theorem State.emit_pmode (x : Symbol) : (s.emit x).pmode = s.pmode := rfl
@[simp] theorem State.emit_nleaf (x : Symbol) : (s.emit x).nleaf = s.nleaf := rfl
@[simp] theorem State.emit_nnodes (x : Symbol) : (s.emit x).nnodes = s.nnodes := rfl
@[simp] theorem State.emit_rootv (x : Symbol) : (s.emit x).rootv = s.rootv := rfl
@[simp] theorem State.emit_root (x : Symbol) : (s.emit x).root = s.root := rfl
@[simp] theorem State.emit_bitlen (x : Symbol) : (s.emit x).bitlen = s.bitlen := rfl
@[simp] theorem State.emit_pbytes (x : Symbol) : (s.emit x).pbytes = s.pbytes := rfl
@[simp] theorem State.emit_rpos (x : Symbol) : (s.emit x).rpos = s.rpos := rfl
@[simp] theorem State.emit_cur (x : Symbol) : (s.emit x).cur = s.cur := rfl
@[simp] theorem State.emit_freq (x : Symbol) : (s.emit x).freq = s.freq := rfl
@[simp] theorem State.emit_node (x : Symbol) : (s.emit x).node = s.node := rfl
@[simp] theorem State.emit_code (x : Symbol) : (s.emit x).code = s.code := rfl
@[simp] theorem State.emit_pay (x : Symbol) : (s.emit x).pay = s.pay := rfl
@[simp] theorem State.emit_out (x : Symbol) : (s.emit x).out = s.out ++ [x] := rfl

@[simp] theorem State.consume_cfg : (s.consume).cfg = s.cfg := rfl
@[simp] theorem State.consume_inputs : (s.consume).inputs = s.inputs := rfl
@[simp] theorem State.consume_resp : (s.consume).resp = s.resp := rfl
@[simp] theorem State.consume_phase : (s.consume).phase = s.phase := rfl
@[simp] theorem State.consume_fault : (s.consume).fault = s.fault := rfl
@[simp] theorem State.consume_cause : (s.consume).cause = s.cause := rfl
@[simp] theorem State.consume_finfo : (s.consume).finfo = s.finfo := rfl
@[simp] theorem State.consume_pmode : (s.consume).pmode = s.pmode := rfl
@[simp] theorem State.consume_nleaf : (s.consume).nleaf = s.nleaf := rfl
@[simp] theorem State.consume_nnodes : (s.consume).nnodes = s.nnodes := rfl
@[simp] theorem State.consume_rootv : (s.consume).rootv = s.rootv := rfl
@[simp] theorem State.consume_root : (s.consume).root = s.root := rfl
@[simp] theorem State.consume_bitlen : (s.consume).bitlen = s.bitlen := rfl
@[simp] theorem State.consume_pbytes : (s.consume).pbytes = s.pbytes := rfl
@[simp] theorem State.consume_rpos : (s.consume).rpos = s.rpos + 1 := rfl
@[simp] theorem State.consume_cur : (s.consume).cur = s.cur := rfl
@[simp] theorem State.consume_freq : (s.consume).freq = s.freq := rfl
@[simp] theorem State.consume_node : (s.consume).node = s.node := rfl
@[simp] theorem State.consume_code : (s.consume).code = s.code := rfl
@[simp] theorem State.consume_pay : (s.consume).pay = s.pay := rfl
@[simp] theorem State.consume_out : (s.consume).out = s.out := rfl

@[simp] theorem State.dropInput_cfg : (s.dropInput).cfg = s.cfg := rfl
@[simp] theorem State.dropInput_inputs : (s.dropInput).inputs = s.inputs.tail := rfl
@[simp] theorem State.dropInput_resp : (s.dropInput).resp = s.resp := rfl
@[simp] theorem State.dropInput_phase : (s.dropInput).phase = s.phase := rfl
@[simp] theorem State.dropInput_fault : (s.dropInput).fault = s.fault := rfl
@[simp] theorem State.dropInput_cause : (s.dropInput).cause = s.cause := rfl
@[simp] theorem State.dropInput_finfo : (s.dropInput).finfo = s.finfo := rfl
@[simp] theorem State.dropInput_pmode : (s.dropInput).pmode = s.pmode := rfl
@[simp] theorem State.dropInput_nleaf : (s.dropInput).nleaf = s.nleaf := rfl
@[simp] theorem State.dropInput_nnodes : (s.dropInput).nnodes = s.nnodes := rfl
@[simp] theorem State.dropInput_rootv : (s.dropInput).rootv = s.rootv := rfl
@[simp] theorem State.dropInput_root : (s.dropInput).root = s.root := rfl
@[simp] theorem State.dropInput_bitlen : (s.dropInput).bitlen = s.bitlen := rfl
@[simp] theorem State.dropInput_pbytes : (s.dropInput).pbytes = s.pbytes := rfl
@[simp] theorem State.dropInput_rpos : (s.dropInput).rpos = s.rpos := rfl
@[simp] theorem State.dropInput_cur : (s.dropInput).cur = s.cur := rfl
@[simp] theorem State.dropInput_freq : (s.dropInput).freq = s.freq := rfl
@[simp] theorem State.dropInput_node : (s.dropInput).node = s.node := rfl
@[simp] theorem State.dropInput_code : (s.dropInput).code = s.code := rfl
@[simp] theorem State.dropInput_pay : (s.dropInput).pay = s.pay := rfl
@[simp] theorem State.dropInput_out : (s.dropInput).out = s.out := rfl

@[simp] theorem State.pushCommand_cfg (w : CmdWord) : (s.pushCommand w).cfg = s.cfg := rfl
@[simp] theorem State.pushCommand_inputs (w : CmdWord) : (s.pushCommand w).inputs = .command w :: s.inputs := rfl
@[simp] theorem State.pushCommand_resp (w : CmdWord) : (s.pushCommand w).resp = s.resp := rfl
@[simp] theorem State.pushCommand_phase (w : CmdWord) : (s.pushCommand w).phase = s.phase := rfl
@[simp] theorem State.pushCommand_fault (w : CmdWord) : (s.pushCommand w).fault = s.fault := rfl
@[simp] theorem State.pushCommand_cause (w : CmdWord) : (s.pushCommand w).cause = s.cause := rfl
@[simp] theorem State.pushCommand_finfo (w : CmdWord) : (s.pushCommand w).finfo = s.finfo := rfl
@[simp] theorem State.pushCommand_pmode (w : CmdWord) : (s.pushCommand w).pmode = s.pmode := rfl
@[simp] theorem State.pushCommand_nleaf (w : CmdWord) : (s.pushCommand w).nleaf = s.nleaf := rfl
@[simp] theorem State.pushCommand_nnodes (w : CmdWord) : (s.pushCommand w).nnodes = s.nnodes := rfl
@[simp] theorem State.pushCommand_rootv (w : CmdWord) : (s.pushCommand w).rootv = s.rootv := rfl
@[simp] theorem State.pushCommand_root (w : CmdWord) : (s.pushCommand w).root = s.root := rfl
@[simp] theorem State.pushCommand_bitlen (w : CmdWord) : (s.pushCommand w).bitlen = s.bitlen := rfl
@[simp] theorem State.pushCommand_pbytes (w : CmdWord) : (s.pushCommand w).pbytes = s.pbytes := rfl
@[simp] theorem State.pushCommand_rpos (w : CmdWord) : (s.pushCommand w).rpos = s.rpos := rfl
@[simp] theorem State.pushCommand_cur (w : CmdWord) : (s.pushCommand w).cur = s.cur := rfl
@[simp] theorem State.pushCommand_freq (w : CmdWord) : (s.pushCommand w).freq = s.freq := rfl
@[simp] theorem State.pushCommand_node (w : CmdWord) : (s.pushCommand w).node = s.node := rfl
@[simp] theorem State.pushCommand_code (w : CmdWord) : (s.pushCommand w).code = s.code := rfl
@[simp] theorem State.pushCommand_pay (w : CmdWord) : (s.pushCommand w).pay = s.pay := rfl
@[simp] theorem State.pushCommand_out (w : CmdWord) : (s.pushCommand w).out = s.out := rfl

@[simp] theorem State.toReset_cfg : s.toReset.cfg = s.cfg := rfl
@[simp] theorem State.toReset_inputs : s.toReset.inputs = s.inputs := rfl
@[simp] theorem State.toReset_resp : s.toReset.resp = none := rfl
@[simp] theorem State.toReset_phase : s.toReset.phase = .load := rfl
@[simp] theorem State.toReset_fault : s.toReset.fault = false := rfl
@[simp] theorem State.toReset_cause : s.toReset.cause = .none := rfl
@[simp] theorem State.toReset_finfo : s.toReset.finfo = 0 := rfl
@[simp] theorem State.toReset_pmode : s.toReset.pmode = .none := rfl
@[simp] theorem State.toReset_nleaf : s.toReset.nleaf = 0 := rfl
@[simp] theorem State.toReset_nnodes : s.toReset.nnodes = 0 := rfl
@[simp] theorem State.toReset_rootv : s.toReset.rootv = false := rfl
@[simp] theorem State.toReset_root : s.toReset.root = 0 := rfl
@[simp] theorem State.toReset_bitlen : s.toReset.bitlen = 0 := rfl
@[simp] theorem State.toReset_pbytes : s.toReset.pbytes = 0 := rfl
@[simp] theorem State.toReset_rpos : s.toReset.rpos = 0 := rfl
@[simp] theorem State.toReset_cur : s.toReset.cur = 0 := rfl
@[simp] theorem State.toReset_freq : s.toReset.freq = [] := rfl
@[simp] theorem State.toReset_node : s.toReset.node = [] := rfl
@[simp] theorem State.toReset_code : s.toReset.code = [] := rfl
@[simp] theorem State.toReset_pay : s.toReset.pay = [] := rfl
@[simp] theorem State.toReset_out : s.toReset.out = [] := rfl

@[simp] theorem State.latch_cfg (c : Cause) (info : Word) : (s.latch c info).cfg = s.cfg := by
  unfold State.latch; split <;> rfl
@[simp] theorem State.latch_inputs (c : Cause) (info : Word) : (s.latch c info).inputs = s.inputs := by
  unfold State.latch; split <;> rfl
@[simp] theorem State.latch_resp (c : Cause) (info : Word) : (s.latch c info).resp = s.resp := by
  unfold State.latch; split <;> rfl
@[simp] theorem State.latch_phase (c : Cause) (info : Word) : (s.latch c info).phase = s.phase := by
  unfold State.latch; split <;> rfl
@[simp] theorem State.latch_pmode (c : Cause) (info : Word) : (s.latch c info).pmode = s.pmode := by
  unfold State.latch; split <;> rfl
@[simp] theorem State.latch_nleaf (c : Cause) (info : Word) : (s.latch c info).nleaf = s.nleaf := by
  unfold State.latch; split <;> rfl
@[simp] theorem State.latch_nnodes (c : Cause) (info : Word) : (s.latch c info).nnodes = s.nnodes := by
  unfold State.latch; split <;> rfl
@[simp] theorem State.latch_rootv (c : Cause) (info : Word) : (s.latch c info).rootv = s.rootv := by
  unfold State.latch; split <;> rfl
@[simp] theorem State.latch_root (c : Cause) (info : Word) : (s.latch c info).root = s.root := by
  unfold State.latch; split <;> rfl
@[simp] theorem State.latch_bitlen (c : Cause) (info : Word) : (s.latch c info).bitlen = s.bitlen := by
  unfold State.latch; split <;> rfl
@[simp] theorem State.latch_pbytes (c : Cause) (info : Word) : (s.latch c info).pbytes = s.pbytes := by
  unfold State.latch; split <;> rfl
@[simp] theorem State.latch_rpos (c : Cause) (info : Word) : (s.latch c info).rpos = s.rpos := by
  unfold State.latch; split <;> rfl
@[simp] theorem State.latch_cur (c : Cause) (info : Word) : (s.latch c info).cur = s.cur := by
  unfold State.latch; split <;> rfl
@[simp] theorem State.latch_freq (c : Cause) (info : Word) : (s.latch c info).freq = s.freq := by
  unfold State.latch; split <;> rfl
@[simp] theorem State.latch_node (c : Cause) (info : Word) : (s.latch c info).node = s.node := by
  unfold State.latch; split <;> rfl
@[simp] theorem State.latch_code (c : Cause) (info : Word) : (s.latch c info).code = s.code := by
  unfold State.latch; split <;> rfl
@[simp] theorem State.latch_pay (c : Cause) (info : Word) : (s.latch c info).pay = s.pay := by
  unfold State.latch; split <;> rfl
@[simp] theorem State.latch_out (c : Cause) (info : Word) : (s.latch c info).out = s.out := by
  unfold State.latch; split <;> rfl

@[simp] theorem State.latch_fault (c : Cause) (info : Word) : (s.latch c info).fault = true := by
  unfold State.latch; split <;> simp_all
@[simp] theorem State.raise_cfg (c : Cause) (info : Word) : (s.raise c info).cfg = s.cfg := by
  simp [State.raise]
@[simp] theorem State.raise_inputs (c : Cause) (info : Word) : (s.raise c info).inputs = s.inputs := by
  simp [State.raise]
@[simp] theorem State.raise_phase (c : Cause) (info : Word) : (s.raise c info).phase = s.phase := by
  simp [State.raise]
@[simp] theorem State.raise_pmode (c : Cause) (info : Word) : (s.raise c info).pmode = s.pmode := by
  simp [State.raise]
@[simp] theorem State.raise_nleaf (c : Cause) (info : Word) : (s.raise c info).nleaf = s.nleaf := by
  simp [State.raise]
@[simp] theorem State.raise_nnodes (c : Cause) (info : Word) : (s.raise c info).nnodes = s.nnodes := by
  simp [State.raise]
@[simp] theorem State.raise_rootv (c : Cause) (info : Word) : (s.raise c info).rootv = s.rootv := by
  simp [State.raise]
@[simp] theorem State.raise_root (c : Cause) (info : Word) : (s.raise c info).root = s.root := by
  simp [State.raise]
@[simp] theorem State.raise_bitlen (c : Cause) (info : Word) : (s.raise c info).bitlen = s.bitlen := by
  simp [State.raise]
@[simp] theorem State.raise_pbytes (c : Cause) (info : Word) : (s.raise c info).pbytes = s.pbytes := by
  simp [State.raise]
@[simp] theorem State.raise_rpos (c : Cause) (info : Word) : (s.raise c info).rpos = s.rpos := by
  simp [State.raise]
@[simp] theorem State.raise_cur (c : Cause) (info : Word) : (s.raise c info).cur = s.cur := by
  simp [State.raise]
@[simp] theorem State.raise_freq (c : Cause) (info : Word) : (s.raise c info).freq = s.freq := by
  simp [State.raise]
@[simp] theorem State.raise_node (c : Cause) (info : Word) : (s.raise c info).node = s.node := by
  simp [State.raise]
@[simp] theorem State.raise_code (c : Cause) (info : Word) : (s.raise c info).code = s.code := by
  simp [State.raise]
@[simp] theorem State.raise_pay (c : Cause) (info : Word) : (s.raise c info).pay = s.pay := by
  simp [State.raise]
@[simp] theorem State.raise_out (c : Cause) (info : Word) : (s.raise c info).out = s.out := by
  simp [State.raise]
@[simp] theorem State.raise_fault (c : Cause) (info : Word) : (s.raise c info).fault = true := by
  simp [State.raise]

end Sys2Proof.Machine
end

