-- ==== Sys2Proof/Laws/Tables.lean ====
section
/-! SUPPORT. The laws of the tables: a read after a write, and that every operation keeps the
canonical form. -/

namespace Sys2Proof.Machine

variable {α : Type}

/-- A read after a write: the new value at the index written, the old one elsewhere. -/
@[simp] theorem Table.get?_set (t : Table α) (a b : Nat) (x : α) :
    Table.get? (Table.set t a x) b = if b = a then some x else Table.get? t b := by
  induction t with grind [Table.set, Table.get?]

@[simp] theorem Table.get?_erase (t : Table α) (a b : Nat) :
    Table.get? (Table.erase t a) b = if b = a then none else Table.get? t b := by
  induction t with grind [Table.erase, Table.get?]

/-- The entries after a write are the new one and old ones of other indices. -/
theorem Table.mem_set {t : Table α} {a : Nat} {x : α} {e : Nat × α} (h : e ∈ Table.set t a x) :
    e = (a, x) ∨ e ∈ t := by
  induction t with
  | nil => simpa [Table.set] using h
  | cons c t ih =>
    obtain ⟨k, v⟩ := c
    unfold Table.set at h
    split_ifs at h
    · simpa using h
    · rcases List.mem_cons.1 h with h | h
      · exact .inl h
      · exact .inr (List.mem_cons_of_mem _ h)
    · rcases List.mem_cons.1 h with h | h
      · exact .inr (by simp [h])
      · exact (ih h).imp_right (List.mem_cons_of_mem _)

theorem Table.mem_erase {t : Table α} {a : Nat} {e : Nat × α} (h : e ∈ Table.erase t a) :
    e ∈ t ∧ e.1 ≠ a := by
  induction t with
  | nil => simp [Table.erase] at h
  | cons c t ih =>
    obtain ⟨k, v⟩ := c
    unfold Table.erase at h
    split_ifs at h with hk
    · exact ⟨List.mem_cons_of_mem _ (ih h).1, (ih h).2⟩
    · rcases List.mem_cons.1 h with h | h
      · subst h; exact ⟨by simp, hk⟩
      · exact ⟨List.mem_cons_of_mem _ (ih h).1, (ih h).2⟩

/-- A write keeps the canonical form. -/
theorem Table.set_wf {t : Table α} (h : Table.wf t) (a : Nat) (x : α) : Table.wf (Table.set t a x) := by
  induction t with
  | nil => simp [Table.wf, Table.set]
  | cons c t ih =>
    obtain ⟨k, v⟩ := c
    obtain ⟨hk, ht⟩ := List.pairwise_cons.1 h
    unfold Table.set
    split_ifs with h1 h2
    · refine List.pairwise_cons.2 ⟨fun e he => ?_, h⟩
      rcases List.mem_cons.1 he with rfl | he
      · exact h1
      · exact lt_trans h1 (hk e he)
    · subst h2; exact List.pairwise_cons.2 ⟨hk, ht⟩
    · refine List.pairwise_cons.2 ⟨fun e he => ?_, ih ht⟩
      rcases Table.mem_set he with rfl | he
      · simp only; omega
      · exact hk e he

/-- Taking an entry out keeps the canonical form. -/
theorem Table.erase_wf {t : Table α} (h : Table.wf t) (a : Nat) : Table.wf (Table.erase t a) := by
  induction t with
  | nil => simp [Table.wf, Table.erase]
  | cons c t ih =>
    obtain ⟨k, v⟩ := c
    obtain ⟨hk, ht⟩ := List.pairwise_cons.1 h
    unfold Table.erase
    split_ifs
    · exact ih ht
    · exact List.pairwise_cons.2 ⟨fun e he => hk e (Table.mem_erase he).1, ih ht⟩

/-- An entry that is read is in the list. -/
theorem Table.mem_of_get? {t : Table α} {a : Nat} {x : α} (h : Table.get? t a = some x) :
    (a, x) ∈ t := by
  induction t with
  | nil => simp [Table.get?] at h
  | cons c t ih =>
    obtain ⟨k, v⟩ := c
    unfold Table.get? at h
    split_ifs at h with hk
    · cases h; subst hk; simp
    · exact List.mem_cons_of_mem _ (ih h)

/-- A write to the payload memory keeps its canonical form. -/
theorem Memory.write_wf {m : Memory} (h : Memory.wf m) (q : Nat) (b : Byte) :
    Memory.wf (Memory.write m q b) := Table.set_wf h q b

@[simp] theorem Memory.read_write (m : Memory) (q p : Nat) (b : Byte) :
    Memory.read (Memory.write m q b) p = if p = q then some b else Memory.read m p :=
  Table.get?_set m q p b

theorem reset_memory_wf : Memory.wf State.reset.pay := List.Pairwise.nil

/-- `FREQ` after a write: the count written, also when it is 0, and every other count as it was. -/
@[simp] theorem freqGet_freqSet (f : Table Count) (x y : Nat) (c : Count) :
    freqGet (freqSet f x c) y = if y = x then c else freqGet f y := by
  unfold freqGet freqSet
  split_ifs <;> simp_all

/-- A write keeps the canonical form of the frequency table. -/
theorem freqSet_wf {f : Table Count} (h : freqWf f) (x : Nat) (c : Count) : freqWf (freqSet f x c) := by
  unfold freqSet
  split_ifs with hc
  · exact ⟨Table.erase_wf h.1 x, fun e he => h.2 e (Table.mem_erase he).1⟩
  · refine ⟨Table.set_wf h.1 x c, fun e he => ?_⟩
    rcases Table.mem_set he with rfl | he
    · exact hc
    · exact h.2 e he

/-! ### Reads of a state after its named updates -/

@[simp] theorem State.nodeAt_writeNode (s : State) (i j : Nat) (n : Node) :
    (s.writeNode i n).nodeAt j = if j = i then some n else s.nodeAt j := by
  simp [State.nodeAt]

@[simp] theorem State.codeAt_writeCode (s : State) (x y : Nat) (e : CodeEntry) :
    (s.writeCode x e).codeAt y = if y = x then some e else s.codeAt y := by
  simp [State.codeAt]

/-- A node read answers the entry, or stops because there is none. -/
theorem State.readNode_eq (s : State) (i : Nat) :
    s.readNode i = match s.nodeAt i with | some n => .ok n | none => .error (.unwrittenNode i) := rfl

theorem State.readNode_of_nodeAt {s : State} {i : Nat} {n : Node} (h : s.nodeAt i = some n) :
    s.readNode i = .ok n := by rw [State.readNode_eq, h]

theorem State.readNode_ok {s : State} {i : Nat} {n : Node} : s.readNode i = .ok n ↔ s.nodeAt i = some n := by
  rw [State.readNode_eq]
  cases h : s.nodeAt i <;> simp

theorem State.readCode_of_codeAt {s : State} {x : Nat} {e : CodeEntry} (h : s.codeAt x = some e) :
    s.readCode x = .ok e := by
  unfold State.codeAt at h; simp [State.readCode, h]

theorem State.readByte_of_byteAt {s : State} {q : Nat} {b : Byte} (h : s.byteAt q = some b) :
    s.readByte q = .ok b := by
  unfold State.byteAt at h; simp [State.readByte, h]

end Sys2Proof.Machine
end

