-- ==== Sys2Proof/Laws/Ops.lean ====
section
/-! SUPPORT. What the shared operations do: taking a fault, the refusal while one is latched, operand
selectors, the words a fault records. -/

namespace Sys2Proof.Machine

/-- Taking the first fault: it is recorded and answered, and nothing else changes (R221). -/
theorem State.raise_of_clear {s : State} (h : s.fault = false) (c info) : RaisedFrom s (s.raise c info) c info := by
  simp [RaisedFrom, State.raise, State.latch, h, State.respondLatched, State.respond]

/-- Taking a later fault: the latched one is answered and nothing else changes (R223). -/
theorem State.raise_of_fault {s : State} (h : s.fault = true) (c info) : s.raise c info = s.respondLatched := by
  simp [State.raise, State.latch, h]

/-- What a raised outcome is when no fault is latched. -/
theorem raised_of_clear {s : State} (h : s.fault = false) (c : Cause) (info : Word) :
    ∃ t, Machine.raised s c info = .next t ∧ RaisedFrom s t c info :=
  ⟨_, rfl, State.raise_of_clear h c info⟩

theorem unlessFaulted_of_clear {s : State} (h : s.fault = false) (k) : unlessFaulted s k = k := by simp [unlessFaulted, h]

theorem unlessFaulted_of_fault {s : State} (h : s.fault = true) (k) : unlessFaulted s k = .next s.respondLatched := by simp [unlessFaulted, h]

theorem Csr.ofNumber_eq_none {n : BitVec 16} : Csr.ofNumber n = none ↔ csrOk n = false := by
  unfold Csr.ofNumber csrOk
  split <;> simp_all
  omega

theorem NodeField.ofSelector_eq_none {n : BitVec 16} : NodeField.ofSelector n = none ↔ fieldOk n = false := by
  unfold NodeField.ofSelector fieldOk
  split <;> simp_all
  omega

theorem csrOk_of_ofNumber {n : BitVec 16} {r} (h : Csr.ofNumber n = some r) : csrOk n = true := by
  by_contra hc
  have hc : csrOk n = false := by simpa using hc
  rw [← Csr.ofNumber_eq_none, h] at hc; cases hc

theorem fieldOk_of_ofSelector {n : BitVec 16} {f} (h : NodeField.ofSelector n = some f) : fieldOk n = true := by
  by_contra hc
  have hc : fieldOk n = false := by simpa using hc
  rw [← NodeField.ofSelector_eq_none, h] at hc; cases hc

/-- The upper half of a word put together from its fields. -/
theorem upperHalf_append (o z : BitVec 8) (a : BitVec 16) (b : BitVec 32) :
    upperHalf (o ++ z ++ a ++ b) = o ++ z ++ a := by
  unfold upperHalf
  ext k hk
  simp
  grind

/-- `E_ILLEGAL` of a decoded command records its opcode, zeros and its field `A` (R84). -/
theorem illegalInfo_eq (i : Instr) : illegalInfo i = i.opcode ++ 0#8 ++ i.operandA :=
  upperHalf_append _ _ _ _

/-- A payload bit that holds a value is what GetBit reads. -/
theorem State.getBit_of_payBit {s : State} {p : Nat} {b : Bool} (h : s.payBit p = some b) :
    s.getBit p = .ok b := by
  unfold State.payBit at h
  cases hb : s.byteAt (p / 8) with
  | none => simp [hb] at h
  | some x => simp [hb] at h; simp [State.getBit, State.readByte_of_byteAt hb, bitOfByte, h]

end Sys2Proof.Machine
end

