-- ==== Sys2Proof/Laws/Decoder.lean ====
section
/-! SUPPORT. What one Step of the decoder can do, and what DRUN's loop can do. -/

namespace Sys2Proof.Machine

/-- Every way a Step can end: it faults or ends and changes nothing, or it consumes one bit and moves the
cursor, with or without a Symbol (R184). -/
theorem decodeStep_cases {s t : State} {r} (h : decodeStep s = .ok (r, t)) :
   (r = .malformed ∧ t = s) ∨ (r = .finished ∧ t = s ∧ s.bitlen ≤ s.rpos ∧ (s.rootv = false ∨ s.cur = s.root)) ∨
   (s.rpos < s.bitlen ∧ ((r = .quiet ∧ ∃ c, t = { s with rpos := s.rpos + 1, cur := c }) ∨ ∃ x c, r = .emitted x ∧ t = { s with rpos := s.rpos+1, cur := c, out := s.out ++ [x]})) := by
  unfold decodeStep at h
  split_ifs at h with h1 h2 h3 h4
  · cases h; simp
  · cases h; right; left
    refine ⟨rfl, rfl, h1, ?_⟩
    cases hr : s.rootv <;> simp_all
  · cases h; simp
  · cases h; simp
  · split at h
    · cases h
    · rename_i b _
      unfold stepWithBit at h
      split at h
      · cases h
      · split_ifs at h
        · cases h; right; right; refine ⟨by omega, Or.inr ⟨_, s.cur, rfl, rfl⟩⟩
        · unfold stepFromCursor at h
          split at h
          · cases h
          · split at h
            · generalize (if b then _ else _) = cc at h
              unfold descend at h
              split at h
              · cases h
              · split at h <;> cases h
                · right; right; refine ⟨by omega, Or.inr ⟨_, _, rfl, rfl⟩⟩
                · right; right; refine ⟨by omega, Or.inl ⟨rfl, _, rfl⟩⟩
                · simp
            · cases h; simp

/-- DRUN's loop ends in a state reached by consuming bits, at the end of the stream or with a fault (R185). -/
theorem runSteps_cases {k n s o} (h : runSteps k n s = .next o) :
   ∃ u, (∃ c, u = {s with out := u.out, rpos := u.rpos, cur := c}) ∧ s.out <+: u.out ∧ s.rpos ≤ u.rpos ∧
     ((decodeStep u = .ok (.malformed, u) ∧ o = u.raise .malformed (BitVec.ofNat 32 u.rpos)) ∨ (∃ m, decodeStep u = .ok (.finished, u) ∧ o = u.ok (BitVec.ofNat 32 m))) := by
  induction k generalizing n s with
  | zero => cases h
  | succ k ih =>
    unfold runSteps at h
    split at h
    · cases h
    · rename_i t ht
      rcases decodeStep_cases ht with hh | hh | hh
      · simp at hh
      · obtain ⟨_, rfl, hh⟩ := hh
        refine ⟨_, ⟨t.cur, rfl⟩, by simp, by simp, Or.inr ⟨n, ht, ?_⟩⟩
        cases h; rfl
      · simp at hh
    · rename_i t ht
      rcases decodeStep_cases ht with hh | hh | hh
      · simp at hh
      · simp at hh
      · simp at hh
        obtain ⟨_, c, rfl⟩ := hh
        obtain ⟨u, ⟨c', hu⟩, h2, h3, h4⟩ := ih h
        refine ⟨u, ⟨c', by rw [hu]⟩, h2, by simp at h3; omega, h4⟩
    · rename_i x t ht
      rcases decodeStep_cases ht with hh | hh | hh
      · simp at hh
      · simp at hh
      · simp at hh
        obtain ⟨_, y, rfl, c, rfl⟩ := hh
        obtain ⟨u, ⟨c', hu⟩, h2, h3, h4⟩ := ih h
        refine ⟨u, ⟨c', by rw [hu]⟩, ?_, by simp at h3; omega, h4⟩
        exact (List.prefix_append _ _).trans h2
    · rename_i t ht
      rcases decodeStep_cases ht with hh | hh | hh
      · obtain ⟨_, rfl⟩ := hh
        refine ⟨_, ⟨t.cur, rfl⟩, by simp, by simp, Or.inl ⟨ht, ?_⟩⟩
        cases h; rfl
      · simp at hh
      · simp at hh

/-! ### A Step does not look at the response -/

/-- A Step's result with another response in its state. -/
def withResp (r : Option Response) (x : StepResult × State) : StepResult × State := (x.1, {x.2 with resp := r})

theorem descend_withResp (s : State) (r c) : descend { s with resp := r } c = (descend s c).map (withResp r) := by
  unfold descend
  have : ({s with resp := r} : State).readNode c = s.readNode c := rfl
  rw [this]
  cases s.readNode c with
  | error e => rfl
  | ok n => simp only; cases n.kind <;> rfl

theorem stepFromCursor_withResp (s : State) (r b) : stepFromCursor { s with resp := r } b = (stepFromCursor s b).map (withResp r) := by
  unfold stepFromCursor
  have : ({s with resp := r} : State).readNode ({s with resp := r} : State).cur = s.readNode s.cur := rfl
  rw [this]
  cases s.readNode s.cur with
  | error e => rfl
  | ok n => simp only; split; · exact descend_withResp _ _ _
            · rfl

theorem stepWithBit_withResp (s : State) (r b) : stepWithBit { s with resp := r } b = (stepWithBit s b).map (withResp r) := by
  unfold stepWithBit
  have : ({s with resp := r} : State).readNode ({s with resp := r} : State).root = s.readNode s.root := rfl
  rw [this]
  cases s.readNode s.root with
  | error e => rfl
  | ok n => simp only; split; · rfl
            · exact stepFromCursor_withResp _ _ _

theorem decodeStep_withResp (s : State) (r) : decodeStep { s with resp := r } = (decodeStep s).map (withResp r) := by
  unfold decodeStep
  have : ({s with resp := r} : State).getBit ({s with resp := r} : State).rpos = s.getBit s.rpos := rfl
  rw [this]
  by_cases h1 : s.bitlen ≤ s.rpos
  · simp only [h1, if_true]
    split <;> rfl
  · simp only [h1, if_false]
    split
    · rfl
    · split
      · rfl
      · cases s.getBit s.rpos with
        | error e => rfl
        | ok n => exact stepWithBit_withResp _ _ _
end Sys2Proof.Machine
end

