-- ==== Sys2Proof/Laws/Tree.lean ====
section
/-! SUPPORT. The frames of the tree builder's micro-operations, of the deriver's walk and of the bit
writers: what each leaves unchanged when it answers a state. -/

namespace Sys2Proof.Machine

/-! ### The tree builder -/

theorem tbScan_frame (l n s q) : (tbScan l n s q).2.1 = {s with node := (tbScan l n s q).2.1.node} := by
  induction l generalizing n s q with
  | nil => rfl
  | cons x l ih =>
    unfold tbScan
    split_ifs
    · exact ih _ _ _
    · rw [ih]; rfl

theorem tbInit_frame (s) : (tbInit s).1 = {s with node := (tbInit s).1.node, nleaf := (tbInit s).1.nleaf, nnodes := (tbInit s).1.nnodes} := by
  unfold tbInit
  have := tbScan_frame (List.range s.cfg.nsym) 0 s []
  simp only
  rw [this]

theorem tbMerge_frame {s q t q'} (h : tbMerge s q = .ok (t, q')) : t = {s with node := t.node, nnodes := t.nnodes} := by
  unfold tbMerge at h
  split at h
  · cases h
  · split at h
    · cases h
    · unfold tbJoin at h
      split at h <;> cases h
      rfl

theorem tbLoop_frame {k s q t q'} (h : tbLoop k s q = .ok (t, q')) : t = {s with node := t.node, nnodes := t.nnodes} := by
  induction k generalizing s q with
  | zero => cases h; rfl
  | succ k ih =>
    unfold tbLoop at h
    split_ifs at h
    · split at h
      · cases h
      · rename_i h'
        rw [ih h, tbMerge_frame h']
    · cases h; rfl

/-- What BUILD's loop does: some merges, each on a queue of two or more (R125). -/
theorem tbLoop_mergesTo {k s q t q'} (h : tbLoop k s q = .ok (t, q')) : MergesTo s q t q' := by
  induction k generalizing s q with
  | zero => cases h; exact .none _ _
  | succ k ih =>
    unfold tbLoop at h
    split_ifs at h with h2
    · split at h
      · cases h
      · rename_i h'
        exact .more h2 h' (ih h)
    · cases h; exact .none _ _

/-- PQ_MIN's scan answers one of the ids it was given. -/
theorem pqLeast_mem {s : State} {i w m : Nat} {q : List Nat} (h : pqLeast s i w q = .ok m) : m = i ∨ m ∈ q := by
  induction q generalizing i w with
  | nil => cases h; exact .inl rfl
  | cons j q ih =>
    unfold pqLeast at h
    split at h
    · cases h
    · split at h <;> rcases ih h with h | h <;> simp [h]

/-- PQ_MIN takes one id out of the queue (R122). -/
theorem pqMin_length {s : State} {q q' : List Nat} {m : Nat} (h : pqMin s q = .ok (m, q')) : q'.length + 1 = q.length := by
  cases q with
  | nil => cases h
  | cons i q =>
    unfold pqMin at h
    simp only at h
    split at h
    · cases h
    · split at h
      · cases h
      · rename_i hm
        cases h
        rw [List.length_erase_of_mem (by rcases pqLeast_mem hm with h | h <;> simp [h])]
        simp

/-- TB_MERGE lowers `|Q|` by one (R123). -/
theorem tbMerge_length {s t : State} {q q' : List Nat} (h : tbMerge s q = .ok (t, q')) : q'.length + 1 = q.length := by
  unfold tbMerge at h
  split at h
  · cases h
  · rename_i h1
    split at h
    · cases h
    · rename_i h2
      unfold tbJoin at h
      have := pqMin_length h1; have := pqMin_length h2
      split at h <;> cases h
      simp; omega

/-- BUILD's loop ends with at most one id left (R125, R271). -/
theorem tbLoop_length {k : Nat} {s t : State} {q q' : List Nat} (hk : q.length ≤ k + 1) (h : tbLoop k s q = .ok (t, q')) : q'.length ≤ 1 := by
  induction k generalizing s q with
  | zero => cases h; omega
  | succ k ih =>
    unfold tbLoop at h
    split_ifs at h
    · split at h
      · cases h
      · rename_i h'
        have := tbMerge_length h'
        exact ih (by omega) h
    · cases h; omega

theorem buildTree_frame {s t} (h : buildTree s = .ok t) : t = {s with node := t.node, nleaf := t.nleaf, nnodes := t.nnodes, rootv := t.rootv, root := t.root, cur := t.cur} := by
  unfold buildTree at h
  simp only at h
  split at h
  · cases h
  · rename_i s2 q2 h'
    have h1 := tbLoop_frame h'
    rw [tbInit_frame] at h1
    unfold tbFinish at h
    split at h <;> cases h <;> rw [h1]

/-! ### The deriver and the encoder -/

theorem walk_frame {d n p s t} (h : walk d n p s = .ok t) : t = {s with code := t.code} := by
  induction d generalizing n p s t with
  | zero => cases h
  | succ d ih =>
    unfold walk at h
    split at h
    · cases h
    · split_ifs at h
      · cases h; rfl
      · split at h
        · cases h
        · rename_i s' h'
          rw [ih h, ih h']

theorem deriveCodes_frame {s t} (h : deriveCodes s = .ok t) : t = {s with code := t.code} := by
  unfold deriveCodes at h
  simp only at h
  split_ifs at h
  · split at h
    · cases h
    · split_ifs at h
      · cases h; rfl
      · rw [walk_frame h]
  · cases h; rfl

theorem State.putBit_frame {s t : State} {v} (h : s.putBit v = .ok t) : t = {s with pay := t.pay, bitlen := t.bitlen, pbytes := t.pbytes} := by
  unfold State.putBit at h
  simp only at h
  split_ifs at h
  · cases h; rfl
  · split at h
    · cases h; rfl
    · cases h

theorem putCode_frame {e n i s t} (h : putCode e n i s = .ok t) : t = {s with pay := t.pay, bitlen := t.bitlen, pbytes := t.pbytes} := by
  induction n generalizing i s with
  | zero => cases h; rfl
  | succ n ih =>
    unfold putCode at h
    split at h
    · cases h
    · rename_i s' h'
      have := ih h
      rw [this, State.putBit_frame h']

/-! ### The canonical form of the payload memory -/

/-- PutBit keeps the canonical form of the payload memory. -/
theorem State.putBit_wf {s t : State} {v} (hs : Memory.wf s.pay) (h : s.putBit v = .ok t) :
    Memory.wf t.pay := by
  unfold State.putBit at h
  simp only at h
  split_ifs at h
  · cases h; exact Memory.write_wf hs _ _
  · split at h
    · cases h; exact Memory.write_wf hs _ _
    · cases h

/-- So does ENC's loop. -/
theorem putCode_wf {e n i s t} (hs : Memory.wf s.pay) (h : putCode e n i s = .ok t) :
    Memory.wf t.pay := by
  induction n generalizing i s with
  | zero => cases h; exact hs
  | succ n ih =>
    unfold putCode at h
    split at h
    · cases h
    · rename_i s' h'
      exact ih (State.putBit_wf hs h') h

end Sys2Proof.Machine
end

