-- ==== Sys2Proof/Laws/Commands.lean ====
section
/-! SUPPORT. One inversion lemma for the commands: everything a command can have done when it answers a
next state. -/

namespace Sys2Proof.Machine

/-- Everything command `i` can have done when it leads from `s` to `t`: it was answered with the latched
fault; it faulted, for a reason it may; or it was performed, and then only these fields have changed. -/
inductive Effect (i : Instr) (s t : State) : Prop
  | latched : s.fault = true → (i = .rst → False) → t = s.respondLatched → Effect i s t
  | faulted c info : s.fault = false → i ≠ .drun → t = s.raise c info → c ∈ mayRaise i →
      (c = .illegal → info = illegalInfo i ∧ operandsInRange i s = false) → (operandsInRange i s = false → c = .illegal) →
      (c = .sequence → info = s.seqInfo i ∧ (phaseLegal i s.phase = false ∨ pmodeLegal i s.pmode = false)) →
      (phaseLegal i s.phase = false ∨ pmodeLegal i s.pmode = false → operandsInRange i s = true → c = .sequence) → Effect i s t
  | drunIllegal : s.fault = false → i = .drun → s.phase = .load → t = s.raise .sequence (s.seqInfo i) → Effect i s t
  | answered v (u : State) : (changesState i = true → s.fault = false) → t = u.ok v → operandsInRange i s = true → phaseLegal i s.phase = true → pmodeLegal i s.pmode = true →
     ((i ≠ .rst ∧ changesState i = false ∧ u = s) ∨ (i = .rst ∧ u = s.toReset) ∨
      (∃ x c, i = .fset x c ∧ s.phase = .load ∧ u = {s with freq := u.freq}) ∨
      (i = .build ∧ s.phase = .load ∧ u = {s with node := u.node, nleaf := u.nleaf, nnodes := u.nnodes, rootv := u.rootv, root := u.root, cur := u.cur, phase := .built}) ∨
      (i = .derive ∧ s.phase = .built ∧ u = {s with code := u.code, phase := .coded}) ∨
      (∃ x, i = .enc x ∧ u = {s with pay := u.pay, bitlen := u.bitlen, pbytes := u.pbytes, pmode := .enc}) ∨
      (∃ x, i = .pput x ∧ u = {s with pay := u.pay, pbytes := u.pbytes, pmode := .host}) ∨
      (∃ x, i = .plen x ∧ u = {s with bitlen := u.bitlen, pmode := .host}) ∨
      ((i = .dstep) ∧ u = {s with rpos := u.rpos, out := u.out, cur := u.cur} ∧ s.out <+: u.out ∧ s.rpos ≤ u.rpos ∧ ∃ r, decodeStep s = .ok (r, u) ∧ r ≠ .malformed)) → Effect i s t
  | drunEnded u : s.fault = false → i = .drun → s.phase ≠ .load → (∃ c, u = {s with out := u.out, rpos := u.rpos, cur := c}) → s.out <+: u.out → s.rpos ≤ u.rpos →
     ((decodeStep u = .ok (.malformed, u) ∧ t = u.raise .malformed (BitVec.ofNat 32 u.rpos)) ∨ (∃ m, decodeStep u = .ok (.finished, u) ∧ t = u.ok (BitVec.ofNat 32 m))) → Effect i s t

/-- A command that answers a next state has done one of the things of `Effect`. -/
theorem exec_effect {i s t} (h : exec i s = .next t) : Effect i s t := by
  by_cases hf : s.fault = true
  · -- faulted
    have R : ∀ c info, s.raise c info = s.respondLatched := State.raise_of_fault hf
    cases i
    case rst => simp only [exec, execRst, done, Host.Outcome.next.injEq] at h; exact .answered 0 s.toReset (by simp [changesState]) h.symm rfl rfl rfl (by simp)
    case nop => simp only [exec, execNop, done, Host.Outcome.next.injEq] at h; exact .answered 0 s (by simp [changesState]) h.symm rfl rfl rfl (by simp [changesState])
    case rdcsr a =>
      simp only [exec, execRdcsr] at h
      split at h
      · simp only [raiseIllegal, Machine.raised, Host.Outcome.next.injEq, R] at h; exact .latched hf (by simp) h.symm
      · rename_i r hr
        simp only [done, Host.Outcome.next.injEq] at h
        have : csrOk a = true := csrOk_of_ofNumber hr
        exact .answered _ s (by simp [changesState]) h.symm (by simp [operandsInRange, Instr.wellFormed, this]) rfl rfl (by simp [changesState])
    case fget a =>
      simp only [exec, execFget] at h
      split_ifs at h
      · simp only [raiseIllegal, Machine.raised, Host.Outcome.next.injEq, R] at h; exact .latched hf (by simp) h.symm
      · simp only [done, Host.Outcome.next.injEq] at h
        exact .answered _ s (by simp [changesState]) h.symm (by simp_all [operandsInRange, Instr.wellFormed]) rfl rfl (by simp [changesState])
    case nget a b =>
      simp only [exec, execNget] at h
      split at h
      · simp only [raiseIllegal, Machine.raised, Host.Outcome.next.injEq, R] at h; exact .latched hf (by simp) h.symm
      · rename_i f hr
        split_ifs at h
        · simp only [raiseIllegal, Machine.raised, Host.Outcome.next.injEq, R] at h; exact .latched hf (by simp) h.symm
        · simp only [orStop] at h
          split at h
          · simp only [done, Host.Outcome.next.injEq] at h
            have : fieldOk a = true := fieldOk_of_ofSelector hr
            exact .answered _ s (by simp [changesState]) h.symm (by simp [operandsInRange, Instr.wellFormed, this]; omega) rfl rfl (by simp [changesState])
          · cases h
    case clen a =>
      simp only [exec, execClen] at h
      split_ifs at h
      · simp only [raiseIllegal, Machine.raised, Host.Outcome.next.injEq, R] at h; exact .latched hf (by simp) h.symm
      · simp only [raiseSequence, Machine.raised, Host.Outcome.next.injEq, R] at h; exact .latched hf (by simp) h.symm
      · simp only [orStop] at h
        split at h
        · simp only [done, Host.Outcome.next.injEq] at h
          exact .answered _ s (by simp [changesState]) h.symm (by simp_all [operandsInRange, Instr.wellFormed]) (by simp_all [phaseLegal]) rfl (by simp [changesState])
        · cases h
    case cbits a b =>
      simp only [exec, execCbits] at h
      split_ifs at h
      · simp only [raiseIllegal, Machine.raised, Host.Outcome.next.injEq, R] at h; exact .latched hf (by simp) h.symm
      · simp only [raiseSequence, Machine.raised, Host.Outcome.next.injEq, R] at h; exact .latched hf (by simp) h.symm
      · simp only [orStop] at h
        split at h
        · simp only [done, Host.Outcome.next.injEq] at h
          exact .answered _ s (by simp [changesState]) h.symm (by simp_all [operandsInRange, Instr.wellFormed]) (by simp_all [phaseLegal]) rfl (by simp [changesState])
        · cases h
    case pget a =>
      simp only [exec, execPget] at h
      split_ifs at h
      · simp only [raiseIllegal, Machine.raised, Host.Outcome.next.injEq, R] at h; exact .latched hf (by simp) h.symm
      · simp only [orStop] at h
        split at h
        · simp only [done, Host.Outcome.next.injEq] at h
          exact .answered _ s (by simp [changesState]) h.symm (by simp [operandsInRange, Instr.wellFormed]; omega) rfl rfl (by simp [changesState])
        · cases h
    all_goals
      simp only [exec, execFset, execBuild, execDerive, execEnc, execPput, execPlen, execDstep, execDrun, unlessFaulted, hf, if_true, Host.Outcome.next.injEq] at h
      exact .latched hf (by simp) h.symm
  · have hf : s.fault = false := by simpa using hf
    have M : ∀ {c info}, Machine.raised s c info = .next t → t = s.raise c info := by
      intro c info h; simp only [Machine.raised, Host.Outcome.next.injEq] at h; exact h.symm
    have D : ∀ {u : State} {v}, done u v = .next t → t = u.ok v := by
      intro u v h; simp only [done, Host.Outcome.next.injEq] at h; exact h.symm
    cases i
    case rst => exact .answered 0 s.toReset (by simp [hf]) (D h) rfl rfl rfl (by simp)
    case nop => exact .answered 0 s (by simp [hf]) (D h) rfl rfl rfl (by simp [changesState])
    case rdcsr a =>
      simp only [exec, execRdcsr] at h
      split at h
      · rename_i hr; rw [Csr.ofNumber_eq_none] at hr
        exact .faulted .illegal _ hf (by simp) (M h) (by simp [mayRaise]) (by simp [operandsInRange, Instr.wellFormed, hr]) (by simp) (by simp) (by simp [phaseLegal, pmodeLegal])
      · rename_i r hr
        have : csrOk a = true := csrOk_of_ofNumber hr
        exact .answered _ s (by simp [changesState]) (D h) (by simp [operandsInRange, Instr.wellFormed, this]) rfl rfl (by simp [changesState])
    case fget a =>
      simp only [exec, execFget] at h
      split_ifs at h with hr
      · exact .faulted .illegal _ hf (by simp) (M h) (by simp [mayRaise]) (by simp_all [operandsInRange, Instr.wellFormed]) (by simp) (by simp) (by simp [phaseLegal, pmodeLegal])
      · exact .answered _ s (by simp [changesState]) (D h) (by simp_all [operandsInRange, Instr.wellFormed]) rfl rfl (by simp [changesState])
    case nget a b =>
      simp only [exec, execNget] at h
      split at h
      · rename_i hr; rw [NodeField.ofSelector_eq_none] at hr
        exact .faulted .illegal _ hf (by simp) (M h) (by simp [mayRaise]) (by simp [operandsInRange, Instr.wellFormed, hr]) (by simp) (by simp) (by simp [phaseLegal, pmodeLegal])
      · rename_i f hr
        split_ifs at h
        · exact .faulted .illegal _ hf (by simp) (M h) (by simp [mayRaise]) (by simp [operandsInRange, Instr.wellFormed]; omega) (by simp) (by simp) (by simp [phaseLegal, pmodeLegal])
        · simp only [orStop] at h
          split at h
          · have : fieldOk a = true := fieldOk_of_ofSelector hr
            exact .answered _ s (by simp [changesState]) (D h) (by simp [operandsInRange, Instr.wellFormed, this]; omega) rfl rfl (by simp [changesState])
          · cases h
    case clen a =>
      simp only [exec, execClen] at h
      split_ifs at h with hr h2
      · exact .faulted .illegal _ hf (by simp) (M h) (by simp [mayRaise]) (by simp_all [operandsInRange, Instr.wellFormed]) (by simp) (by simp) (by simp_all [operandsInRange, Instr.wellFormed])
      · exact .faulted .sequence _ hf (by simp) (M h) (by simp [mayRaise]) (by simp) (by simp_all [operandsInRange, Instr.wellFormed]) (by simp_all [phaseLegal]) (by simp)
      · simp only [orStop] at h
        split at h
        · exact .answered _ s (by simp [changesState]) (D h) (by simp_all [operandsInRange, Instr.wellFormed]) (by simp_all [phaseLegal]) rfl (by simp [changesState])
        · cases h
    case cbits a b =>
      simp only [exec, execCbits] at h
      split_ifs at h with hr h2
      · exact .faulted .illegal _ hf (by simp) (M h) (by simp [mayRaise]) (by simp [operandsInRange, Instr.wellFormed]; grind) (by simp) (by simp) (by simp [operandsInRange, Instr.wellFormed]; grind)
      · exact .faulted .sequence _ hf (by simp) (M h) (by simp [mayRaise]) (by simp) (by simp_all [operandsInRange, Instr.wellFormed]) (by simp_all [phaseLegal]) (by simp)
      · simp only [orStop] at h
        split at h
        · exact .answered _ s (by simp [changesState]) (D h) (by simp_all [operandsInRange, Instr.wellFormed]) (by simp_all [phaseLegal]) rfl (by simp [changesState])
        · cases h
    case pget a =>
      simp only [exec, execPget] at h
      split_ifs at h with hr
      · exact .faulted .illegal _ hf (by simp) (M h) (by simp [mayRaise]) (by simp_all [operandsInRange, Instr.wellFormed]) (by simp) (by simp) (by simp [phaseLegal, pmodeLegal])
      · simp only [orStop] at h
        split at h
        · exact .answered _ s (by simp [changesState]) (D h) (by simp [operandsInRange, Instr.wellFormed]; omega) rfl rfl (by simp [changesState])
        · cases h
    case fset a b =>
      simp only [exec, execFset, unlessFaulted_of_clear hf] at h
      split_ifs at h with hr h2
      · exact .faulted .illegal _ hf (by simp) (M h) (by simp [mayRaise]) (by simp [operandsInRange, Instr.wellFormed]; grind) (by simp) (by simp) (by simp [operandsInRange, Instr.wellFormed]; grind)
      · exact .faulted .sequence _ hf (by simp) (M h) (by simp [mayRaise]) (by simp) (by simp_all [operandsInRange, Instr.wellFormed]) (by simp_all [phaseLegal]) (by simp)
      · refine .answered _ _ (by simp [hf]) (D h) (by simp_all [operandsInRange, Instr.wellFormed]) (by simp_all [phaseLegal]) rfl ?_
        right; right; left; exact ⟨a, b, rfl, by simpa using h2, rfl⟩
    case build =>
      simp only [exec, execBuild, unlessFaulted_of_clear hf] at h
      split_ifs at h with h2
      · exact .faulted .sequence _ hf (by simp) (M h) (by simp [mayRaise]) (by simp) (by simp_all [operandsInRange, Instr.wellFormed]) (by simp_all [phaseLegal]) (by simp)
      · simp only [orStop] at h
        split at h
        · rename_i u hu
          refine .answered _ _ (by simp [hf]) (D h) rfl (by simp_all [phaseLegal]) rfl ?_
          right; right; right; left; refine ⟨rfl, by simpa using h2, ?_⟩
          have := buildTree_frame hu
          simp only; rw [this]
        · cases h
    case derive =>
      simp only [exec, execDerive, unlessFaulted_of_clear hf] at h
      split_ifs at h with h2
      · exact .faulted .sequence _ hf (by simp) (M h) (by simp [mayRaise]) (by simp) (by simp_all [operandsInRange, Instr.wellFormed]) (by simp_all [phaseLegal]) (by simp)
      · simp only [orStop] at h
        split at h
        · rename_i u hu
          refine .answered _ _ (by simp [hf]) (D h) rfl (by simp_all [phaseLegal]) rfl ?_
          right; right; right; right; left; refine ⟨rfl, by simpa using h2, ?_⟩
          have := deriveCodes_frame hu
          simp only; rw [this]
        · cases h
    case enc a =>
      simp only [exec, execEnc, unlessFaulted_of_clear hf] at h
      split_ifs at h with hr h2
      · exact .faulted .illegal _ hf (by simp) (M h) (by simp [mayRaise]) (by simp_all [operandsInRange, Instr.wellFormed]) (by simp) (by simp) (by simp_all [operandsInRange, Instr.wellFormed])
      · exact .faulted .sequence _ hf (by simp) (M h) (by simp [mayRaise]) (by simp) (by simp_all [operandsInRange, Instr.wellFormed]) (by rcases h2 with h2 | h2 <;> simp_all [phaseLegal, pmodeLegal]) (by simp)
      · have hlegal : phaseLegal (.enc a) s.phase = true ∧ pmodeLegal (.enc a) s.pmode = true := by simp_all [phaseLegal, pmodeLegal]
        have hop : operandsInRange (.enc a) s = true := by simp_all [operandsInRange, Instr.wellFormed]
        simp only [orStop] at h
        split at h
        · split_ifs at h with h3 h4
          · exact .faulted .missingCode _ hf (by simp) (M h) (by simp [mayRaise]) (by simp) (by simp [hop]) (by simp) (by simp [hlegal])
          · exact .faulted .capacity _ hf (by simp) (M h) (by simp [mayRaise]) (by simp) (by simp [hop]) (by simp) (by simp [hlegal])
          · split at h
            · rename_i u hu
              refine .answered _ _ (by simp [hf]) (D h) hop hlegal.1 hlegal.2 ?_
              right; right; right; right; right; left; refine ⟨a, rfl, ?_⟩
              have := putCode_frame hu
              simp only; rw [this]
            · cases h
        · cases h
    case pput a =>
      simp only [exec, execPput, unlessFaulted_of_clear hf] at h
      split_ifs at h with h2 h3
      · exact .faulted .sequence _ hf (by simp) (M h) (by simp [mayRaise]) (by simp) (by simp_all [operandsInRange, Instr.wellFormed]) (by simp_all [phaseLegal, pmodeLegal]) (by simp)
      · exact .faulted .capacity _ hf (by simp) (M h) (by simp [mayRaise]) (by simp) (by simp_all [operandsInRange, Instr.wellFormed]) (by simp) (by simp_all [phaseLegal, pmodeLegal])
      · refine .answered _ _ (by simp [hf]) (D h) rfl rfl (by simp_all [pmodeLegal]) ?_
        right; right; right; right; right; right; left; exact ⟨a, rfl, rfl⟩
    case plen a =>
      simp only [exec, execPlen, unlessFaulted_of_clear hf] at h
      split_ifs at h with h2
      · exact .faulted .sequence _ hf (by simp) (M h) (by simp [mayRaise]) (by simp) (by simp_all [operandsInRange, Instr.wellFormed]) (by simp_all [phaseLegal, pmodeLegal]) (by simp)
      · refine .answered _ _ (by simp [hf]) (D h) rfl rfl (by simp_all [pmodeLegal]) ?_
        right; right; right; right; right; right; right; left; exact ⟨a, rfl, rfl⟩
    case dstep =>
      simp only [exec, execDstep, unlessFaulted_of_clear hf] at h
      split_ifs at h with h2
      · exact .faulted .sequence _ hf (by simp) (M h) (by simp [mayRaise]) (by simp) (by simp_all [operandsInRange, Instr.wellFormed]) (by simp_all [phaseLegal, pmodeLegal]) (by simp)
      · have hl : phaseLegal .dstep s.phase = true := by simp_all [phaseLegal]
        simp only [orStop] at h
        split at h
        · rename_i r hr
          obtain ⟨r, u⟩ := r
          cases r
          · rcases decodeStep_cases hr with hh | hh | hh <;> simp at hh
            refine .answered _ _ (by simp [hf]) (D h) rfl hl rfl ?_
            right; right; right; right; right; right; right; right
            refine ⟨rfl, by simp [hh], by simp [hh], by simp [hh], _, hr, by simp⟩
          · rcases decodeStep_cases hr with hh | hh | hh <;> simp at hh
            refine .answered _ _ (by simp [hf]) (D h) rfl hl rfl ?_
            right; right; right; right; right; right; right; right
            obtain ⟨_, c, rfl⟩ := hh
            refine ⟨rfl, by simp, by simp, by simp, _, hr, by simp⟩
          · rcases decodeStep_cases hr with hh | hh | hh <;> simp at hh
            refine .answered _ _ (by simp [hf]) (D h) rfl hl rfl ?_
            right; right; right; right; right; right; right; right
            obtain ⟨_, x, _, c, rfl⟩ := hh
            refine ⟨rfl, by simp, by simp, by simp, _, hr, by simp⟩
          · rcases decodeStep_cases hr with hh | hh | hh <;> simp at hh
            subst hh
            exact .faulted .malformed _ hf (by simp) (M h) (by simp [mayRaise]) (by simp) (by simp [operandsInRange, Instr.wellFormed]) (by simp) (by simp [hl, pmodeLegal])
        · cases h
    case drun =>
      simp only [exec, execDrun, unlessFaulted_of_clear hf] at h
      split_ifs at h with h2
      · exact .drunIllegal hf rfl h2 (M h)
      · obtain ⟨u, h3, h4, h5, h6⟩ := runSteps_cases h
        exact .drunEnded u hf rfl h2 h3 h4 h5 h6

end Sys2Proof.Machine
end

