-- ==== Sys2Proof/Laws/Invariant.lean ====
section
/-! SUPPORT. The invariant does not speak of what the host has issued or been answered; the facts about
the tree and the codes speak of the tables and the tree's registers alone. -/

namespace Sys2Proof.Machine

/-- A path depends on the tree alone. -/
theorem PathTo.congr {s t : State} (hv : t.rootv = s.rootv) (hr : t.root = s.root) (hn : t.node = s.node)
    {i : Nat} {p : List Bool} (h : PathTo s i p) : PathTo t i p := by
  have hat : ∀ k, t.nodeAt k = s.nodeAt k := fun k => by simp [State.nodeAt, hn]
  induction h with
  | root h => rw [← hr]; exact .root (hv.trans h)
  | left _ hk hi ih => exact .left ih ((hat _).trans hk) hi
  | right _ hk hi ih => exact .right ih ((hat _).trans hk) hi

/-- The facts about the tree hold with whatever else the state holds. -/
theorem TreeFacts.congr {s t : State} (h : TreeFacts s) (he : t = { t with cfg := s.cfg, nleaf := s.nleaf, nnodes := s.nnodes, rootv := s.rootv, root := s.root, freq := s.freq, node := s.node }) :
    TreeFacts t := by
  rw [he]
  exact ⟨h.leaves, h.nodes, h.leaf, h.internal, h.root, h.parent, h.total⟩

/-- The facts about the codes hold with whatever else the state holds. -/
theorem CodeFacts.congr {s t : State} (h : CodeFacts s) (he : t = { t with cfg := s.cfg, nleaf := s.nleaf, rootv := s.rootv, root := s.root, freq := s.freq, node := s.node, code := s.code }) :
    CodeFacts t := by
  rw [he]
  refine ⟨h.absent, h.single, fun x hx hc hl => ?_⟩
  obtain ⟨i, n, p, e, h1, h2, h3, h4, h5, h6⟩ := h.path x hx hc hl
  refine ⟨i, n, p, e, h1, h2, h3, ?_, h5, h6⟩
  apply PathTo.congr (s := s) _ _ _ h4 <;> rfl

/-- The invariant holds with whatever the host has issued and been answered. -/
theorem Inv.withHost {s : State} (h : Inv s) (l : List HostInput) (r : Option Response) :
    Inv { s with inputs := l, resp := r } where
  legal := h.legal
  tables := ⟨h.tables.freq, h.tables.freqRange, h.tables.node, h.tables.nodeWritten, h.tables.code,
    h.tables.codeWritten, h.tables.pay, h.tables.payWritten⟩
  load := h.load
  tree := fun hp => (h.tree hp).congr rfl
  codes := fun hp => (h.codes hp).congr rfl
  payload := ⟨h.payload.capacity, h.payload.unowned, h.payload.encoded, h.payload.padding⟩
  cursor := ⟨h.cursor.cursor, h.cursor.noTree, h.cursor.emitted⟩
  faults := ⟨h.faults.clear, h.faults.latched⟩
  bitlenWidth := h.bitlenWidth
  rposWidth := h.rposWidth

end Sys2Proof.Machine
end

