-- ==== Sys2Proof/Laws/PerInstr.lean ====
section
/-! SUPPORT. Statements made for every command, one lemma each. -/

namespace Sys2Proof.Laws.EncodeFields

/-- Every command's word holds its opcode in `OP`, zeros in `Z` and its operands in `A` and `B`
(30_encoding.md R80, R81). -/
def Statement (i : Instr) : Prop :=
  opField (encode i) = i.opcode ∧ zField (encode i) = 0 ∧ aField (encode i) = i.operandA ∧
    bField (encode i) = i.operandB

/-- The fields of a word put together from them. -/
theorem fields_append (o z : BitVec 8) (a : BitVec 16) (b : BitVec 32) :
    opField (o ++ z ++ a ++ b) = o ∧ zField (o ++ z ++ a ++ b) = z ∧ aField (o ++ z ++ a ++ b) = a ∧
      bField (o ++ z ++ a ++ b) = b := by
  unfold opField zField aField bField
  refine ⟨?_, ?_, ?_, ?_⟩ <;> ext k hk <;> simp <;> grind

theorem nop : Statement .nop := fields_append _ _ _ _
theorem rst : Statement .rst := fields_append _ _ _ _
theorem rdcsr (csr : BitVec 16) : Statement (.rdcsr csr) := fields_append _ _ _ _
theorem fset (sym : Symbol) (count : Count) : Statement (.fset sym count) := fields_append _ _ _ _
theorem fget (sym : Symbol) : Statement (.fget sym) := fields_append _ _ _ _
theorem build : Statement .build := fields_append _ _ _ _
theorem nget (field : BitVec 16) (id : BitVec 32) : Statement (.nget field id) := fields_append _ _ _ _
theorem derive : Statement .derive := fields_append _ _ _ _
theorem clen (sym : Symbol) : Statement (.clen sym) := fields_append _ _ _ _
theorem cbits (sym : Symbol) (word : BitVec 32) : Statement (.cbits sym word) := fields_append _ _ _ _
theorem enc (sym : Symbol) : Statement (.enc sym) := fields_append _ _ _ _
theorem pget (index : BitVec 32) : Statement (.pget index) := fields_append _ _ _ _
theorem pput (byte : Byte) : Statement (.pput byte) := fields_append _ _ _ _
theorem plen (nbits : BitVec 32) : Statement (.plen nbits) := fields_append _ _ _ _
theorem dstep : Statement .dstep := fields_append _ _ _ _
theorem drun : Statement .drun := fields_append _ _ _ _

end Sys2Proof.Laws.EncodeFields
end

