-- ==== Sys2Proof/Tests/Slice0.lean ====
section
/-! SUPPORT. The model's own tests. Expected values are taken from spec/95_test_vectors.md (the vector's
name stands in the comment) or worked out by hand from the rule named. The witnesses of the obligations'
hypotheses stand at the end. -/

namespace Sys2Proof.Tests

open Sys2Proof.Machine

/-! ### Ill-formed commands (30_encoding.md R84) -/

theorem test_wellFormed_symbol : Config.default.symOk 0xFF = true ∧ Config.default.symOk 0x100 = false := by
  decide
theorem test_wellFormed_count : { Config.default with cw := 4 }.countOk 15 = true ∧
    { Config.default with cw := 4 }.countOk 16 = false := by decide
theorem test_wellFormed_word : Config.default.wordOk 7 = true ∧ Config.default.wordOk 8 = false := by decide
theorem test_wellFormed_csr : csrOk 11 = true ∧ csrOk 12 = false := by decide
theorem test_wellFormed_field : fieldOk 5 = true ∧ fieldOk 6 = false := by decide
theorem test_illFormed_commands :
    (Instr.rdcsr 12).wellFormed Config.default = false ∧
    (Instr.fset 0x100 1).wellFormed Config.default = false ∧
    (Instr.fset 0 16).wellFormed { Config.default with cw := 4 } = false ∧
    (Instr.fget 0x100).wellFormed Config.default = false ∧
    (Instr.nget 6 0).wellFormed Config.default = false ∧
    (Instr.clen 0x100).wellFormed Config.default = false ∧
    (Instr.cbits 0x61 8).wellFormed Config.default = false ∧
    (Instr.enc 0x100).wellFormed Config.default = false := by decide

/-! ### Decoding: every constructor's word, from the fields of 30_encoding.md R82 -/

theorem test_decode_control : decode 0x0000000000000000 = .ok .nop ∧ decode 0x0100000000000000 = .ok .rst ∧
    decode 0x0200000200000000 = .ok (.rdcsr 2) := by decide
theorem test_decode_table : decode 0x10000000FFFFFFFF = .ok (.fset 0 0xFFFFFFFF) ∧
    decode 0x1100010000000000 = .ok (.fget 0x100) := by decide
theorem test_decode_builder : decode 0x2000000000000000 = .ok .build ∧
    decode 0x2100000200000006 = .ok (.nget 2 6) := by decide
theorem test_decode_deriver : decode 0x3000000000000000 = .ok .derive ∧
    decode 0x3100007A00000000 = .ok (.clen 0x7A) ∧ decode 0x3200006100000008 = .ok (.cbits 0x61 8) := by decide
theorem test_decode_encoder : decode 0x4000010000000000 = .ok (.enc 0x100) ∧
    decode 0x4100000000000001 = .ok (.pget 1) := by decide
theorem test_decode_decoder : decode 0x500000AF00000000 = .ok (.pput 0xAF) ∧
    decode 0x510000000000000C = .ok (.plen 12) ∧ decode 0x5200000000000000 = .ok .dstep ∧
    decode 0x5300000000000000 = .ok .drun := by decide
/-- T6 to T9 and R85: an unassigned opcode, `Z ≠ 0`, an unused `B`, an unused `A`, PPUT's upper byte. -/
theorem test_decode_illegal : decode 0x0300000000000000 = .error .unassignedOpcode ∧
    decode 0xFF00000000000000 = .error .unassignedOpcode ∧
    decode 0x0001000000000000 = .error .reservedField ∧
    decode 0x2000000000000001 = .error .unusedOperand ∧
    decode 0x5100000100000000 = .error .unusedOperand ∧
    decode 0x5000010000000000 = .error .unusedOperand := by decide
/-- The opcode map's masks are pairwise disjoint on their matches. -/
theorem test_opcodeRows_disjoint : opcodeRows.Pairwise fun r r' =>
    r.pattern &&& (r.mask &&& r'.mask) ≠ r'.pattern &&& (r.mask &&& r'.mask) := by decide
theorem test_decodeTableWord : decodeTableWord 64 0x1000006100000004 = some (.fset 0x61 4) ∧
    decodeTableWord 64 0x0300000000000000 = none := by decide

/-! ### Single steps -/

/-- What is seen after one step on this command word. -/
def after {α : Type} (s : State) (w : CmdWord) (f : State → α) : Option α :=
  match step (s.pushCommand w) with
  | .next t => some (f t)
  | .fault _ => none
  | .refused _ => none

/-- The table, nodes, codes of V3, {a:2, b:2, c:1, d:1}: after the FSETs, after BUILD, after DERIVE (with
the codes of a, b, c, d and z listed). -/
def v3Load : State := { State.reset with freq := [(0x61, 2), (0x62, 2), (0x63, 1), (0x64, 1)] }
def v3Nodes : Table Node :=
  [ (0, leafNode 0x61 2), (1, leafNode 0x62 2), (2, leafNode 0x63 1), (3, leafNode 0x64 1),
    (4, mergedNode 2 3 1 1), (5, mergedNode 0 1 2 2), (6, mergedNode 4 5 2 4) ]
def v3Built : State :=
  { v3Load with phase := .built, node := v3Nodes, nleaf := 4, nnodes := 7, rootv := true, root := 6, cur := 6 }
def v3Coded : State :=
  { v3Built with phase := .coded, code := [(0x61, ⟨true, 2, 1⟩), (0x62, ⟨true, 2, 3⟩), (0x63, ⟨true, 2, 0⟩), (0x64, ⟨true, 2, 2⟩), (0x7A, noCode)] }
/-- V3 with "aabbcd" encoded (E2). -/
def v3Full : State := { v3Coded with pmode := .enc, bitlen := 12, pbytes := 2, pay := [(0, 0xAF), (1, 0x10)] }
/-- V3 built, with the bytes of E2 loaded by the host. -/
def v3Loaded : State := { v3Built with pmode := .host, bitlen := 12, pbytes := 2, pay := [(0, 0xAF), (1, 0x10)] }
/-- A latched `E_MALFORMED` at bit 16 (X2). -/
def v3Faulted : State := { v3Loaded with fault := true, cause := .malformed, finfo := 16 }

/-- T5, T10: NOP, also while a fault is latched. -/
theorem test_nop : after State.reset 0 (·.resp) = some (some 0) ∧ after v3Faulted 0 (·.resp) = some (some 0) := by
  decide
/-- T11. -/
theorem test_rst : after v3Faulted 0x0100000000000000 id = some { State.reset with resp := some 0 } := by decide
/-- T1, T2, T3. -/
theorem test_rdcsr_config : after State.reset 0x0200000000000000 (·.resp) = some (some 0x0000012008) ∧
    after State.reset 0x0200000100000000 (·.resp) = some (some 0x0000010000) ∧
    after State.reset 0x0200000200000000 (·.resp) = some (some 0x0000000040) := by decide
/-- T4 and E9's STATUS. -/
theorem test_rdcsr_range_status :
    after State.reset 0x0200000C00000000 (fun t => (t.resp, t.cause, t.finfo, t.status))
      = some (some 0x700200000C, .illegal, 0x0200000C, 0x44) ∧
    after v3Full 0x0200000200000000 (·.resp) = some (some 0x000000001A) := by decide
/-- F1, F2: a count written, overwritten, removed. -/
theorem test_fset : after State.reset 0x1000006100000004 (fun t => (t.resp, t.freq)) = some (some 0, [(0x61, 4)]) ∧
    after v3Load 0x1000006200000000 (fun t => t.freq) = some [(0x61, 2), (0x63, 1), (0x64, 1)] := by decide
/-- F4, X4. -/
theorem test_fset_faults : after { State.reset with phase := .built } 0x1000006100000001 (·.resp) = some (some 0x6000001001) ∧
    after { State.reset with phase := .built } 0x1000010000000001 (·.resp) = some (some 0x7010000100) := by decide
/-- F1, F3. -/
theorem test_fget : after v3Load 0x1100006100000000 (·.resp) = some (some 2) ∧
    after v3Load 0x1100006500000000 (·.resp) = some (some 0) ∧
    after State.reset 0x1100010000000000 (·.resp) = some (some 0x7011000100) := by decide
/-- V3: the tree BUILD makes. -/
theorem test_build : after v3Load 0x2000000000000000 id = some { v3Built with resp := some 4 } := by decide +kernel
/-- B6. -/
theorem test_build_again : after v3Built 0x2000000000000000 (·.resp) = some (some 0x6000002001) := by decide
/-- B1, B2. -/
theorem test_nget : after v3Built 0x2100000000000006 (·.resp) = some (some 3) ∧
    after v3Built 0x2100000200000006 (·.resp) = some (some 5) ∧
    after v3Built 0x2100000400000006 (·.resp) = some (some 6) ∧
    after v3Built 0x2100000300000002 (·.resp) = some (some 0x63) := by decide
/-- B3, B5, B7's `WHI`. -/
theorem test_nget_edges : after v3Built 0x2100000000000007 (·.resp) = some (some 0x7021000000) ∧
    after v3Built 0x2100000600000000 (·.resp) = some (some 0x7021000006) ∧
    (mergedNode 1 3 0xFFFFFFFF 0x100000001).readField .whi = 2 := by decide
/-- V3: the codes DERIVE writes (the answer is N). -/
theorem test_derive : after v3Built 0x3000000000000000 (fun t => [t.codeAt 0x61, t.codeAt 0x62, t.codeAt 0x64, t.codeAt 0xFF])
    = some [some ⟨true, 2, 1⟩, some ⟨true, 2, 3⟩, some ⟨true, 2, 2⟩, some noCode] := by decide +kernel
/-- C5. -/
theorem test_derive_sequence : after State.reset 0x3000000000000000 (·.resp) = some (some 0x6000003000) := by decide
/-- C1, C2, C4; and CLEN outside CODED while a fault is latched (R223). -/
theorem test_clen : after v3Coded 0x3100006100000000 (·.resp) = some (some 0x0080000002) ∧
    after v3Coded 0x3100007A00000000 (·.resp) = some (some 0) ∧
    after v3Built 0x3100006100000000 (·.resp) = some (some 0x6000003101) ∧
    after v3Faulted 0x3100006100000000 (·.resp) = some (some 0x2000000010) := by decide
/-- C1, C3, C8's word 1 of symbol 0 (38 ones, then a zero). -/
theorem test_cbits : after v3Coded 0x3200006200000000 (·.resp) = some (some 3) ∧
    after v3Coded 0x3200006100000008 (·.resp) = some (some 0x7032000061) ∧
    (CodeEntry.mk true 39 (2 ^ 38 - 1)).bitsWord 1 = 0x3F := by decide
/-- E1, and the third ENC of E2. -/
theorem test_enc : after v3Coded 0x4000006100000000 id
      = some { v3Coded with resp := some 2, bitlen := 2, pbytes := 1, pay := [(0, 0x80)], pmode := .enc } ∧
    after { v3Coded with pmode := .enc, bitlen := 4, pbytes := 1, pay := [(0, 0xA0)] } 0x4000006200000000 (·.pay)
      = some [(0, 0xAC)] := by decide
/-- E11, E14. -/
theorem test_enc_faults : after v3Coded 0x4000007A00000000 (fun t => (t.resp, t.pmode)) = some (some 0x100000007A, .none) ∧
    after { v3Coded with cfg := { Config.default with pcap := 1 }, pmode := .enc, bitlen := 8, pbytes := 1, pay := [(0, 0xAC)] }
      0x4000006200000000 (fun t => (t.resp, t.bitlen)) = some (some 0x5000000008, 8) := by decide
/-- E9. -/
theorem test_pget : after v3Full 0x4100000000000000 (·.resp) = some (some 0xAF) ∧
    after v3Full 0x4100000000000002 (·.resp) = some (some 0x7041000000) := by decide
/-- D22, D18. -/
theorem test_pput : after State.reset 0x500000AF00000000 (fun t => (t.resp, t.pay, t.pbytes, t.pmode, t.bitlen))
      = some (some 0, [(0, 0xAF)], 1, .host, 0) ∧
    after v3Full 0x5000000000000000 (fun t => (t.resp, t.pbytes)) = some (some 0x6000005012, 2) := by decide
/-- D22. -/
theorem test_plen : after State.reset 0x510000000000000C (fun t => (t.resp, t.bitlen, t.pmode, t.status))
      = some (some 0, 12, .host, 0x20) := by decide
/-- D2: the first and the second DSTEP. -/
theorem test_dstep : after v3Loaded 0x5200000000000000 (fun t => (t.resp, t.rpos, t.cur, t.out)) = some (some 0, 1, 5, []) ∧
    after { v3Loaded with rpos := 1, cur := 5 } 0x5200000000000000 (fun t => (t.resp, t.rpos, t.cur, t.out))
      = some (some 0x0000010061, 2, 6, [0x61]) := by decide
/-- D9's last step, D21's DSTEP. -/
theorem test_dstep_end : after { v3Loaded with bitlen := 11, rpos := 11, cur := 4 } 0x5200000000000000 (·.resp)
      = some (some 0x200000000B) ∧
    after { v3Loaded with rpos := 12 } 0x5200000000000000 (·.resp) = some (some 0x0000020000) := by decide
/-- D1. -/
theorem test_drun : after v3Loaded 0x5300000000000000 (fun t => (t.resp, t.rpos, t.cur, t.out))
    = some (some 6, 12, 6, [0x61, 0x61, 0x62, 0x62, 0x63, 0x64]) := by decide
/-- V5 case b: the last byte is missing. -/
theorem test_drun_truncated : after { v3Loaded with pbytes := 1, pay := [(0, 0xAF)] } 0x5300000000000000
    (fun t => (t.resp, t.rpos, t.cur, t.out)) = some (some 0x2000000008, 8, 6, [0x61, 0x61, 0x62, 0x62]) := by decide
/-- T6, X1: an illegal word, and one while a fault is latched. -/
theorem test_illegal_word : after State.reset 0x0300000000000000 (fun t => (t.resp, t.finfo)) = some (some 0x7003000000, 0x03000000) ∧
    after v3Faulted 0x0300000000000000 (fun t => (t.resp, t.cause)) = some (some 0x2000000010, .malformed) := by decide
/-- R250: the hardware reset, between two commands and during one. -/
theorem test_hardware_reset : step { v3Faulted with inputs := [.reset, .command 0] } = .next { State.reset with inputs := [.command 0] } ∧
    step { v3Loaded with inputs := [.resetDuring 0x5300000000000000] } = .next State.reset := ⟨rfl, rfl⟩
/-- R94, R91: a pseudo-command and a comment. -/
theorem test_assemble : assemble "PLOAD 0xAF, 0x10 ; bytes" = some [.pput 0xAF, .pput 0x10] ∧
    assemble "ENCS \"ab\"" = some [.enc 0x61, .enc 0x62] ∧ assemble "FSET 'a'" = none := by decide +kernel

/-! ### States that meet the invariant -/

/-- `PCAP = 1` beside the defaults. -/
def oneByte : Config := { Config.default with pcap := 1 }
/-- The tree of {a:1, b:1, c:2}: 3 = (0, 1, 2), 4 = (2, 3, 4); c = `0`, a = `10`, b = `11`. -/
def triNodes : Table Node :=
  [(0, leafNode 0x61 1), (1, leafNode 0x62 1), (2, leafNode 0x63 2), (3, mergedNode 0 1 1 1), (4, mergedNode 2 3 2 2)]
def triCodes : Table CodeEntry :=
  Table.set (Table.set (Table.set (blankCodes oneByte) 0x61 ⟨true, 2, 1⟩) 0x62 ⟨true, 2, 3⟩) 0x63 ⟨true, 1, 0⟩
/-- That tree with `PCAP = 1`, in phase BUILT with an empty payload of the host's. -/
def tri : State :=
  { State.reset with cfg := oneByte, phase := .built, pmode := .host, nleaf := 3, nnodes := 5, rootv := true, root := 4, cur := 4, freq := [(0x61, 1), (0x62, 1), (0x63, 2)], node := triNodes }
/-- With the codes, and "aaac" encoded: 1010100, one pad bit. -/
def triEnc : State :=
  { tri with phase := .coded, pmode := .enc, code := triCodes, pay := [(0, 0xA8)], pbytes := 1, bitlen := 7 }

theorem tri_present : tri.present = [0x61, 0x62, 0x63] := by decide +kernel

theorem tri_nodeAt (i : Nat) (h : i < 5) : tri.nodeAt i = some (if i = 0 then leafNode 0x61 1 else
    if i = 1 then leafNode 0x62 1 else if i = 2 then leafNode 0x63 2 else if i = 3 then mergedNode 0 1 1 1
    else mergedNode 2 3 2 2) := by
  interval_cases i <;> rfl

theorem tri_childOf (i k : Nat) (hk : k < 5) : ChildOf tri i k ↔ (k = 3 ∧ (i = 0 ∨ i = 1)) ∨ (k = 4 ∧ (i = 2 ∨ i = 3)) := by
  unfold ChildOf
  rw [tri_nodeAt k hk]
  interval_cases k <;> simp [leafNode, mergedNode, Node.kind] <;> omega

theorem tri_tree : TreeFacts tri where
  leaves := by rw [tri_present]; rfl
  nodes := rfl
  leaf := by
    rw [tri_present]
    intro i h
    simp at h
    interval_cases i <;> rfl
  internal := by
    intro k h1 h2
    simp only [tri] at h1 h2
    interval_cases k
    · exact ⟨0, 1, _, _, rfl, rfl, by decide, by decide, by decide, rfl⟩
    · exact ⟨2, 3, _, _, rfl, rfl, by decide, by decide, by decide, rfl⟩
  root := by decide
  parent := by
    intro i hi
    simp only [tri] at hi
    refine ⟨if i < 2 then 3 else 4, ⟨by split <;> decide, ?_⟩, ?_⟩
    · rw [tri_childOf _ _ (by split <;> decide)]; split <;> omega
    · rintro k ⟨h1, h2⟩
      rw [tri_childOf _ _ h1] at h2
      split <;> omega
  total := fun _ => ⟨_, rfl, by unfold State.totalCount; rw [tri_present]; rfl⟩

/-- The blank CodeTable lists every symbol. -/
theorem get?_blank (c : Config) (x : Nat) :
    Table.get? (blankCodes c) x = if x < c.nsym then some noCode else none := by
  unfold blankCodes
  have h : ∀ l : List Nat, Table.get? (l.map fun y => (y, noCode)) x = if x ∈ l then some noCode else none := by
    intro l
    induction l with
    | nil => rfl
    | cons y l ih => simp only [List.map_cons, Table.get?, ih, List.mem_cons]; split_ifs <;> simp_all
  rw [h]; simp

theorem blank_wf (c : Config) : Table.wf (blankCodes c) := by
  unfold Table.wf blankCodes
  rw [List.pairwise_map]
  exact List.pairwise_lt_range

theorem tri_codeAt (x : Nat) : triEnc.codeAt x = if x = 0x63 then some ⟨true, 1, 0⟩ else if x = 0x62 then some ⟨true, 2, 3⟩
    else if x = 0x61 then some ⟨true, 2, 1⟩ else if x < 256 then some noCode else none := by
  unfold State.codeAt triEnc triCodes
  simp only [Table.get?_set, get?_blank]
  rfl

theorem tri_count (x : Nat) : tri.count x = if x = 0x61 then 1 else if x = 0x62 then 1 else if x = 0x63 then 2 else 0 := by
  unfold State.count freqGet tri
  simp only [Table.get?, eq_comm (a := x)]
  split_ifs <;> rfl

theorem tri_path3 : PathTo triEnc 3 [true] :=
  PathTo.right (n := mergedNode 2 3 2 2) (PathTo.root rfl) rfl rfl

theorem tri_codes : CodeFacts triEnc where
  absent := by
    intro x hx hc
    have hc : tri.count x = 0 := hc
    have hx : x < 256 := hx
    rw [tri_count] at hc
    rw [tri_codeAt]
    split_ifs at hc ⊢ <;> first | rfl | (exact absurd hc (by decide))
  single := by intro x _ _ h; exact absurd h (by decide)
  path := by
    intro x _ hc _
    have hc : tri.count x ≠ 0 := hc
    rw [tri_count] at hc
    have hp := tri_path3
    split_ifs at hc with h1 h2 h3
    · subst h1
      exact ⟨0, _, [true, false], ⟨true, 2, 1⟩, rfl, rfl, rfl, PathTo.left (n := mergedNode 0 1 1 1) hp rfl rfl, by rw [tri_codeAt]; rfl, rfl, rfl, by
        intro j; match j with | 0 => rfl | 1 => rfl | j + 2 => simp [Nat.testBit_succ]⟩
    · subst h2
      exact ⟨1, _, [true, true], ⟨true, 2, 3⟩, rfl, rfl, rfl, PathTo.right (n := mergedNode 0 1 1 1) hp rfl rfl, by rw [tri_codeAt]; rfl, rfl, rfl, by
        intro j; match j with | 0 => rfl | 1 => rfl | j + 2 => simp [Nat.testBit_succ]⟩
    · subst h3
      exact ⟨2, _, [false], ⟨true, 1, 0⟩, rfl, rfl, rfl, PathTo.left (n := mergedNode 2 3 2 2) (PathTo.root rfl) rfl rfl, by rw [tri_codeAt]; rfl, rfl, rfl, by
        intro j; match j with | 0 => rfl | j + 1 => simp⟩
    · exact absurd rfl hc

theorem tri_freqRange : ∀ e ∈ tri.freq, e.1 < tri.cfg.nsym ∧ e.2.toNat < 2 ^ tri.cfg.cw := by decide

theorem tri_nodeWritten (i : Nat) : (tri.nodeAt i).isSome = true ↔ i < 5 := by
  constructor
  · intro h
    by_contra hi
    have : tri.nodeAt i = none := by
      unfold State.nodeAt tri triNodes
      simp only [Table.get?]
      split_ifs <;> first | rfl | omega
    rw [this] at h; cases h
  · intro h; rw [tri_nodeAt i h]; rfl

theorem triCodes_wf : Table.wf triCodes :=
  Table.set_wf (Table.set_wf (Table.set_wf (blank_wf oneByte) _ _) _ _) _ _

theorem triEnc_tables : TablesWf triEnc where
  freq := by decide
  freqRange := tri_freqRange
  node := by decide
  nodeWritten := tri_nodeWritten
  code := triCodes_wf
  codeWritten := by
    intro x; rw [tri_codeAt]; show _ ↔ Phase.coded = Phase.coded ∧ x < 256; split_ifs <;> simp <;> omega
  pay := by decide
  payWritten := by intro q; show Option.isSome (if 0 = q then _ else none) = true ↔ q < 1; split_ifs <;> simp <;> omega

theorem triEnc_payload : PayloadFacts triEnc where
  capacity := by decide
  unowned := fun h => by cases h
  encoded := fun _ => by decide
  padding := by
    intro _ p h1 h2
    have : p = 7 := by simp only [triEnc] at h1 h2; omega
    subst this; rfl

theorem triEnc_inv : Inv triEnc where
  legal := by decide
  tables := triEnc_tables
  load := fun h => by cases h
  tree := fun _ => tri_tree.congr rfl
  codes := fun _ => tri_codes
  payload := triEnc_payload
  cursor :=
    { cursor := fun _ => ⟨by decide, .inl rfl⟩
      noTree := fun h => by cases h
      emitted := fun x h => by cases h }
  faults := ⟨fun _ => ⟨rfl, rfl⟩, fun h => by cases h⟩
  bitlenWidth := by decide
  rposWidth := by decide

/-- The built tree with a payload of the host's. -/
theorem triHost_inv {s : State} (h : s = { tri with pay := s.pay, pbytes := s.pbytes, bitlen := s.bitlen, rpos := s.rpos, cur := s.cur })
    (hp : s.pay = [] ∧ s.pbytes = 0 ∨ ∃ b, s.pay = [(0, b)] ∧ s.pbytes = 1) (hc : s.cur = 3 ∨ s.cur = 4)
    (hb : s.bitlen < 2 ^ 32) (hr : s.rpos < 2 ^ 32) : Inv s := by
  obtain ⟨pay, pbytes, bitlen, rpos, cur, h⟩ : ∃ pay pbytes bitlen rpos cur, s = { tri with pay := pay, pbytes := pbytes, bitlen := bitlen, rpos := rpos, cur := cur } := ⟨_, _, _, _, _, h⟩
  subst h
  simp only at hp hc hb hr
  exact
  { legal := by simp only [tri]; decide
    tables :=
      { freq := by simp only [tri]; decide
        freqRange := tri_freqRange
        node := by simp only [tri]; decide
        nodeWritten := tri_nodeWritten
        code := List.Pairwise.nil
        codeWritten := by intro x; simp [State.codeAt, tri, State.reset, Table.get?]
        pay := by rcases hp with ⟨rfl, _⟩ | ⟨b, rfl, _⟩ <;> simp
        payWritten := by
          intro q
          rcases hp with ⟨rfl, rfl⟩ | ⟨b, rfl, rfl⟩ <;> simp [State.byteAt, Memory.read, Table.get?]
          exact eq_comm }
    load := fun h => by cases h
    tree := fun _ => tri_tree.congr rfl
    codes := fun h => by cases h
    payload :=
      { capacity := by show pbytes ≤ 1; rcases hp with ⟨_, rfl⟩ | ⟨_, _, rfl⟩ <;> decide
        unowned := fun h => by cases h
        encoded := fun h => by cases h
        padding := fun h => by cases h }
    cursor :=
      { cursor := fun _ => by
          rcases hc with rfl | rfl
          · exact ⟨by simp [tri], .inr ⟨_, rfl, rfl⟩⟩
          · exact ⟨by simp [tri], .inl rfl⟩
        noTree := fun h => by cases h
        emitted := fun x hx => by cases hx }
    faults := ⟨fun _ => ⟨rfl, rfl⟩, fun h => by cases h⟩
    bitlenWidth := hb
    rposWidth := hr }

/-- No symbol has a count: phase BUILT, no tree, a payload of the host's. -/
def bare : State := { State.reset with cfg := oneByte, phase := .built, pmode := .host }

theorem bare_inv (n : Nat) (hn : n < 2 ^ 32) : Inv { bare with bitlen := n } := by
  have hp : State.present { bare with bitlen := n } = [] := by
    have : bare.present = [] := by decide +kernel
    exact this
  exact
  { legal := by simp only [bare]; decide
    tables :=
      { freq := ⟨List.Pairwise.nil, fun e h => by cases h⟩
        freqRange := fun e h => by cases h
        node := List.Pairwise.nil
        nodeWritten := fun i => by simp [State.nodeAt, bare, State.reset, Table.get?]
        code := List.Pairwise.nil
        codeWritten := by intro x; simp [State.codeAt, bare, State.reset, Table.get?]
        pay := List.Pairwise.nil
        payWritten := fun q => by simp [State.byteAt, Memory.read, bare, State.reset, Table.get?] }
    load := fun h => by cases h
    tree := fun _ =>
      { leaves := by rw [hp]; rfl
        nodes := rfl
        leaf := by rw [hp]; intro i h; cases h
        internal := fun k _ h => by cases h
        root := by simp [bare, State.reset]
        parent := fun i h => by cases h
        total := fun h => by cases h }
    codes := fun h => by cases h
    payload :=
      { capacity := by simp [bare, State.reset]
        unowned := fun h => by cases h
        encoded := fun h => by cases h
        padding := fun h => by cases h }
    cursor :=
      { cursor := fun h => by cases h
        noTree := fun _ => ⟨rfl, rfl, rfl, rfl⟩
        emitted := fun x hx => by cases hx }
    faults := ⟨fun _ => ⟨rfl, rfl⟩, fun h => by cases h⟩
    bitlenWidth := hn
    rposWidth := by simp [bare, State.reset] }

/-- One symbol, {a:4} (V1): coded, with "aaaa" loaded by nobody. -/
def solo : State :=
  { State.reset with phase := .coded, nleaf := 1, nnodes := 1, rootv := true, freq := [(0x61, 4)], node := [(0, leafNode 0x61 4)], code := Table.set (blankCodes Config.default) 0x61 ⟨true, 1, 0⟩ }

theorem solo_present : solo.present = [0x61] := by decide +kernel

theorem solo_tree : TreeFacts solo where
  leaves := by rw [solo_present]; rfl
  nodes := rfl
  leaf := by
    rw [solo_present]
    intro i h
    simp at h
    subst h
    rfl
  internal := fun k h1 h2 => by simp only [solo] at h1 h2; omega
  root := ⟨rfl, rfl⟩
  parent := fun i h => by simp only [solo] at h; omega
  total := fun _ => ⟨_, rfl, by unfold State.totalCount; rw [solo_present]; rfl⟩

theorem solo_codes : CodeFacts solo where
  absent := by
    intro x hx hc
    have hx : x < Config.default.nsym := hx
    have hne : x ≠ 0x61 := by rintro rfl; exact absurd hc (by decide)
    unfold State.codeAt solo
    rw [Table.get?_set, if_neg hne, get?_blank, if_pos hx]
    rfl
  single := by
    intro x hx hc _
    have : x = 0x61 := by
      by_contra hne
      apply hc
      unfold State.count freqGet solo
      simp only [Table.get?]
      rw [if_neg (fun h => hne h.symm)]
      rfl
    subst this
    unfold State.codeAt solo
    rw [Table.get?_set, if_pos rfl]
  path := fun x _ _ h => by simp only [solo] at h; omega

theorem reset_inv : Inv { State.reset with cfg := oneByte } where
  legal := by decide
  tables := ⟨by decide, by decide, by decide, fun i => by simp [State.nodeAt, State.reset, Table.get?], by decide,
    fun x => by simp [State.codeAt, State.reset, Table.get?], by decide,
    fun q => by simp [State.byteAt, Memory.read, State.reset, Table.get?]⟩
  load := fun _ => by decide
  tree := fun h => absurd rfl h
  codes := fun h => (by cases h)
  payload := ⟨by decide, fun _ => ⟨rfl, rfl⟩, fun h => (by cases h), fun h => (by cases h)⟩
  cursor := ⟨fun h => (by cases h), fun _ => ⟨rfl, rfl, rfl, rfl⟩, fun x h => (by cases h)⟩
  faults := ⟨fun _ => ⟨rfl, rfl⟩, fun h => (by cases h)⟩
  bitlenWidth := by decide
  rposWidth := by decide

/-- "aaac" is what `triEnc` holds, none of it decoded yet. -/
theorem triEnc_text : EncodedText triEnc [] [0x61, 0x61, 0x61, 0x63] [] := by
  have hc : triEnc.encoding [0x61, 0x61, 0x61, 0x63] = [true, false, true, false, true, false, false] := by
    decide +kernel
  refine ⟨by decide, ?_, ?_, rfl, rfl, .inl ⟨rfl, rfl⟩⟩
  · have ha : triEnc.HasCode 0x61 := ⟨⟨true, 2, 1⟩, tri_codeAt 0x61, rfl⟩
    have hc : triEnc.HasCode 0x63 := ⟨⟨true, 1, 0⟩, tri_codeAt 0x63, rfl⟩
    intro x hx
    simp only [List.nil_append, List.mem_cons, List.not_mem_nil, or_false] at hx
    rcases hx with rfl | rfl | rfl | rfl <;> assumption
  · show State.HoldsBits triEnc (triEnc.encoding [0x61, 0x61, 0x61, 0x63])
    rw [hc]
    refine ⟨rfl, fun p h => ?_⟩
    simp at h
    interval_cases p <;> rfl

/-! ### Witnesses: for every obligation with hypotheses, states and operands that meet them

A witness with several parts has one for each clause of the obligation, at the edge of its range. -/

/-- A computation that ends in a next state with a decidable property. -/
theorem exists_next {o : Outcome} {p : State → Prop} [DecidablePred p]
    (h : (match o with | .next t => decide (p t) | .fault _ => false | .refused _ => false) = true) :
    ∃ t, o = .next t ∧ p t := by
  cases o with
  | next t => exact ⟨t, rfl, of_decide_eq_true h⟩
  | fault f => cases h
  | refused r => cases h

theorem witness_DecodeFollowsTheOpcodeMap :
    (∃ r ∈ opcodeRows, (0 : CmdWord) &&& r.mask = r.pattern) ∧
    (State.reset.pushCommand 0x0300000000000000).inputs = .command 0x0300000000000000 :: [] ∧
    (∀ i, decode 0x0300000000000000 ≠ .ok i) ∧ (State.reset.pushCommand 0x0300000000000000).fault = false ∧
    (v3Faulted.pushCommand 0x0300000000000000).inputs = .command 0x0300000000000000 :: [] ∧
    (v3Faulted.pushCommand 0x0300000000000000).fault = true := by
  refine ⟨by decide, rfl, ?_, rfl, rfl, rfl⟩
  have h : decode 0x0300000000000000 = .error .unassignedOpcode := by decide
  intro i hi
  rw [h] at hi
  cases hi

theorem witness_ReservedEncodingsRaiseIllegal :
    (∀ w, (State.reset.pushCommand w).inputs = .command w :: [] ∧ (State.reset.pushCommand w).fault = false) ∧
    ((0x0300000000000000 : CmdWord).extractLsb' 56 8).toNat ∉ [0x00, 0x01, 0x02, 0x10, 0x11, 0x20, 0x21, 0x30, 0x31, 0x32, 0x40, 0x41, 0x50, 0x51, 0x52, 0x53] ∧
    (0x0001000000000000 : CmdWord).extractLsb' 48 8 ≠ 0 ∧
    (((0x5300000100000000 : CmdWord).extractLsb' 56 8).toNat = 0x53 ∧ (0x5300000100000000 : CmdWord).extractLsb' 32 16 ≠ 0) ∧
    (((0x0000000000000001 : CmdWord).extractLsb' 56 8).toNat = 0 ∧ (0x0000000000000001 : CmdWord).extractLsb' 0 32 ≠ 0) ∧
    (((0x0200000280000000 : CmdWord).extractLsb' 56 8).toNat = 2 ∧ (0x0200000280000000 : CmdWord).extractLsb' 0 32 ≠ 0) ∧
    (((0x4100000100000000 : CmdWord).extractLsb' 56 8).toNat = 0x41 ∧ (0x4100000100000000 : CmdWord).extractLsb' 32 16 ≠ 0) ∧
    (((0x5000010000000000 : CmdWord).extractLsb' 56 8).toNat = 0x50 ∧ (0x5000010000000000 : CmdWord).extractLsb' 40 8 ≠ 0) :=
  ⟨fun _ => ⟨rfl, rfl⟩, by decide⟩

theorem witness_StepRunsTheDecodedCommand :
    (State.reset.pushCommand 0x1000006100000004).inputs = .command 0x1000006100000004 :: [] ∧
    decode 0x1000006100000004 = .ok (.fset 0x61 4) := ⟨rfl, by decide⟩

theorem witness_StepWaitsForTheHost : State.reset.inputs = [] := rfl

theorem witness_EveryResetGivesTheResetState :
    { v3Faulted with inputs := [.reset] }.inputs = .reset :: [] ∧
    { v3Faulted with inputs := [.resetDuring 0] }.inputs = .resetDuring 0 :: [] := ⟨rfl, rfl⟩

theorem witness_EveryCommandAnswers : (∃ t, exec .nop State.reset = .next t ∧ t.fault = false) ∧
    ∃ t, exec .build v3Built = .next t ∧ t.fault = true := ⟨exists_next (by decide), exists_next (by decide)⟩

theorem witness_CommandsLeaveTheHostAlone : ∃ t, exec (.plen 12) v3Loaded = .next t := ⟨_, rfl⟩

theorem witness_RaiseLatchesTheFirstFault : State.reset.fault = false ∧ v3Faulted.fault = true := ⟨rfl, rfl⟩

theorem witness_LatchedFaultFreezesTheState : v3Faulted.fault = true ∧ changesState (.plen 0) = true ∧
    operandsInRange (.rdcsr 12) v3Faulted = false ∧ phaseLegal (.clen 0xFF) v3Faulted.phase = false ∧
    phaseLegal (.cbits 0xFF 7) v3Faulted.phase = false ∧
    Instr.rdcsr 2 ≠ .rst ∧ ∃ t, exec (.rdcsr 2) v3Faulted = .next t :=
  ⟨rfl, rfl, rfl, rfl, rfl, by decide, _, rfl⟩

theorem witness_LatchedFaultStaysUntilReset : v3Faulted.fault = true ∧
    (∃ t, step (v3Faulted.pushCommand 0x5200000000000000) = .next t ∧ t.fault = true) ∧
    ∃ t, step { v3Faulted with inputs := [.reset] } = .next t ∧ t.fault = false :=
  ⟨rfl, exists_next (by decide), exists_next (by decide)⟩

theorem witness_FaultsArePrecise :
    (v3Loaded.fault = false ∧ ∃ t, exec .build v3Loaded = .next t ∧ t.fault = true) ∧
    (v3Load.fault = false ∧ v3Load.phase = .load ∧ ∃ t, exec .drun v3Load = .next t ∧ t.fault = true) ∧
    (State.phase { v3Loaded with bitlen := 3 } ≠ .load ∧ State.fault { v3Loaded with bitlen := 3 } = false ∧
      ∃ t, exec .drun { v3Loaded with bitlen := 3 } = .next t ∧ t.fault = true ∧ t.rpos = 3) :=
  ⟨⟨rfl, exists_next (by decide)⟩, ⟨rfl, rfl, exists_next (by decide)⟩, by decide, rfl, exists_next (by decide)⟩

theorem witness_CommandsRaiseOnlyTheirFaults : v3Coded.fault = false ∧
    ∃ t, exec (.enc 0x7A) v3Coded = .next t ∧ t.fault = true := ⟨rfl, exists_next (by decide)⟩

theorem witness_OperandOutOfRangeRaisesIllegal : v3Full.fault = false ∧
    operandsInRange (.rdcsr 12) v3Full = false ∧ operandsInRange (.fset 0x100 0) v3Full = false ∧
    operandsInRange (.fget 0x100) v3Full = false ∧ operandsInRange (.nget 6 0) v3Full = false ∧
    operandsInRange (.nget 0 7) v3Full = false ∧ operandsInRange (.clen 0x100) v3Full = false ∧
    operandsInRange (.cbits 0 8) v3Full = false ∧ operandsInRange (.enc 0x100) v3Full = false ∧
    operandsInRange (.pget 2) v3Full = false ∧
    v3Faulted.fault = true ∧ operandsInRange (.pget 2) v3Faulted = false := by decide

theorem witness_PhaseAndOwnerDecideLegality :
    (operandsInRange .build v3Built = true ∧ v3Built.fault = false ∧ phaseLegal .build v3Built.phase = false) ∧
    (operandsInRange (.plen 0) v3Full = true ∧ v3Full.fault = false ∧ pmodeLegal (.plen 0) v3Full.pmode = false) ∧
    (operandsInRange (.enc 0x7A) v3Coded = true ∧ v3Coded.fault = false ∧ phaseLegal (.enc 0x7A) v3Coded.phase = true ∧
      pmodeLegal (.enc 0x7A) v3Coded.pmode = true ∧ ∃ t, exec (.enc 0x7A) v3Coded = .next t ∧ t.fault = true) :=
  ⟨by decide, by decide, rfl, rfl, rfl, rfl, exists_next (by decide)⟩

theorem witness_OnlyTheirCommandsWriteTheState :
    (∃ t, exec .build v3Load = .next t ∧ t.phase ≠ v3Load.phase ∧ t.node ≠ v3Load.node ∧ t.cur ≠ v3Load.cur) ∧
    (∃ t, exec .derive v3Built = .next t ∧ t.phase ≠ v3Built.phase ∧ t.code ≠ v3Built.code) ∧
    (∃ t, exec (.fset 0 1) v3Load = .next t ∧ t.freq ≠ v3Load.freq) ∧
    (∃ t, exec (.enc 0x61) v3Coded = .next t ∧ t.pay ≠ v3Coded.pay ∧ t.bitlen ≠ v3Coded.bitlen ∧ t.pmode ≠ v3Coded.pmode) ∧
    (∃ t, exec (.pput 0) State.reset = .next t ∧ t.pbytes ≠ State.reset.pbytes ∧ t.pmode ≠ State.reset.pmode) ∧
    (∃ t, exec (.plen 1) State.reset = .next t ∧ t.bitlen ≠ State.reset.bitlen) ∧
    (∃ t, exec .dstep { v3Loaded with rpos := 1, cur := 5 } = .next t ∧ t.rpos ≠ 1 ∧ t.out ≠ [] ∧ t.cur ≠ 5) :=
  ⟨exists_next (by decide +kernel), exists_next (by decide +kernel), exists_next (by decide),
    exists_next (by decide), exists_next (by decide), exists_next (by decide), exists_next (by decide)⟩

theorem witness_ReadsHaveNoSideEffect : changesState (.rdcsr 11) = false ∧ Instr.rdcsr 11 ≠ .rst ∧
    (∃ t, exec (.rdcsr 11) State.reset = .next t) ∧ changesState (.rdcsr 12) = false ∧
    ∃ t, exec (.rdcsr 12) State.reset = .next t := ⟨rfl, by decide, ⟨_, rfl⟩, rfl, _, rfl⟩

theorem witness_RdcsrReadsTheRegister : 11 < (12 : BitVec 16).toNat ∧ State.reset.fault = false := by decide

theorem witness_CfgHoldsTheParameters :
    Config.Legal { symw := .eight, cw := 1, pcap := 1 } ∧ Config.Legal { symw := .sixteen, cw := 32, pcap := 536870911 } := by
  decide

theorem witness_FsetWritesOneCount :
    (v3Load.fault = false ∧ v3Load.phase = .load ∧ (0xFF : Symbol).toNat < v3Load.cfg.nsym ∧ (0xFFFFFFFF : Count).toNat < 2 ^ v3Load.cfg.cw) ∧
    (0x100 : Symbol).toNat ≥ v3Load.cfg.nsym ∧ (16 : Count).toNat ≥ 2 ^ (4 : Nat) ∧
    v3Built.fault = false ∧ v3Built.phase ≠ .load := by decide

theorem witness_FgetReadsOneCount : (0xFF : Symbol).toNat < State.reset.cfg.nsym ∧
    (0x100 : Symbol).toNat ≥ State.reset.cfg.nsym ∧ State.reset.fault = false := by decide

theorem witness_PqMinTakesTheLeastKey : [0, 1, 2, 3] ≠ [] ∧ [0, 1, 2, 3].Nodup ∧
    ∀ i ∈ [0, 1, 2, 3], (v3Built.nodeAt i).isSome = true := by decide

theorem witness_TbMergeJoinsTheTwoLeast : 2 ≤ [4, 5].length ∧ [4, 5].Nodup ∧
    (∀ i ∈ [4, 5], i < ({ v3Built with nnodes := 6 } : State).nnodes) ∧
    ∀ i ∈ [4, 5], (({ v3Built with nnodes := 6 } : State).nodeAt i).isSome = true := by decide

theorem witness_BuildMakesTheTree : v3Load.fault = false ∧ v3Load.phase = .load ∧ v3Built.fault = false ∧
    v3Built.phase ≠ .load := by decide

theorem witness_BuildRunsItsMicroOperations : (v3Load.fault = false ∧ v3Load.phase = .load ∧ (tbInit v3Load).2.length = 4) ∧
    State.reset.fault = false ∧ State.reset.phase = .load ∧ (tbInit State.reset).2 = [] :=
  ⟨⟨rfl, rfl, by decide +kernel⟩, rfl, rfl, by decide +kernel⟩

theorem witness_BuildIsGreedy : v3Load.fault = false ∧ v3Load.phase = .load := ⟨rfl, rfl⟩

theorem witness_BuildEdgeCases : State.reset.fault = false ∧ State.reset.phase = .load ∧
    (∀ x, x < State.reset.cfg.nsym → State.reset.count x = 0) ∧
    (255 < State.reset.cfg.nsym ∧ ({ State.reset with freq := [(255, 1)] } : State).count 255 ≠ 0 ∧
      ∀ y, y < State.reset.cfg.nsym → y ≠ 255 → ({ State.reset with freq := [(255, 1)] } : State).count y = 0) := by
  refine ⟨rfl, rfl, fun _ _ => rfl, by decide, by decide, fun y _ h => ?_⟩
  unfold State.count freqGet
  simp only [Table.get?]
  rw [if_neg (fun e => h e.symm)]
  rfl

theorem witness_TreeAndCodesDependOnTheTableAlone : v3Load.fault = false ∧ v3Load.phase = .load ∧
    State.fault { v3Load with cfg := oneByte, out := [0x7A] } = false ∧
    State.phase { v3Load with cfg := oneByte, out := [0x7A] } = .load ∧ v3Load.cfg.symw = oneByte.symw ∧
    ∀ x, x < v3Load.cfg.nsym → v3Load.count x = State.count { v3Load with cfg := oneByte, out := [0x7A] } x :=
  ⟨rfl, rfl, rfl, rfl, rfl, fun _ _ => rfl⟩

theorem witness_NgetReadsOneField : (6 : BitVec 32).toNat < v3Built.nnodes ∧
    v3Built.nodeAt (6 : BitVec 32).toNat = some (mergedNode 4 5 2 4) ∧ 5 < (6 : BitVec 16).toNat ∧
    v3Built.nnodes ≤ (7 : BitVec 32).toNat ∧ v3Built.fault = false := by decide

theorem witness_DeriveWritesTheCodes : (tri.fault = false ∧ tri.phase = .built ∧ TreeFacts tri) ∧
    v3Load.fault = false ∧ v3Load.phase ≠ .built := ⟨⟨rfl, rfl, tri_tree⟩, rfl, by decide⟩

theorem witness_EveryNodeHasOnePath : TreeFacts tri ∧ 0 < tri.nnodes ∧ 4 < tri.nnodes := ⟨tri_tree, by decide, by decide⟩

theorem witness_CodesArePrefixFree : TreeFacts triEnc ∧ CodeFacts triEnc ∧ (0x61 : Symbol) ≠ 0x63 ∧
    (0x61 : Symbol).toNat < triEnc.cfg.nsym ∧ (0x63 : Symbol).toNat < triEnc.cfg.nsym ∧ triEnc.HasCode 0x61 ∧
    triEnc.HasCode 0x63 :=
  ⟨tri_tree.congr rfl, tri_codes, by decide, by decide, by decide, ⟨_, tri_codeAt 0x61, rfl⟩, ⟨_, tri_codeAt 0x63, rfl⟩⟩

theorem witness_CodeLengthsAreBounded :
    (TreeFacts triEnc ∧ CodeFacts triEnc ∧ 0x61 < triEnc.cfg.nsym ∧ triEnc.codeAt 0x61 = some ⟨true, 2, 1⟩ ∧ 2 ≤ triEnc.nleaf) ∧
    TreeFacts solo ∧ CodeFacts solo ∧ 0x61 < solo.cfg.nsym ∧ (∃ e, solo.codeAt 0x61 = some e ∧ e.v = true) ∧ solo.nleaf = 1 :=
  ⟨⟨tri_tree.congr rfl, tri_codes, by decide, tri_codeAt 0x61, by decide⟩, solo_tree, solo_codes, by decide,
    ⟨_, solo_codes.single 0x61 (by decide) (by decide) rfl, rfl⟩, rfl⟩

theorem witness_MoreFrequentSymbolsHaveNoLongerCodes : v3Load.fault = false ∧ v3Load.phase = .load ∧
    0x61 < v3Load.cfg.nsym ∧ 0x63 < v3Load.cfg.nsym ∧ (v3Load.count 0x63).toNat < (v3Load.count 0x61).toNat ∧
    1 ≤ (v3Load.count 0x63).toNat ∧ ∃ u, execAll [.build, .derive] v3Load = .next u ∧
      (u.codeAt 0x61).isSome = true ∧ (u.codeAt 0x63).isSome = true :=
  ⟨rfl, rfl, by decide, by decide, by decide, by decide, exists_next (by decide +kernel)⟩

theorem witness_ClenReadsTheLength : ((0x61 : Symbol).toNat < v3Coded.cfg.nsym ∧ v3Coded.phase = .coded ∧
      v3Coded.codeAt (0x61 : Symbol).toNat = some ⟨true, 2, 1⟩ ∧ 2 < 2 ^ 16) ∧
    ((0x100 : Symbol).toNat ≥ v3Coded.cfg.nsym ∧ v3Coded.fault = false) ∧
    (0xFF : Symbol).toNat < v3Built.cfg.nsym ∧ v3Built.phase ≠ .coded ∧ v3Built.fault = false := by decide

theorem witness_CbitsReadsOneWord : ((0x61 : Symbol).toNat < v3Coded.cfg.nsym ∧ (7 : BitVec 32).toNat < v3Coded.cfg.codeWords ∧
      v3Coded.phase = .coded ∧ v3Coded.codeAt (0x61 : Symbol).toNat = some ⟨true, 2, 1⟩) ∧
    ((0x100 : Symbol).toNat ≥ v3Coded.cfg.nsym ∧ (8 : BitVec 32).toNat ≥ v3Coded.cfg.codeWords ∧ v3Coded.fault = false) ∧
    (7 : BitVec 32).toNat < v3Built.cfg.codeWords ∧ v3Built.phase ≠ .coded ∧ v3Built.fault = false := by decide

theorem witness_PutBitAppendsOneBit : State.reset.bitlen % 8 = 0 ∧ v3Full.bitlen % 8 ≠ 0 ∧
    ∃ b, v3Full.byteAt (v3Full.bitlen / 8) = some b ∧ ∀ j, j < 8 - v3Full.bitlen % 8 → b.getLsbD j = false :=
  ⟨rfl, by decide, 0x10, rfl, by decide⟩

/-- "aaac" leaves one bit: the code of c fits, ending at `8·PCAP`, the code of a does not. -/
theorem witness_EncAppendsTheCode : Inv triEnc ∧ triEnc.fault = false ∧ (0x100 : Symbol).toNat ≥ triEnc.cfg.nsym ∧
    (Inv tri ∧ tri.fault = false ∧ (0xFF : Symbol).toNat < tri.cfg.nsym ∧ tri.phase ≠ .coded ∧ tri.pmode = .host) ∧
    (triEnc.phase = .coded ∧ triEnc.pmode ≠ .host) ∧
    (triEnc.codeAt (0x7A : Symbol).toNat = some noCode) ∧
    (triEnc.codeAt (0x61 : Symbol).toNat = some ⟨true, 2, 1⟩ ∧ 8 * triEnc.cfg.pcap < triEnc.bitlen + 2) ∧
    (triEnc.codeAt (0x63 : Symbol).toNat = some ⟨true, 1, 0⟩ ∧ triEnc.bitlen + 1 = 8 * triEnc.cfg.pcap) :=
  ⟨triEnc_inv, rfl, by decide, ⟨triHost_inv rfl (.inl ⟨rfl, rfl⟩) (.inr rfl) (by decide) (by decide), rfl, by decide, by decide, rfl⟩,
    ⟨rfl, by decide⟩, tri_codeAt 0x7A, ⟨tri_codeAt 0x61, by decide⟩, tri_codeAt 0x63, by decide⟩

theorem witness_PgetReadsOneByte : ((1 : BitVec 32).toNat < v3Full.pbytes ∧ v3Full.byteAt (1 : BitVec 32).toNat = some 0x10) ∧
    v3Full.pbytes ≤ (2 : BitVec 32).toNat ∧ v3Full.fault = false := by decide

theorem witness_PputAppendsOneByte : (v3Full.fault = false ∧ v3Full.pmode = .enc) ∧
    (State.fault { State.reset with cfg := oneByte, pbytes := 1, pmode := .host } = false ∧ PMode.host ≠ .enc ∧ oneByte.pcap ≤ 1) ∧
    State.reset.fault = false ∧ State.reset.pmode ≠ .enc ∧ State.reset.pbytes < State.reset.cfg.pcap := by decide

theorem witness_PlenSetsTheBitLength : (State.reset.fault = false ∧ State.reset.pmode ≠ .enc) ∧ v3Full.fault = false ∧
    v3Full.pmode = .enc := by decide

/-- Nodes that no BUILD makes: 1 has one child only, 2 is over it. -/
def broken : State :=
  { v3Loaded with nnodes := 3, root := 2, cur := 2, node := [(0, leafNode 0x61 1), (1, { leafNode 0 1 with lv := true }), (2, mergedNode 0 1 1 1)] }

theorem witness_DstepConsumesOneBit : (v3Load.fault = false ∧ v3Load.phase = .load) ∧
    (v3Loaded.fault = false ∧ v3Loaded.phase ≠ .load) ∧
    (let s := { v3Loaded with rpos := 12, cur := 4 }; s.rpos ≥ s.bitlen ∧ s.rootv = true ∧ s.cur ≠ s.root) ∧
    (let s := { v3Loaded with rpos := 12 }; s.rpos ≥ s.bitlen ∧ s.cur = s.root) ∧
    (let s := { bare with bitlen := 1 }; s.rpos < s.bitlen ∧ s.rootv = false) ∧
    (let s := { v3Loaded with bitlen := 17, rpos := 16 }; s.rpos < s.bitlen ∧ s.rootv = true ∧ s.pbytes ≤ s.rpos / 8) ∧
    (v3Loaded.rpos < v3Loaded.bitlen ∧ v3Loaded.rootv = true ∧ v3Loaded.rpos / 8 < v3Loaded.pbytes ∧
      v3Loaded.payBit v3Loaded.rpos = some true ∧ v3Loaded.nodeAt v3Loaded.root = some (mergedNode 4 5 2 4) ∧
      v3Loaded.nodeAt v3Loaded.cur = some (mergedNode 4 5 2 4) ∧ v3Loaded.nodeAt 5 = some (mergedNode 0 1 2 2)) ∧
    (let s := { v3Loaded with rpos := 1, cur := 5 }; s.payBit s.rpos = some false ∧
      s.nodeAt s.cur = some (mergedNode 0 1 2 2) ∧ s.nodeAt 0 = some (leafNode 0x61 2)) ∧
    (let s := { solo with bitlen := 1, pbytes := 1, pay := [(0, 0x80)] }; s.rpos < s.bitlen ∧ s.rootv = true ∧
      s.rpos / 8 < s.pbytes ∧ s.payBit s.rpos = some true ∧ s.nodeAt s.root = some (leafNode 0x61 4)) ∧
    (broken.payBit broken.rpos = some true ∧ broken.nodeAt broken.root = some (mergedNode 0 1 1 1) ∧
      broken.nodeAt broken.cur = some (mergedNode 0 1 1 1) ∧ broken.nodeAt 1 = some { leafNode 0 1 with lv := true }) ∧
    (let s := { broken with cur := 1 }; s.nodeAt s.cur = some { leafNode 0 1 with lv := true }) := by decide

/-- 0xB0 is 1011 0000: "ab" and then c's; the stream ends between codes, and inside one. -/
theorem witness_DrunIsDstepUntilTheEnd : (Inv { State.reset with cfg := oneByte } ∧ State.reset.fault = false ∧ State.reset.phase = .load) ∧
    (let s := { tri with pay := [(0, 0xB0)], pbytes := 1, bitlen := 8 }; Inv s ∧ s.fault = false ∧ s.phase ≠ .load ∧
      ∃ v, exec .drun s = .next v ∧ v.fault = false) ∧
    (let s := { tri with pay := [(0, 0xB0)], pbytes := 1, bitlen := 3 }; Inv s ∧ s.fault = false ∧ s.phase ≠ .load ∧
      ∃ v, exec .drun s = .next v ∧ v.fault = true) :=
  ⟨⟨reset_inv, rfl, rfl⟩,
    ⟨triHost_inv rfl (.inr ⟨_, rfl, rfl⟩) (.inr rfl) (by decide) (by decide), rfl, by decide, exists_next (by decide)⟩,
    triHost_inv rfl (.inr ⟨_, rfl, rfl⟩) (.inr rfl) (by decide) (by decide), rfl, by decide, exists_next (by decide)⟩

theorem witness_WithoutATreeNothingDecodes :
    (Inv bare ∧ bare.fault = false ∧ bare.phase ≠ .load ∧ bare.rootv = false ∧ bare.bitlen = 0) ∧
    Inv { bare with bitlen := 1 } ∧ 0 < State.bitlen { bare with bitlen := 1 } :=
  ⟨⟨bare_inv 0 (by decide), rfl, by decide, rfl, rfl⟩, bare_inv 1 (by decide), by decide⟩

/-- No tree; a byte that was not loaded; the end inside a code; and a DSTEP that goes well. -/
theorem witness_MalformedHasThreeCauses :
    (Inv { bare with bitlen := 1 } ∧ ∃ t, exec .dstep { bare with bitlen := 1 } = .next t ∧ t.fault = true) ∧
    (let s := { tri with pay := [(0, 0xB0)], pbytes := 1, bitlen := 9, rpos := 8 }; Inv s ∧ s.fault = false ∧ s.phase ≠ .load ∧
      ∃ t, exec .dstep s = .next t ∧ t.fault = true) ∧
    (let s := { tri with pay := [(0, 0xB0)], pbytes := 1, bitlen := 1, rpos := 1, cur := 3 }; Inv s ∧ s.fault = false ∧
      s.phase ≠ .load ∧ ∃ t, exec .dstep s = .next t ∧ t.fault = true) ∧
    (let s := { tri with pay := [(0, 0xB0)], pbytes := 1, bitlen := 8, rpos := 7 }; Inv s ∧ s.fault = false ∧ s.phase ≠ .load ∧
      ∃ t, exec .dstep s = .next t ∧ t.fault = false) :=
  ⟨⟨bare_inv 1 (by decide), exists_next (by decide)⟩,
    ⟨triHost_inv rfl (.inr ⟨_, rfl, rfl⟩) (.inr rfl) (by decide) (by decide), rfl, by decide, exists_next (by decide)⟩,
    ⟨triHost_inv rfl (.inr ⟨_, rfl, rfl⟩) (.inl rfl) (by decide) (by decide), rfl, by decide, exists_next (by decide)⟩,
    triHost_inv rfl (.inr ⟨_, rfl, rfl⟩) (.inr rfl) (by decide) (by decide), rfl, by decide, exists_next (by decide)⟩

theorem witness_EncodedPayloadDecodes : Inv triEnc ∧ triEnc.fault = false ∧ triEnc.pmode = .enc ∧
    EncodedText triEnc [] [0x61, 0x61, 0x61, 0x63] [] := ⟨triEnc_inv, rfl, rfl, triEnc_text⟩

/-- One byte of two is there; and the same with the decoder at the edge of what is there. -/
theorem witness_TruncationIsDetected :
    (let s := { tri with pay := [(0, 0xB0)], pbytes := 1, bitlen := 9 }; Inv s ∧ s.fault = false ∧ s.phase ≠ .load ∧
      8 * s.pbytes < s.bitlen ∧ s.rpos ≤ 8 * s.pbytes ∧ s.rootv = true) ∧
    (let s := { tri with pay := [(0, 0xB0)], pbytes := 1, bitlen := 9, rpos := 8 }; Inv s ∧ s.rpos = 8 * s.pbytes) ∧
    (let s := { bare with bitlen := 1 }; Inv s ∧ s.fault = false ∧ s.phase ≠ .load ∧ 8 * s.pbytes < s.bitlen ∧ s.rpos ≤ 8 * s.pbytes) :=
  ⟨⟨triHost_inv rfl (.inr ⟨_, rfl, rfl⟩) (.inr rfl) (by decide) (by decide), rfl, by decide, by decide, by decide, rfl⟩,
    ⟨triHost_inv rfl (.inr ⟨_, rfl, rfl⟩) (.inr rfl) (by decide) (by decide), by decide⟩,
    bare_inv 1 (by decide), rfl, by decide, by decide, by decide⟩

theorem witness_StepKeepsTheInvariant : Inv (triEnc.pushCommand 0x4000006300000000) ∧
    ∃ t, step (triEnc.pushCommand 0x4000006300000000) = .next t ∧ t.bitlen = 8 :=
  ⟨triEnc_inv.withHost _ _, exists_next (by decide +kernel)⟩

theorem witness_ResetMeetsTheInvariant : oneByte.Legal ∧ Config.default.Legal := by decide

theorem witness_EveryStepEnds : Inv (triEnc.pushCommand 0x5300000000000000) := triEnc_inv.withHost _ _

theorem witness_EverythingFitsItsWidth : Inv triEnc := triEnc_inv

theorem witness_StepKeepsTheEncodedText : Inv triEnc ∧ DecodesItsOwn triEnc ∧ ∃ t, step triEnc = .next t :=
  ⟨triEnc_inv, fun _ => ⟨_, _, _, triEnc_text⟩, _, rfl⟩

/-- The text "aab", its table in the other order, and a second instance with other parameters. -/
def aab : List Symbol := [0x61, 0x61, 0x62]
def aabTable : List (Symbol × Count) := [(0x62, 1), (0x61, 2)]
def twoBytes : Config := { symw := .eight, cw := 2, pcap := 2 }

/-- The states "aab" goes through: 2 = (1, 0, 3), so b = `0`, a = `1`; the payload is 110. -/
def aabLoad : State := { State.fresh oneByte with freq := [(0x61, 2), (0x62, 1)], resp := some 0 }
def aabBuilt : State :=
  { aabLoad with phase := .built, nleaf := 2, nnodes := 3, rootv := true, root := 2, cur := 2, resp := some 2, node := [(0, leafNode 0x61 2), (1, leafNode 0x62 1), (2, mergedNode 1 0 1 2)] }
def aabCoded : State :=
  { aabBuilt with phase := .coded, code := Table.set (Table.set (blankCodes oneByte) 0x62 ⟨true, 1, 0⟩) 0x61 ⟨true, 1, 1⟩ }
def aabEnc (n : Nat) (b : Byte) : State :=
  { aabCoded with pmode := .enc, bitlen := n, pbytes := 1, pay := [(0, b)], resp := some 1 }

theorem next_of {o : Outcome} {t : State}
    (h : (match o with | .next u => decide (u = t) | .fault _ => false | .refused _ => false) = true) :
    o = .next t := by
  cases o with
  | next u => rw [of_decide_eq_true h]
  | fault f => cases h
  | refused r => cases h

theorem aab_coded : execAll (ftab aabTable ++ [.build, .derive]) (State.fresh oneByte) = .next aabCoded := by
  have h1 : exec (.fset 0x62 1) (State.fresh oneByte) = .next { State.fresh oneByte with freq := [(0x62, 1)], resp := some 0 } := rfl
  have h2 : exec (.fset 0x61 2) { State.fresh oneByte with freq := [(0x62, 1)], resp := some 0 } = .next aabLoad := rfl
  have h3 : exec .build aabLoad = .next aabBuilt := next_of (by decide +kernel)
  have h4 : exec .derive aabBuilt = .next aabCoded := next_of (by decide +kernel)
  simp only [ftab, aabTable, List.map, List.cons_append, List.nil_append, execAll, h1, h2, h3, h4]

theorem aab_encoded : execAll (encs aab) aabCoded = .next (aabEnc 3 0xC0) := by
  have h1 : exec (.enc 0x61) aabCoded = .next (aabEnc 1 0x80) := next_of (by decide +kernel)
  have h2 : exec (.enc 0x61) (aabEnc 1 0x80) = .next (aabEnc 2 0xC0) := next_of (by decide +kernel)
  have h3 : exec (.enc 0x62) (aabEnc 2 0xC0) = .next (aabEnc 3 0xC0) := next_of (by decide +kernel)
  simp only [encs, aab, List.map, execAll, h1, h2, h3]

theorem execAll_append (l l' : List Instr) (s : State) : execAll (l ++ l') s =
    match execAll l s with | .next t => execAll l' t | .fault f => .fault f | .refused r => .refused r := by
  induction l generalizing s with
  | nil => rfl
  | cons i l ih =>
    simp only [List.cons_append, execAll]
    split <;> simp_all

theorem aab_tableOf : tableOf oneByte aab = [(0x61, 2), (0x62, 1)] := by decide +kernel

theorem aab_forall {p : Symbol → Prop} (h : p 0x61 ∧ p 0x62) : ∀ x ∈ aab, p x := by
  intro x hx
  simp only [aab, List.mem_cons, List.not_mem_nil, or_false] at hx
  rcases hx with rfl | rfl | rfl
  · exact h.1
  · exact h.1
  · exact h.2

theorem witness_RoundTrip :
    oneByte.Legal ∧ (∀ x ∈ aab, x.toNat < oneByte.nsym) ∧ (∀ x ∈ aab, occurrences aab x < 2 ^ oneByte.cw) ∧
    aabTable.Perm (tableOf oneByte aab) ∧
    ∃ t, execAll (ftab aabTable ++ [.build, .derive]) (State.fresh oneByte) = .next t ∧
      (t.encoding aab).length ≤ 8 * oneByte.pcap := by
  have h : aabCoded.encoding aab = [true, true, false] := by decide +kernel
  refine ⟨by decide, aab_forall (by decide), aab_forall (by decide), ?_, aabCoded, aab_coded, ?_⟩
  · rw [aab_tableOf]; exact List.Perm.swap _ _ _
  · rw [h]; decide

theorem witness_RoundTrip_other : twoBytes.Legal ∧ twoBytes.symw = oneByte.symw ∧
    (∀ x ∈ aab, occurrences aab x < 2 ^ twoBytes.cw) ∧
    (∃ u, execAll (compressSeq aabTable aab) (State.fresh oneByte) = .next u ∧ u.pbytes ≤ twoBytes.pcap) ∧
    aabTable.reverse.Perm aabTable := by
  refine ⟨by decide, rfl, aab_forall (by decide), ⟨aabEnc 3 0xC0, ?_, by decide⟩, List.reverse_perm _⟩
  rw [compressSeq, execAll_append, aab_coded]
  exact aab_encoded

end Sys2Proof.Tests
end

section
/-! What a step runs, what no command touches, and the widths that the invariant gives (00_scope.md R4 to
R10, 10_state.md R22, R36, R37). -/

namespace Sys2Proof.Config

/-! ### The sizes that follow from the parameters -/

theorem two_pow_idw (c : Config) : 2 ^ c.idw = 2 * c.nsym := by
  simp [Config.idw, Config.nsym, Nat.pow_succ, Nat.mul_comm]

theorem two_pow_nw (c : Config) : 2 ^ c.nw = c.nsym * 2 ^ c.cw := by
  simp [Config.nw, Config.nsym, Nat.pow_add, Nat.mul_comm]

theorem nsym_bounds (c : Config) : 256 ≤ c.nsym ∧ c.nsym ≤ 2 ^ 16 := by
  unfold Config.nsym
  cases c.symw <;> decide

/-- The code words hold the longest code (R8). -/
theorem maxLen_le_codeBits (c : Config) : c.maxLen ≤ 32 * c.codeWords := by
  unfold Config.codeWords
  omega

end Sys2Proof.Config

namespace Sys2Proof.Machine

/-! ### The step -/

/-- With a command word as the oldest input, a step runs that word with the input taken (R10). -/
theorem step_command {s : State} {w : CmdWord} {rest : List HostInput} (h : s.inputs = .command w :: rest) :
    step s = runWord w { s with inputs := rest } := by
  simp [step, State.dropInput, h]

theorem runWord_of_decode {w : CmdWord} {i : Instr} (h : decode w = .ok i) (s : State) :
    runWord w s = exec i s := by
  simp [runWord, h]

/-- Settles O6: `step` takes the word and `runWord` performs what it decodes to. -/
theorem stepRunsTheDecodedCommand : Obligations.StepRunsTheDecodedCommand := by
  intro s w rest i hin hdec
  rw [step_command hin, runWord_of_decode hdec]

/-! ### No command is refused

The rules follow the combinators that the meanings are written with. -/

/-- The outcome is a next state or a fault of the model, no refusal of the model. -/
def Unrefused (o : Outcome) : Prop := ∀ r, o ≠ .refused r

theorem unrefused_done (s : State) (v : Word) : Unrefused (done s v) := fun _ => by simp [done]

theorem unrefused_raised (s : State) (c : Cause) (info : Word) : Unrefused (raised s c info) :=
  fun _ => by simp [raised]

theorem unrefused_fault (f : Fault) : Unrefused (.fault f) := fun _ => by simp

theorem unrefused_ite {p : Prop} [Decidable p] {a b : Outcome} (ha : Unrefused a) (hb : Unrefused b) :
    Unrefused (if p then a else b) := by
  split
  · exact ha
  · exact hb

theorem unrefused_unlessFaulted {s : State} {k : Outcome} (hk : Unrefused k) :
    Unrefused (unlessFaulted s k) :=
  unrefused_ite (fun _ => by simp) hk

theorem unrefused_orStop {α : Type} {x : Except Fault α} {k : α → Outcome} (hk : ∀ a, Unrefused (k a)) :
    Unrefused (orStop x k) := by
  cases x with
  | ok a => exact hk a
  | error f => exact unrefused_fault f

theorem unrefused_answerStep (a : StepResult × State) : Unrefused (answerStep a) := by
  obtain ⟨r, s⟩ := a
  cases r with
  | finished | quiet | emitted => exact unrefused_done _ _
  | malformed => exact unrefused_raised _ _ _

theorem unrefused_runSteps (k n : Nat) (s : State) : Unrefused (runSteps k n s) := by
  induction k generalizing n s with
  | zero => exact unrefused_fault _
  | succ k ih =>
    unfold runSteps
    split
    · exact unrefused_fault _
    · exact unrefused_done _ _
    · exact ih _ _
    · exact ih _ _
    · exact unrefused_raised _ _ _

theorem unrefused_execRdcsr (csr : BitVec 16) (s : State) : Unrefused (execRdcsr csr s) := by
  unfold execRdcsr
  split
  · exact unrefused_raised _ _ _
  · exact unrefused_done _ _

theorem unrefused_execNget (field : BitVec 16) (id : BitVec 32) (s : State) :
    Unrefused (execNget field id s) := by
  unfold execNget
  split
  · exact unrefused_raised _ _ _
  · exact unrefused_ite (unrefused_raised _ _ _) (unrefused_orStop fun _ => unrefused_done _ _)

/-- The model gives every command a meaning, on every path. -/
theorem unrefused_exec (i : Instr) (s : State) : Unrefused (exec i s) := by
  have hdone := unrefused_done
  have hraised := unrefused_raised
  cases i with
  | nop => exact hdone _ _
  | rst => exact hdone _ _
  | rdcsr csr => exact unrefused_execRdcsr csr s
  | fset sym count =>
    exact unrefused_unlessFaulted (unrefused_ite (hraised _ _ _) (unrefused_ite (hraised _ _ _) (hdone _ _)))
  | fget sym => exact unrefused_ite (hraised _ _ _) (hdone _ _)
  | build =>
    exact unrefused_unlessFaulted (unrefused_ite (hraised _ _ _) (unrefused_orStop fun _ => hdone _ _))
  | nget field id => exact unrefused_execNget field id s
  | derive =>
    exact unrefused_unlessFaulted (unrefused_ite (hraised _ _ _) (unrefused_orStop fun _ => hdone _ _))
  | clen sym =>
    exact unrefused_ite (hraised _ _ _) (unrefused_ite (hraised _ _ _) (unrefused_orStop fun _ => hdone _ _))
  | cbits sym word =>
    exact unrefused_ite (hraised _ _ _) (unrefused_ite (hraised _ _ _) (unrefused_orStop fun _ => hdone _ _))
  | enc sym =>
    refine unrefused_unlessFaulted (unrefused_ite (hraised _ _ _) (unrefused_ite (hraised _ _ _) ?_))
    exact unrefused_orStop fun _ =>
      unrefused_ite (hraised _ _ _) (unrefused_ite (hraised _ _ _) (unrefused_orStop fun _ => hdone _ _))
  | pget index => exact unrefused_ite (hraised _ _ _) (unrefused_orStop fun _ => hdone _ _)
  | pput byte =>
    exact unrefused_unlessFaulted (unrefused_ite (hraised _ _ _) (unrefused_ite (hraised _ _ _) (hdone _ _)))
  | plen nbits => exact unrefused_unlessFaulted (unrefused_ite (hraised _ _ _) (hdone _ _))
  | dstep =>
    exact unrefused_unlessFaulted
      (unrefused_ite (hraised _ _ _) (unrefused_orStop unrefused_answerStep))
  | drun => exact unrefused_unlessFaulted (unrefused_ite (hraised _ _ _) (unrefused_runSteps _ _ _))

/-! ### The parameters and the host's inputs -/

/-- The two fields of the model's own that no command writes: the parameters (log 1) and what the host has
still to say (log 2). -/
def SameHost (s t : State) : Prop := t.cfg = s.cfg ∧ t.inputs = s.inputs

theorem sameHost_of_effect {i : Instr} {s t : State} (h : Effect i s t) : SameHost s t := by
  cases h with
  | latched _ _ ht => exact ht ▸ ⟨rfl, rfl⟩
  | faulted c info _ _ ht => exact ht ▸ ⟨by simp, by simp⟩
  | drunIllegal _ _ _ ht => exact ht ▸ ⟨by simp, by simp⟩
  | answered v u _ ht _ _ _ hu =>
    have hsame : SameHost s u := by
      rcases hu with ⟨_, _, hu⟩ | ⟨_, hu⟩ | ⟨_, _, _, _, hu⟩ | ⟨_, _, hu⟩ | ⟨_, _, hu⟩ |
        ⟨_, _, hu⟩ | ⟨_, _, hu⟩ | ⟨_, _, hu⟩ | ⟨_, hu, _⟩ <;> (rw [hu]; exact ⟨rfl, rfl⟩)
    exact ht ▸ hsame
  | drunEnded u _ _ _ hu _ _ ht =>
    have hsame : SameHost s u := by
      obtain ⟨c, hu⟩ := hu
      rw [hu]; exact ⟨rfl, rfl⟩
    rcases ht with ⟨_, rfl⟩ | ⟨_, _, rfl⟩
    · simpa [SameHost] using hsame
    · exact hsame

/-- Settles O10: no arm of `exec` is refused, and no effect of a command reaches the two fields. -/
theorem commandsLeaveTheHostAlone : Obligations.CommandsLeaveTheHostAlone := by
  intro i s
  exact ⟨unrefused_exec i s, fun t ht => sameHost_of_effect (exec_effect ht)⟩

/-! ### Counts -/

theorem State.present_length_le (s : State) : s.present.length ≤ s.cfg.nsym :=
  (List.length_filter_le _ _).trans_eq List.length_range

theorem State.mem_present {s : State} {x : Nat} : x ∈ s.present ↔ x < s.cfg.nsym ∧ s.count x ≠ 0 := by
  simp [State.present]

/-- A count fits `CW` bits, listed or not (R35). -/
theorem TablesWf.count_lt {s : State} (h : TablesWf s) (x : Nat) : (s.count x).toNat < 2 ^ s.cfg.cw := by
  unfold State.count freqGet
  cases hx : Table.get? s.freq x with
  | none => simp
  | some c => exact (h.freqRange _ (Table.mem_of_get? hx)).2

/-- All counts together fit `NW` bits (R6). -/
theorem TablesWf.totalCount_lt {s : State} (h : TablesWf s) : s.totalCount < 2 ^ s.cfg.nw := by
  have hle : s.totalCount ≤ s.present.length * (2 ^ s.cfg.cw - 1) := by
    have hsum := List.sum_le_card_nsmul (s.present.map fun x => (s.count x).toNat) (2 ^ s.cfg.cw - 1)
      (by simpa using fun x _ => Nat.le_sub_one_of_lt (h.count_lt x))
    simpa [State.totalCount] using hsum
  calc s.totalCount ≤ s.cfg.nsym * (2 ^ s.cfg.cw - 1) :=
        hle.trans (Nat.mul_le_mul_right _ s.present_length_le)
    _ < s.cfg.nsym * 2 ^ s.cfg.cw := by
        refine Nat.mul_lt_mul_of_pos_left (Nat.sub_lt (Nat.two_pow_pos _) Nat.one_pos) ?_
        have := s.cfg.nsym_bounds
        omega
    _ = 2 ^ s.cfg.nw := s.cfg.two_pow_nw.symm

/-! ### The tree -/

theorem TreeFacts.nleaf_le {s : State} (h : TreeFacts s) : s.nleaf ≤ s.cfg.nsym :=
  h.leaves ▸ s.present_length_le

theorem TreeFacts.nnodes_le {s : State} (h : TreeFacts s) : s.nnodes ≤ s.cfg.maxNodes := by
  have := h.nleaf_le
  have := h.nodes
  unfold Config.maxNodes
  omega

/-- A node of the tree that is no leaf has its id above the leaves', and children of lesser id whose
weights it sums (R128, items 2 and 3). -/
theorem TreeFacts.of_internal {s : State} (h : TreeFacts s) {k : Nat} {n : Node} (hk : k < s.nnodes)
    (hn : s.nodeAt k = some n) (hi : n.kind = .internal) :
    s.nleaf ≤ k ∧ n.l < k ∧ n.r < k ∧
      ∃ nl nr, s.nodeAt n.l = some nl ∧ s.nodeAt n.r = some nr ∧ n.w = nl.w + nr.w := by
  have hleaf : s.nleaf ≤ k := by
    by_contra hlt
    have hlf := h.leaf k (h.leaves ▸ Nat.lt_of_not_le hlt)
    rw [hn, Option.some.injEq] at hlf
    rw [hlf] at hi
    cases hi
  obtain ⟨l, r, nl, nr, hl, hr, hlk, hrk, _, hk'⟩ := h.internal k hleaf hk
  rw [hn, Option.some.injEq] at hk'
  subst hk'
  exact ⟨hleaf, hlk, hrk, nl, nr, hl, hr, rfl⟩

/-- The children of a node have no greater id than it, and its symbol is a Symbol (R128, items 2 and 3). -/
theorem TreeFacts.node_bounds {s : State} (h : TreeFacts s) {i : Nat} {n : Node} (hi : i < s.nnodes)
    (hn : s.nodeAt i = some n) : n.l ≤ i ∧ n.r ≤ i ∧ n.sym.toNat < s.cfg.nsym := by
  by_cases hleaf : i < s.nleaf
  · have hpresent : i < s.present.length := h.leaves ▸ hleaf
    cases hn.symm.trans (h.leaf i hpresent)
    obtain ⟨hx, _⟩ := State.mem_present.1 (List.getElem_mem hpresent)
    exact ⟨i.zero_le, i.zero_le, (Nat.mod_le _ _).trans_lt hx⟩
  · obtain ⟨l, r, _, _, _, _, hl, hr, _, hi'⟩ := h.internal i (Nat.le_of_not_lt hleaf) hi
    cases hn.symm.trans hi'
    exact ⟨hl.le, hr.le, Nat.two_pow_pos _⟩

/-- No node weighs more than the root, which weighs all counts: from a node to its parent the id and the
weight grow (R128, items 3 to 5). -/
theorem TreeFacts.weight_le_totalCount {s : State} (h : TreeFacts s) {i : Nat} {n : Node}
    (hi : i < s.nnodes) (hn : s.nodeAt i = some n) : n.w ≤ s.totalCount := by
  obtain ⟨hrootv, hroot⟩ := h.root
  induction hd : s.nnodes - i using Nat.strong_induction_on generalizing i n with
  | _ d ih =>
    by_cases hlast : i + 1 < s.nnodes
    · obtain ⟨k, ⟨hk, m, hm, hmi, hchild⟩, _⟩ := h.parent i hlast
      obtain ⟨_, hlk, hrk, nl, nr, hl, hr, hw⟩ := h.of_internal hk hm hmi
      have hkm : m.w ≤ s.totalCount := ih (s.nnodes - k) (by omega) hk hm rfl
      rcases hchild with rfl | rfl
      · cases hn.symm.trans hl; omega
      · cases hn.symm.trans hr; omega
    · have hirt : i = s.root := by omega
      have hleaves : 1 ≤ s.nleaf := by have := h.nodes; omega
      obtain ⟨m, hm, hw⟩ := h.total (by simp [hrootv, hleaves])
      rw [hirt, hm, Option.some.injEq] at hn
      rw [← hn, hw]

theorem TreeFacts.nleaf_pos {s : State} (h : TreeFacts s) (hv : s.rootv = true) : 0 < s.nleaf := by
  obtain ⟨hrootv, _⟩ := h.root
  rw [hv] at hrootv
  exact of_decide_eq_true hrootv.symm

/-- Each step of a path leads to a lesser id, so it goes down from the root's by the path's length at least. -/
theorem TreeFacts.path_id_le {s : State} (h : TreeFacts s) {i : Nat} {p : List Bool} (hp : PathTo s i p) :
    i < s.nnodes ∧ i + p.length ≤ s.root := by
  obtain ⟨_, hroot⟩ := h.root
  have hnodes := h.nodes
  induction hp with
  | root hv =>
    have := h.nleaf_pos hv
    rw [List.length_nil]; omega
  | left _ hk hi ih | right _ hk hi ih =>
    obtain ⟨_, hl, hr, _⟩ := h.of_internal ih.1 hk hi
    rw [List.length_append, List.length_singleton]; omega

/-- A path passes through internal nodes only, and there are `NLEAF - 1` of them (R148). -/
theorem TreeFacts.path_length_lt {s : State} (h : TreeFacts s) {i : Nat} {p : List Bool}
    (hp : PathTo s i p) : p.length < s.nleaf := by
  obtain ⟨_, hroot⟩ := h.root
  have hnodes := h.nodes
  cases hp with
  | root hv => exact h.nleaf_pos hv
  | left hp hk hi | right hp hk hi =>
    obtain ⟨hkn, hkp⟩ := h.path_id_le hp
    obtain ⟨hleaf, _⟩ := h.of_internal hkn hk hi
    rw [List.length_append, List.length_singleton]; omega

/-! ### Codes -/

/-- The bits of a path's code take no more room than the path is long (R142). -/
theorem EntryOfPath.bits_lt {e : CodeEntry} {p : List Bool} (h : EntryOfPath e p) :
    e.bits < 2 ^ p.length := by
  obtain ⟨_, _, hbit⟩ := h
  refine Nat.lt_pow_two_of_testBit _ fun j hj => ?_
  rw [hbit, List.getD_eq_default _ _ hj]

/-- A code is no longer than `MAXLEN` and has no bit above its length (R142, R148). -/
theorem CodeFacts.entry_bounds {s : State} (h : CodeFacts s) (ht : TreeFacts s) {x : Nat} {e : CodeEntry}
    (hx : x < s.cfg.nsym) (he : s.codeAt x = some e) : e.len ≤ s.cfg.maxLen ∧ e.bits < 2 ^ e.len := by
  have hsize := s.cfg.nsym_bounds
  have hmax : s.cfg.maxLen = s.cfg.nsym - 1 := rfl
  by_cases hc : s.count x = 0
  · cases he.symm.trans (h.absent x hx hc)
    simp
  · by_cases hone : s.nleaf = 1
    · cases he.symm.trans (h.single x hx hc hone)
      simp; omega
    · have hpos : 0 < s.nleaf := ht.leaves ▸ List.length_pos_of_mem (State.mem_present.2 ⟨hx, hc⟩)
      obtain ⟨i, n, p, e', _, _, _, hp, he', hentry⟩ := h.path x hx hc (by omega)
      cases he.symm.trans he'
      have hbits := hentry.bits_lt
      obtain ⟨_, hlen, _⟩ := hentry
      have := ht.path_length_lt hp
      have := ht.nleaf_le
      exact ⟨by omega, hlen ▸ hbits⟩

/-! ### The invariant gives the widths -/

section Widths

variable {s : State}

/-- A node that holds a value is one of a tree: before BUILD there is none. -/
theorem Inv.tree_of_nodeAt (h : Inv s) {i : Nat} {n : Node} (hn : s.nodeAt i = some n) :
    i < s.nnodes ∧ TreeFacts s := by
  have hi : i < s.nnodes := (h.tables.nodeWritten i).1 (by simp [hn])
  refine ⟨hi, h.tree fun hp => ?_⟩
  obtain ⟨_, hnodes, _⟩ := h.load hp
  omega

theorem Inv.idRegisters_lt (h : Inv s) : s.nleaf < 2 ^ s.cfg.idw ∧ s.nnodes < 2 ^ s.cfg.idw ∧
    s.root < 2 ^ s.cfg.idw ∧ s.cur < 2 ^ s.cfg.idw := by
  have hsize := s.cfg.nsym_bounds
  rw [s.cfg.two_pow_idw]
  by_cases hp : s.phase = .load
  · obtain ⟨hleaf, hnodes, _, hroot, hcur, _⟩ := h.load hp
    omega
  · have ht := h.tree hp
    have hleaf := ht.nleaf_le
    have hnodes := ht.nodes
    obtain ⟨_, hroot⟩ := ht.root
    have hcur : s.cur ≤ s.nnodes := by
      cases hv : s.rootv with
      | true => exact (h.cursor.cursor hv).1.le
      | false =>
        obtain ⟨_, hcur, _⟩ := h.cursor.noTree hv
        omega
    omega

theorem Inv.pbytes_lt (h : Inv s) : s.pbytes < 2 ^ 32 := by
  obtain ⟨_, _, _, hcap⟩ := h.legal
  have := h.payload.capacity
  omega

theorem Inv.node_fits (h : Inv s) {i : Nat} {n : Node} (hn : s.nodeAt i = some n) :
    i < s.cfg.maxNodes ∧ n.l < 2 ^ s.cfg.idw ∧ n.r < 2 ^ s.cfg.idw ∧
      n.sym.toNat < 2 ^ s.cfg.symw.bits ∧ n.w < 2 ^ s.cfg.nw := by
  obtain ⟨hi, ht⟩ := h.tree_of_nodeAt hn
  obtain ⟨hl, hr, hsym⟩ := ht.node_bounds hi hn
  obtain ⟨_, hid, _⟩ := h.idRegisters_lt
  have hw := (ht.weight_le_totalCount hi hn).trans_lt h.tables.totalCount_lt
  exact ⟨hi.trans_le ht.nnodes_le, by omega, by omega, hsym, hw⟩

theorem Inv.code_fits (h : Inv s) {x : Nat} {e : CodeEntry} (he : s.codeAt x = some e) :
    e.len ≤ s.cfg.maxLen ∧ e.len < 2 ^ s.cfg.lenw ∧ e.bits < 2 ^ (32 * s.cfg.codeWords) := by
  obtain ⟨hcoded, hx⟩ := (h.tables.codeWritten x).1 (by simp [he])
  obtain ⟨hlen, hbits⟩ := (h.codes hcoded).entry_bounds (h.tree (by simp [hcoded])) hx he
  refine ⟨hlen, ?_, hbits.trans_le (Nat.pow_le_pow_right two_pos (hlen.trans s.cfg.maxLen_le_codeBits))⟩
  have := s.cfg.nsym_bounds
  have : s.cfg.maxLen = s.cfg.nsym - 1 := rfl
  change e.len < s.cfg.nsym
  omega

end Widths

/-- Settles O55: the registers by the sizes of the tree, the weights by the root's, which is the sum of all
counts, the codes by the length of a path. -/
theorem everythingFitsItsWidth : Obligations.EverythingFitsItsWidth := fun _ h =>
  { idRegisters := h.idRegisters_lt
    wordRegisters := ⟨h.bitlenWidth, h.pbytes_lt, h.rposWidth⟩
    counts := h.tables.count_lt
    nodes := fun _ _ => h.node_fits
    codes := fun _ _ => h.code_fits }

end Sys2Proof.Machine
end

section
/-! What BUILD leaves (41_tree_builder.md R121 to R128): between two merges the arena is a forest whose
roots are the queue, so the loop ends with the tree of R128. -/

namespace Sys2Proof.Machine

/-! ### TB_INIT -/

/-- Those of the symbols that have a count. -/
def State.counted (s : State) (l : List Nat) : List Nat := l.filter fun x => s.count x ≠ 0

theorem State.counted_cons (s : State) (x : Nat) (l : List Nat) :
    s.counted (x :: l) = if s.count x = 0 then s.counted l else x :: s.counted l := by
  unfold State.counted
  split_ifs with hx
  · exact List.filter_cons_of_neg (by simpa using hx)
  · exact List.filter_cons_of_pos (by simpa using hx)

@[simp] theorem State.count_writeNode (s : State) (i : Nat) (n : Node) (x : Nat) :
    (s.writeNode i n).count x = s.count x := rfl

@[simp] theorem State.counted_writeNode (s : State) (i : Nat) (n : Node) (l : List Nat) :
    (s.writeNode i n).counted l = s.counted l := rfl

/-- TB_INIT's scan numbers the symbols with a count from `n` on, in the order given, and queues their ids (R121). -/
theorem tbScan_queue (l : List Nat) (n : Nat) (s : State) (q : List Nat) :
    (tbScan l n s q).1 = n + (s.counted l).length ∧
      (tbScan l n s q).2.2 = q ++ List.range' n (s.counted l).length := by
  induction l generalizing n s q with
  | nil => simp [tbScan, State.counted]
  | cons x l ih =>
    unfold tbScan
    rw [State.counted_cons]
    split_ifs
    · exact ih n s q
    · obtain ⟨hn, hq⟩ := ih (n + 1) (s.writeNode n (leafNode x (s.count x))) (q ++ [n])
      rw [hn, hq]
      simp [List.range'_succ]
      omega

/-- The node at every id after TB_INIT's scan: the leaf of the symbol it numbers, or what was there (R121). -/
theorem tbScan_nodeAt (l : List Nat) (n : Nat) (s : State) (q : List Nat) (i : Nat) :
    (tbScan l n s q).2.1.nodeAt i = if n ≤ i then
      ((s.counted l)[i - n]?.map fun x => leafNode x (s.count x)).or (s.nodeAt i) else s.nodeAt i := by
  induction l generalizing n s q with
  | nil => simp [tbScan, State.counted]
  | cons x l ih =>
    unfold tbScan
    rw [State.counted_cons]
    split_ifs with hx hi hi
    · rw [ih, if_pos hi]
    · rw [ih, if_neg hi]
    · rw [ih]
      rcases Nat.eq_or_lt_of_le hi with rfl | hlt
      · simp
      · have hsub : i - n = (i - (n + 1)) + 1 := by omega
        simp [hsub, hlt, hlt.ne']
    · rw [ih, if_neg (by omega), State.nodeAt_writeNode, if_neg (by omega)]

theorem tbScan_wf {l : List Nat} {n : Nat} {s : State} {q : List Nat} (h : Table.wf s.node) :
    Table.wf (tbScan l n s q).2.1.node := by
  induction l generalizing n s q with
  | nil => exact h
  | cons x l ih =>
    unfold tbScan
    split_ifs
    · exact ih h
    · exact ih (Table.set_wf h _ _)

/-- TB_INIT queues the ids of the symbols with a count and changes `NODE` and the two counters alone (R121). -/
theorem tbInit_eq (s : State) : tbInit s =
    ({ s with node := (tbInit s).1.node, nleaf := s.present.length, nnodes := s.present.length },
      List.range s.present.length) := by
  obtain ⟨hn, hq⟩ := tbScan_queue (List.range s.cfg.nsym) 0 s []
  rw [Nat.zero_add] at hn
  rw [List.nil_append, ← List.range_eq_range'] at hq
  refine Prod.ext ?_ hq
  have hleaf : (tbInit s).1.nleaf = s.present.length := hn
  have hnodes : (tbInit s).1.nnodes = s.present.length := hn
  rw [← hleaf, ← hnodes.trans hleaf.symm]
  exact tbInit_frame s

theorem tbInit_nodeAt (s : State) (i : Nat) : (tbInit s).1.nodeAt i =
    (s.present[i]?.map fun x => leafNode x (s.count x)).or (s.nodeAt i) :=
  tbScan_nodeAt (List.range s.cfg.nsym) 0 s [] i

/-! ### TB_MERGE -/

/-- PQ_MIN takes one of its ids out of the queue (R122). -/
theorem pqMin_cases {s : State} {q q' : List Nat} {m : Nat} (h : pqMin s q = .ok (m, q')) :
    m ∈ q ∧ q' = q.erase m := by
  cases q with
  | nil => cases h
  | cons i q =>
    simp only [pqMin] at h
    split at h
    · cases h
    · split at h
      · cases h
      · rename_i hm
        cases h
        exact ⟨List.mem_cons.2 (pqLeast_mem hm), rfl⟩

/-- The state after a merge: the node over `a` and `b` stands at the old `NNODES` (R123). -/
def State.merge (s : State) (a b wa wb : Nat) : State :=
  { s.writeNode s.nnodes (mergedNode a b wa wb) with nnodes := s.nnodes + 1 }

@[simp] theorem State.nodeAt_merge (s : State) (a b wa wb i : Nat) :
    (s.merge a b wa wb).nodeAt i = if i = s.nnodes then some (mergedNode a b wa wb) else s.nodeAt i :=
  s.nodeAt_writeNode s.nnodes i _

/-- TB_MERGE joins two ids of the queue under a new node, which takes their place in it (R123). -/
theorem tbMerge_cases {s t : State} {q q' : List Nat} (h : tbMerge s q = .ok (t, q')) :
    ∃ a b na nb, a ∈ q ∧ b ∈ q.erase a ∧ s.nodeAt a = some na ∧ s.nodeAt b = some nb ∧
      t = s.merge a b na.w nb.w ∧ q' = (q.erase a).erase b ++ [s.nnodes] := by
  unfold tbMerge at h
  split at h
  · cases h
  · rename_i a q1 ha
    split at h
    · cases h
    · rename_i b q2 hb
      obtain ⟨ham, rfl⟩ := pqMin_cases ha
      obtain ⟨hbm, rfl⟩ := pqMin_cases hb
      unfold tbJoin at h
      split at h <;> cases h
      rename_i na nb hna hnb
      exact ⟨a, b, na, nb, ham, hbm, State.readNode_ok.1 hna, State.readNode_ok.1 hnb, rfl, rfl⟩

/-! ### The forest between two merges -/

/-- The weight of a node, 0 where nothing has been written. -/
def State.weightAt (s : State) (i : Nat) : Nat := (s.nodeAt i).elim 0 (·.w)

theorem State.weightAt_of_nodeAt {s : State} {i : Nat} {n : Node} (h : s.nodeAt i = some n) :
    s.weightAt i = n.w := by simp [State.weightAt, h]

/-- What holds of the arena and the queue before and after every merge of BUILD: leaves and internal nodes
are as in R128, the queue holds the nodes that are no child, every other node has one parent, the queue's
weights add up to all counts, and each merge makes one node more and one id less (R123, R128). -/
structure Forest (s : State) (q : List Nat) : Prop where
  leaves : s.nleaf = s.present.length
  size : s.nnodes + q.length = 2 * s.nleaf
  grown : s.nleaf ≤ s.nnodes
  leaf : ∀ i (h : i < s.present.length), s.nodeAt i = some (leafNode s.present[i] (s.count s.present[i]))
  internal : ∀ k, s.nleaf ≤ k → k < s.nnodes → ∃ l r nl nr, s.nodeAt l = some nl ∧
    s.nodeAt r = some nr ∧ l < k ∧ r < k ∧ l ≠ r ∧ s.nodeAt k = some (mergedNode l r nl.w nr.w)
  nodup : q.Nodup
  queued : ∀ i ∈ q, i < s.nnodes ∧ ∀ k, k < s.nnodes → ¬ ChildOf s i k
  parent : ∀ i, i < s.nnodes → i ∉ q → ∃! k, k < s.nnodes ∧ ChildOf s i k
  total : (q.map s.weightAt).sum = s.totalCount

/-- A leaf has no child. -/
theorem not_childOf_leaf {s : State} {i k x : Nat} {c : Count} (h : s.nodeAt k = some (leafNode x c)) :
    ¬ ChildOf s i k := by
  rintro ⟨n, hn, hi, _⟩
  rw [h, Option.some.injEq] at hn
  rw [← hn] at hi
  cases hi

/-- After TB_INIT the arena is a forest of leaves (R121). -/
theorem forest_tbInit (s : State) : Forest (tbInit s).1 (tbInit s).2 := by
  have hnode := tbInit_nodeAt s
  rw [tbInit_eq]
  rw [tbInit_eq] at hnode
  set t : State := { s with node := (tbInit s).1.node, nleaf := s.present.length, nnodes := s.present.length } with ht
  have hpresent : t.present = s.present := rfl
  have hleaf : ∀ i (h : i < s.present.length), t.nodeAt i = some (leafNode s.present[i] (s.count s.present[i])) := by
    intro i h
    simp [hnode, h]
  have hchild : ∀ i k, k < t.nnodes → ¬ ChildOf t i k := fun i k hk => not_childOf_leaf (hleaf k hk)
  exact
    { leaves := rfl
      size := by simp [ht]; omega
      grown := le_rfl
      leaf := hleaf
      internal := fun k h1 h2 => absurd h2 (by simp only [ht] at h1 ⊢; omega)
      nodup := List.nodup_range
      queued := fun i hi => ⟨List.mem_range.1 hi, hchild i⟩
      parent := fun i hi hq => absurd (List.mem_range.2 hi) hq
      total := by
        have hmap : (List.range s.present.length).map t.weightAt = s.present.map fun x => (s.count x).toNat := by
          refine List.ext_getElem (by simp) fun i h _ => ?_
          have hi : i < s.present.length := by simpa using h
          simp [State.weightAt_of_nodeAt (hleaf i hi), leafNode]
        rw [hmap]; rfl }

/-- The node at `NNODES` is nobody's child yet: children have lesser ids. -/
theorem Forest.not_childOf_nnodes {s : State} {q : List Nat} (h : Forest s q) {k : Nat} (hk : k < s.nnodes) :
    ¬ ChildOf s s.nnodes k := by
  by_cases hl : k < s.nleaf
  · exact not_childOf_leaf (h.leaf k (h.leaves ▸ hl))
  · obtain ⟨l, r, nl, nr, _, _, hlk, hrk, _, hnode⟩ := h.internal k (by omega) hk
    rintro ⟨n, hn, _, hc⟩
    cases hn.symm.trans hnode
    have hc : l = s.nnodes ∨ r = s.nnodes := hc
    omega

section Merge

variable {s : State} {a b wa wb : Nat}

/-- A merge makes `a` and `b` the children of the new node and leaves the other families alone (R123). -/
theorem childOf_merge {i k : Nat} : ChildOf (s.merge a b wa wb) i k ↔
    if k = s.nnodes then a = i ∨ b = i else ChildOf s i k := by
  unfold ChildOf
  split_ifs with hk <;> simp [hk, mergedNode, Node.kind]

theorem weightAt_merge {i : Nat} : (s.merge a b wa wb).weightAt i =
    if i = s.nnodes then wa + wb else s.weightAt i := by
  unfold State.weightAt
  rw [State.nodeAt_merge]
  split_ifs <;> rfl

theorem nodeAt_merge_of_lt {i : Nat} (hi : i < s.nnodes) : (s.merge a b wa wb).nodeAt i = s.nodeAt i := by
  rw [State.nodeAt_merge, if_neg hi.ne]

/-- The new node is over `a` and `b` and weighs what both weigh; the older ones are as they were (R123). -/
theorem Forest.internal_merge {q : List Nat} {na nb : Node} (h : Forest s q) (ha : a < s.nnodes)
    (hb : b < s.nnodes) (hab : a ≠ b) (hna : s.nodeAt a = some na) (hnb : s.nodeAt b = some nb) :
    let t := s.merge a b na.w nb.w
    ∀ k, t.nleaf ≤ k → k < t.nnodes → ∃ l r nl nr, t.nodeAt l = some nl ∧ t.nodeAt r = some nr ∧
      l < k ∧ r < k ∧ l ≠ r ∧ t.nodeAt k = some (mergedNode l r nl.w nr.w) := by
  intro t k hk hkn
  rcases Nat.lt_succ_iff_lt_or_eq.1 hkn with hkn | rfl
  · obtain ⟨l, r, nl, nr, hl, hr, hlk, hrk, hlr, hnode⟩ := h.internal k hk hkn
    exact ⟨l, r, nl, nr, (nodeAt_merge_of_lt (hlk.trans hkn)).trans hl,
      (nodeAt_merge_of_lt (hrk.trans hkn)).trans hr, hlk, hrk, hlr, (nodeAt_merge_of_lt hkn).trans hnode⟩
  · exact ⟨a, b, na, nb, (nodeAt_merge_of_lt ha).trans hna, (nodeAt_merge_of_lt hb).trans hnb, ha, hb, hab,
      by simp [t]⟩

theorem perm_cons_cons_erase {q : List Nat} (ha : a ∈ q) (hb : b ∈ q.erase a) :
    q.Perm (a :: b :: (q.erase a).erase b) :=
  (List.perm_cons_erase ha).trans ((List.perm_cons_erase hb).cons a)

/-- The new node brings the weights of `a` and `b` back into the queue (R123, R128 item 5). -/
theorem Forest.total_merge {q : List Nat} {na nb : Node} (h : Forest s q) (ha : a ∈ q) (hb : b ∈ q.erase a)
    (hna : s.nodeAt a = some na) (hnb : s.nodeAt b = some nb) :
    (((q.erase a).erase b ++ [s.nnodes]).map (s.merge a b na.w nb.w).weightAt).sum =
      (s.merge a b na.w nb.w).totalCount := by
  have hmap : ((q.erase a).erase b).map (s.merge a b na.w nb.w).weightAt = ((q.erase a).erase b).map s.weightAt :=
    List.map_congr_left fun i hi => by
      rw [weightAt_merge, if_neg (h.queued i (List.mem_of_mem_erase (List.mem_of_mem_erase hi))).1.ne]
  calc (((q.erase a).erase b ++ [s.nnodes]).map (s.merge a b na.w nb.w).weightAt).sum
      = (((q.erase a).erase b).map s.weightAt).sum + (na.w + nb.w) := by
        rw [List.map_append, List.sum_append, hmap]
        simp [weightAt_merge]
    _ = ((a :: b :: (q.erase a).erase b).map s.weightAt).sum := by
        simp [State.weightAt_of_nodeAt hna, State.weightAt_of_nodeAt hnb]
        omega
    _ = s.totalCount := by rw [← ((perm_cons_cons_erase ha hb).map s.weightAt).sum_eq, h.total]

/-- The parent of every node but the queued ones after a merge: the new node is it for `a` and `b`. -/
theorem Forest.parent_merge {q : List Nat} (h : Forest s q) (ha : a ∈ q) (hb : b ∈ q) {i : Nat}
    (hi : i < s.nnodes) (hq : i ∉ (q.erase a).erase b) :
    ∃! k, k < s.nnodes + 1 ∧ ChildOf (s.merge a b wa wb) i k := by
  by_cases hab : a = i ∨ b = i
  · have hiq : i ∈ q := by rcases hab with rfl | rfl <;> assumption
    refine ⟨s.nnodes, ⟨by omega, childOf_merge.2 (by simpa using hab)⟩, fun k ⟨hk, hc⟩ => ?_⟩
    by_contra hne
    rw [childOf_merge, if_neg hne] at hc
    exact (h.queued i hiq).2 k (by omega) hc
  · rw [not_or] at hab
    have hiq : i ∉ q := fun hmem =>
      hq ((List.mem_erase_of_ne (Ne.symm hab.2)).2 ((List.mem_erase_of_ne (Ne.symm hab.1)).2 hmem))
    obtain ⟨k, ⟨hk, hc⟩, huniq⟩ := h.parent i hi hiq
    refine ⟨k, ⟨by omega, childOf_merge.2 (by rwa [if_neg hk.ne])⟩, fun j ⟨hj, hc'⟩ => ?_⟩
    rw [childOf_merge] at hc'
    split_ifs at hc' with hjn
    · exact absurd hc' (by tauto)
    · exact huniq j ⟨by omega, hc'⟩

/-- The queued nodes but `a` and `b`, and the new node, are no children after a merge. -/
theorem Forest.queued_merge {q q' : List Nat} (h : Forest s q) (hrest : ∀ i ∈ q', i ∈ q ∧ a ≠ i ∧ b ≠ i)
    (ha : a < s.nnodes) (hb : b < s.nnodes) : ∀ i ∈ q' ++ [s.nnodes],
    i < s.nnodes + 1 ∧ ∀ k, k < s.nnodes + 1 → ¬ ChildOf (s.merge a b wa wb) i k := by
  intro i hi
  rcases List.mem_append.1 hi with hi | hi
  · obtain ⟨hiq, hai, hbi⟩ := hrest i hi
    obtain ⟨hin, hc⟩ := h.queued i hiq
    refine ⟨by omega, fun k hk => ?_⟩
    rw [childOf_merge]
    split_ifs
    · exact not_or.2 ⟨hai, hbi⟩
    · exact hc k (by omega)
  · cases List.mem_singleton.1 hi
    refine ⟨by omega, fun k hk => ?_⟩
    rw [childOf_merge]
    split_ifs
    · omega
    · exact h.not_childOf_nnodes (by omega)

end Merge

/-- A merge keeps the forest (R123). -/
theorem forest_tbMerge {s t : State} {q q' : List Nat} (hf : Forest s q) (h : tbMerge s q = .ok (t, q')) :
    Forest t q' := by
  obtain ⟨a, b, na, nb, ha, hb, hna, hnb, rfl, rfl⟩ := tbMerge_cases h
  have hbq : b ∈ q := List.mem_of_mem_erase hb
  obtain ⟨han, _⟩ := hf.queued a ha
  obtain ⟨hbn, _⟩ := hf.queued b hbq
  have hperm := perm_cons_cons_erase ha hb
  have hnodup := hperm.nodup_iff.1 hf.nodup
  simp only [List.nodup_cons, List.mem_cons, not_or] at hnodup
  obtain ⟨⟨hab, har⟩, hbr, hnd⟩ := hnodup
  have hrest : ∀ i ∈ (q.erase a).erase b, i ∈ q ∧ a ≠ i ∧ b ≠ i := fun i hi =>
    ⟨List.mem_of_mem_erase (List.mem_of_mem_erase hi), fun e => har (e ▸ hi), fun e => hbr (e ▸ hi)⟩
  have hsize := hf.size
  have hgrown := hf.grown
  have hlen : q.length = ((q.erase a).erase b).length + 2 := hperm.length_eq
  exact
    { leaves := hf.leaves
      size := by
        rw [List.length_append, List.length_singleton]
        change s.nnodes + 1 + _ = 2 * s.nleaf
        omega
      grown := hgrown.trans (Nat.le_succ _)
      leaf := fun i hi => by
        have hi : i < s.nleaf := hf.leaves ▸ hi
        exact (nodeAt_merge_of_lt (by omega)).trans (hf.leaf i (hf.leaves ▸ hi))
      internal := hf.internal_merge han hbn hab hna hnb
      nodup := by
        refine List.Nodup.append hnd (List.nodup_singleton _) ?_
        simpa using fun hmem => (hf.queued _ (hrest _ hmem).1).1.ne rfl
      queued := hf.queued_merge hrest han hbn
      parent := fun i hi hq => by
        rw [List.mem_append, List.mem_singleton, not_or] at hq
        have hi : i < s.nnodes + 1 := hi
        exact hf.parent_merge ha hbq (by omega) hq.1
      total := hf.total_merge ha hb hna hnb }

/-- What holds before BUILD's loop and is kept by TB_MERGE holds after the loop (R125). -/
theorem MergesTo.keeps {P : State → List Nat → Prop}
    (hstep : ∀ {s t q q'}, P s q → tbMerge s q = .ok (t, q') → P t q') {s t : State} {q q' : List Nat}
    (h : MergesTo s q t q') (hs : P s q) : P t q' := by
  induction h with
  | none => exact hs
  | more _ hm _ ih => exact ih (hstep hs hm)

/-! ### TB_FINISH and the tree -/

theorem buildTree_cases {s t : State} (h : buildTree s = .ok t) : ∃ s' q,
    MergesTo (tbInit s).1 (tbInit s).2 s' q ∧ q.length ≤ 1 ∧ tbFinish s' q = .ok t := by
  simp only [buildTree] at h
  split at h
  · cases h
  · rename_i s' q hloop
    exact ⟨s', q, tbLoop_mergesTo hloop, tbLoop_length (Nat.le_succ _) hloop, h⟩

theorem Forest.node_exists {s : State} {q : List Nat} (h : Forest s q) {i : Nat} (hi : i < s.nnodes) :
    ∃ n, s.nodeAt i = some n := by
  by_cases hl : i < s.nleaf
  · exact ⟨_, h.leaf i (h.leaves ▸ hl)⟩
  · obtain ⟨_, _, _, _, _, _, _, _, _, hnode⟩ := h.internal i (by omega) hi
    exact ⟨_, hnode⟩

/-- The newest node of a forest is queued: nobody can be its parent. -/
theorem Forest.last_queued {s : State} {q : List Nat} (h : Forest s q) (hpos : 0 < s.nnodes) :
    s.nnodes - 1 ∈ q := by
  by_contra hq
  obtain ⟨k, ⟨hk, n, hn, hi, hc⟩, _⟩ := h.parent _ (by omega) hq
  have hleaf : s.nleaf ≤ k := by
    by_contra hlt
    exact not_childOf_leaf (h.leaf k (h.leaves ▸ Nat.lt_of_not_le hlt)) ⟨n, hn, hi, hc⟩
  obtain ⟨l, r, nl, nr, _, _, hlk, hrk, _, hnode⟩ := h.internal k hleaf hk
  cases hn.symm.trans hnode
  have hc : l = s.nnodes - 1 ∨ r = s.nnodes - 1 := hc
  omega

/-- A forest of no root is empty, one of a single root is the tree of R128 with the last node as its root. -/
theorem Forest.treeFacts {s t : State} {q : List Nat} (h : Forest s q) (hfin : tbFinish s q = .ok t) :
    TreeFacts t ∧ t.cur = t.root := by
  have hsize := h.size
  have hgrown := h.grown
  unfold tbFinish at hfin
  split at hfin <;> cases hfin
  · have hpos : s.nnodes = 0 := by
      by_contra hne
      exact absurd (h.last_queued (Nat.pos_of_ne_zero hne)) List.not_mem_nil
    have hleaf : s.nleaf = 0 := by omega
    exact ⟨
      { leaves := h.leaves
        nodes := by simp only; omega
        leaf := h.leaf
        internal := h.internal
        root := by simp [hleaf, hpos]
        parent := fun i hi => by simp only at hi; omega
        total := fun hv => by cases hv }, rfl⟩
  · rename_i r
    rw [List.length_singleton] at hsize
    obtain ⟨hr, _⟩ := h.queued r (List.mem_singleton_self r)
    have hleaf : 1 ≤ s.nleaf := by omega
    have hlast : s.nnodes - 1 = r := List.mem_singleton.1 (h.last_queued (by omega))
    exact ⟨
      { leaves := h.leaves
        nodes := by simp only; omega
        leaf := h.leaf
        internal := h.internal
        root := ⟨(decide_eq_true hleaf).symm, hlast.symm⟩
        parent := fun i hi => h.parent i (by simp only at hi; omega) (by simp only at hi; simp; omega)
        total := fun _ => by
          obtain ⟨n, hn⟩ := h.node_exists hr
          have htotal := h.total
          rw [List.map_singleton, List.sum_singleton, State.weightAt_of_nodeAt hn] at htotal
          exact ⟨n, hn, htotal⟩ }, rfl⟩

/-- BUILD makes the tree of R128 and puts the cursor on its root. -/
theorem buildTree_treeFacts {s t : State} (h : buildTree s = .ok t) : TreeFacts t ∧ t.cur = t.root := by
  obtain ⟨s', q, hm, _, hfin⟩ := buildTree_cases h
  exact (hm.keeps forest_tbMerge (forest_tbInit s)).treeFacts hfin

/-! ### Which nodes hold a value -/

/-- `NODE` is in its canonical form and the nodes below `NNODES` are those that hold a value (R26, R66). -/
def NodesListed (s : State) : Prop := Table.wf s.node ∧ ∀ i, (s.nodeAt i).isSome = true ↔ i < s.nnodes

theorem nodesListed_tbInit {s : State} (hwf : Table.wf s.node) (hnone : ∀ i, s.nodeAt i = none) :
    NodesListed (tbInit s).1 := by
  refine ⟨tbScan_wf hwf, fun i => ?_⟩
  rw [tbInit_nodeAt, hnone, tbInit_eq]
  simp

theorem nodesListed_tbMerge {s t : State} {q q' : List Nat} (hs : NodesListed s)
    (h : tbMerge s q = .ok (t, q')) : NodesListed t := by
  obtain ⟨hwf, hlisted⟩ := hs
  obtain ⟨a, b, na, nb, _, _, _, _, rfl, _⟩ := tbMerge_cases h
  refine ⟨Table.set_wf hwf _ _, fun i => ?_⟩
  change _ ↔ i < s.nnodes + 1
  rw [State.nodeAt_merge]
  split_ifs with hi
  · simp [hi]
  · rw [hlisted]; omega

theorem nodesListed_buildTree {s t : State} (hwf : Table.wf s.node) (hnone : ∀ i, s.nodeAt i = none)
    (h : buildTree s = .ok t) : NodesListed t := by
  obtain ⟨s', q, hm, _, hfin⟩ := buildTree_cases h
  have hs' : NodesListed s' :=
    hm.keeps (P := fun s _ => NodesListed s) nodesListed_tbMerge (nodesListed_tbInit hwf hnone)
  unfold tbFinish at hfin
  split at hfin <;> cases hfin <;> exact hs'

end Sys2Proof.Machine
end

section
/-! What DERIVE leaves (42_code_deriver.md R142 to R145): its walk writes, at every leaf below the node it
starts from, the code of the leaf's path, and nothing else. -/

namespace Sys2Proof.Machine

/-! ### Paths -/

theorem PathTo.of_nil {s : State} {i : Nat} (h : PathTo s i []) : i = s.root := by
  generalize hq : ([] : List Bool) = q at h
  cases h with
  | root => rfl
  | left | right => simp at hq

/-- The last step of a path goes from an internal node to its child on that side (R141). -/
theorem PathTo.of_concat {s : State} {i : Nat} {p : List Bool} {b : Bool} (h : PathTo s i (p ++ [b])) :
    ∃ k n, PathTo s k p ∧ s.nodeAt k = some n ∧ n.kind = .internal ∧ i = if b then n.r else n.l := by
  generalize hq : p ++ [b] = q at h
  cases h with
  | root => simp at hq
  | left hk hn hi | right hk hn hi =>
    obtain ⟨rfl, hb⟩ := List.append_inj' hq rfl
    cases hb
    exact ⟨_, _, hk, hn, hi, rfl⟩

/-- A path leads to one node only. -/
theorem PathTo.eq_of_path {s : State} {i j : Nat} {p : List Bool} (hi : PathTo s i p) (hj : PathTo s j p) :
    i = j := by
  induction p using List.reverseRecOn generalizing i j with
  | nil => rw [hi.of_nil, hj.of_nil]
  | append_singleton p b ih =>
    obtain ⟨k, n, hk, hn, _, rfl⟩ := hi.of_concat
    obtain ⟨k', n', hk', hn', _, rfl⟩ := hj.of_concat
    cases ih hk hk'
    cases hn.symm.trans hn'
    rfl

/-- Where a path goes on, it passes through an internal node. -/
theorem PathTo.internal_of_append {s : State} {i : Nat} {p r : List Bool} (hr : r ≠ [])
    (h : PathTo s i (p ++ r)) : ∃ k n, PathTo s k p ∧ s.nodeAt k = some n ∧ n.kind = .internal := by
  induction r using List.reverseRecOn generalizing i with
  | nil => exact absurd rfl hr
  | append_singleton r b ih =>
    rw [← List.append_assoc] at h
    obtain ⟨k, n, hk, hn, hi, _⟩ := h.of_concat
    rcases eq_or_ne r [] with rfl | hne
    · exact ⟨k, n, by simpa using hk, hn, hi⟩
    · exact ih hne hk

/-- Every node of the tree has a path: its parent's, and one step more (R141, R128 item 4). -/
theorem TreeFacts.path_exists {s : State} (h : TreeFacts s) {i : Nat} (hi : i < s.nnodes) :
    ∃ p, PathTo s i p := by
  obtain ⟨hrootv, hroot⟩ := h.root
  induction hd : s.nnodes - i using Nat.strong_induction_on generalizing i with
  | _ d ih =>
    by_cases hlast : i + 1 < s.nnodes
    · obtain ⟨k, ⟨hk, n, hn, hint, hchild⟩, _⟩ := h.parent i hlast
      obtain ⟨_, hl, hr, _⟩ := h.of_internal hk hn hint
      obtain ⟨p, hp⟩ := ih (s.nnodes - k) (by omega) hk rfl
      rcases hchild with rfl | rfl
      · exact ⟨_, .left hp hn hint⟩
      · exact ⟨_, .right hp hn hint⟩
    · have hleaves : 1 ≤ s.nleaf := by have := h.nodes; omega
      have hir : i = s.root := by omega
      exact ⟨[], hir ▸ .root (by simp [hrootv, hleaves])⟩

/-- The node at an id is a leaf when the id is below `NLEAF`, else internal: none is broken (R128). -/
theorem TreeFacts.kind_eq {s : State} (h : TreeFacts s) {i : Nat} {n : Node} (hi : i < s.nnodes)
    (hn : s.nodeAt i = some n) : n.kind = if i < s.nleaf then .leaf else .internal := by
  split_ifs with hl
  · cases hn.symm.trans (h.leaf i (h.leaves ▸ hl))
    rfl
  · obtain ⟨_, _, _, _, _, _, _, _, _, hnode⟩ := h.internal i (by omega) hi
    cases hn.symm.trans hnode
    rfl

/-! ### The code of a path -/

theorem testBit_pack (p : List Bool) (j : Nat) : (pack p).testBit j = p.getD j false := by
  induction p generalizing j with
  | nil => simp [pack]
  | cons b p ih =>
    cases j with
    | zero => cases b <;> simp [pack, Nat.testBit_zero]
    | succ j =>
      have hhalf : (pack (b :: p)) / 2 = pack p := by cases b <;> simp [pack]; omega
      rw [Nat.testBit_succ, hhalf, ih, List.getD_cons_succ]

theorem entryOfPath_codeOfPath (p : List Bool) : EntryOfPath (codeOfPath p) p :=
  ⟨rfl, rfl, testBit_pack p⟩

/-! ### The walk -/

/-- In `t` the symbol `x` has the code of the path to a leaf of `x` in the tree of `s` (R142). -/
def CodedBy (s t : State) (x : Nat) : Prop :=
  ∃ i n p, s.nodeAt i = some n ∧ n.kind = .leaf ∧ n.sym.toNat = x ∧ PathTo s i p ∧
    t.codeAt x = some (codeOfPath p)

theorem CodedBy.congr {s t u : State} {x : Nat} (h : CodedBy s t x) (he : u.codeAt x = t.codeAt x) :
    CodedBy s u x := by
  obtain ⟨i, n, p, hn, hl, hx, hp, hc⟩ := h
  exact ⟨i, n, p, hn, hl, hx, hp, he.trans hc⟩

/-- From `t` to `u` every leaf below the path `p` has given its symbol its code, and every other entry is
as it was. -/
structure Walked (s t u : State) (p : List Bool) : Prop where
  changed : ∀ x, u.codeAt x = t.codeAt x ∨ CodedBy s u x
  below : ∀ {i n r}, PathTo s i (p ++ r) → s.nodeAt i = some n → n.kind = .leaf → CodedBy s u n.sym.toNat

/-- The walk of a leaf. -/
theorem walked_leaf {s t : State} {i : Nat} {p : List Bool} {n : Node} (hp : PathTo s i p)
    (hn : s.nodeAt i = some n) (hl : n.kind = .leaf) :
    Walked s t (t.writeCode n.sym.toNat (codeOfPath p)) p := by
  have hcoded : CodedBy s (t.writeCode n.sym.toNat (codeOfPath p)) n.sym.toNat :=
    ⟨i, n, p, hn, hl, rfl, hp, by simp⟩
  refine ⟨fun x => ?_, fun {j m r} hj hm hlm => ?_⟩
  · by_cases hx : x = n.sym.toNat
    · exact .inr (hx ▸ hcoded)
    · exact .inl (by simp [hx])
  · rcases eq_or_ne r [] with rfl | hne
    · rw [List.append_nil] at hj
      cases hj.eq_of_path hp
      cases hm.symm.trans hn
      exact hcoded
    · obtain ⟨k, m', hk, hm', hint⟩ := hj.internal_of_append hne
      cases hk.eq_of_path hp
      cases hm'.symm.trans hn
      rw [hl] at hint
      cases hint

/-- The walk of an internal node: its left subtree, then its right one. -/
theorem walked_internal {s t u v : State} {i : Nat} {p : List Bool} {n : Node} (hp : PathTo s i p)
    (hn : s.nodeAt i = some n) (hint : n.kind = .internal) (hl : Walked s t u (p ++ [false]))
    (hr : Walked s u v (p ++ [true])) : Walked s t v p := by
  have hkeep : ∀ x, CodedBy s u x → CodedBy s v x := fun x hx =>
    (hr.changed x).elim (fun he => hx.congr he) id
  refine ⟨fun x => ?_, fun {j m r} hj hm hlm => ?_⟩
  · rcases hl.changed x with hx | hx
    · exact (hr.changed x).imp_left (·.trans hx)
    · exact .inr (hkeep x hx)
  · cases r with
    | nil =>
      rw [List.append_nil] at hj
      cases hj.eq_of_path hp
      cases hm.symm.trans hn
      rw [hlm] at hint
      cases hint
    | cons b r =>
      rw [List.append_cons] at hj
      cases b with
      | false => exact hkeep _ (hl.below hj hm hlm)
      | true => exact hr.below hj hm hlm

/-- DERIVE's walk from a node of the tree writes the codes of the leaves below it (R142, R145). -/
theorem walked_walk {s t u : State} {d i : Nat} {p : List Bool} (hs : TreeFacts s) (hnode : t.node = s.node)
    (hp : PathTo s i p) (h : walk d i p t = .ok u) : Walked s t u p := by
  induction d generalizing t u i p with
  | zero => cases h
  | succ d ih =>
    unfold walk at h
    split at h
    · cases h
    · rename_i n hread
      have hn : s.nodeAt i = some n := by
        have hnt := State.readNode_ok.1 hread
        rwa [State.nodeAt, hnode] at hnt
      split_ifs at h with hleaf
      · cases h
        exact walked_leaf hp hn hleaf
      · have hint : n.kind = .internal := by
          have hkind := hs.kind_eq (hs.path_id_le hp).1 hn
          split_ifs at hkind
          · exact absurd hkind hleaf
          · exact hkind
        split at h
        · cases h
        · rename_i v hv
          have hnode' : v.node = s.node := by rw [walk_frame hv]; exact hnode
          exact walked_internal hp hn hint (ih hnode (.left hp hn hint) hv) (ih hnode' (.right hp hn hint) h)

/-! ### DERIVE -/

/-- Before the walk: every symbol listed, none with a code (R142). -/
def State.blank (s : State) : State := { s with code := blankCodes s.cfg }

theorem Table.get?_map_const {α : Type} (l : List Nat) (v : α) (x : Nat) :
    Table.get? (l.map fun y => (y, v)) x = if x ∈ l then some v else none := by
  induction l with
  | nil => rfl
  | cons y l ih =>
    rw [List.map_cons, Table.get?, ih]
    simp only [List.mem_cons, eq_comm (a := x)]
    split_ifs <;> simp_all

theorem State.codeAt_blank (s : State) (x : Nat) :
    s.blank.codeAt x = if x < s.cfg.nsym then some noCode else none := by
  simpa only [List.mem_range] using! Table.get?_map_const (List.range s.cfg.nsym) noCode x

/-- The leaves' symbols are those with a count (R128, item 2). -/
theorem TreeFacts.exists_leaf {s : State} (h : TreeFacts s) {x : Nat} :
    (∃ i n, i < s.nleaf ∧ s.nodeAt i = some n ∧ n.sym.toNat = x) ↔ x < s.cfg.nsym ∧ s.count x ≠ 0 := by
  have hsym : ∀ i (hi : i < s.present.length), (BitVec.ofNat 16 s.present[i]).toNat = s.present[i] := by
    intro i hi
    obtain ⟨hlt, _⟩ := State.mem_present.1 (List.getElem_mem hi)
    obtain ⟨_, hmax⟩ := s.cfg.nsym_bounds
    exact Nat.mod_eq_of_lt (hlt.trans_le hmax)
  rw [← State.mem_present, List.mem_iff_getElem, h.leaves]
  constructor
  · rintro ⟨i, n, hi, hn, rfl⟩
    cases hn.symm.trans (h.leaf i hi)
    exact ⟨i, hi, (hsym i hi).symm⟩
  · rintro ⟨i, hi, rfl⟩
    exact ⟨i, _, hi, h.leaf i hi, hsym i hi⟩

/-- Only symbols with a count get a code from the walk. -/
theorem CodedBy.present {s t : State} {x : Nat} (h : CodedBy s t x) (hs : TreeFacts s) :
    x < s.cfg.nsym ∧ s.count x ≠ 0 := by
  obtain ⟨i, n, p, hn, hl, hx, hp, _⟩ := h
  refine hs.exists_leaf.1 ⟨i, n, ?_, hn, hx⟩
  have hkind := hs.kind_eq (hs.path_id_le hp).1 hn
  by_contra hi
  rw [hl, if_neg hi] at hkind
  cases hkind

/-- What DERIVE does on a tree of no leaf, of one leaf, of more (R142, R143, R144). -/
theorem deriveCodes_cases {s t : State} (hs : TreeFacts s) (h : deriveCodes s = .ok t) :
    (s.nleaf = 0 ∧ t = s.blank) ∨
    (s.nleaf = 1 ∧ ∃ n, s.nodeAt 0 = some n ∧ t = s.blank.writeCode n.sym.toNat { v := true, len := 1, bits := 0 }) ∨
    (2 ≤ s.nleaf ∧ Walked s s.blank t []) := by
  obtain ⟨hrootv, hroot⟩ := hs.root
  have hnodes := hs.nodes
  simp only [deriveCodes] at h
  split_ifs at h with hv
  · have hpos := hs.nleaf_pos hv
    split at h
    · cases h
    · rename_i n hread
      have hn := State.readNode_ok.1 hread
      have hkind := hs.kind_eq (by omega) hn
      split_ifs at h with hleaf
      · cases h
        have hone : s.nleaf = 1 := by
          by_contra hne
          rw [hleaf, if_neg (by omega)] at hkind
          cases hkind
        have hzero : s.root = 0 := by omega
        exact .inr (.inl ⟨hone, n, hzero ▸ hn, rfl⟩)
      · have htwo : 2 ≤ s.nleaf := by
          by_contra hlt
          rw [if_pos (by omega)] at hkind
          exact hleaf hkind
        exact .inr (.inr ⟨htwo, walked_walk hs rfl (.root hv) h⟩)
  · cases h
    rw [Bool.not_eq_true] at hv
    rw [hv] at hrootv
    have := of_decide_eq_false hrootv.symm
    exact .inl ⟨by omega, rfl⟩

/-- The one leaf of a tree of one leaf holds the one symbol with a count. -/
theorem TreeFacts.single_symbol {s : State} (h : TreeFacts s) (hone : s.nleaf = 1) {n : Node}
    (hn : s.nodeAt 0 = some n) {x : Nat} : n.sym.toNat = x ↔ x < s.cfg.nsym ∧ s.count x ≠ 0 := by
  rw [← h.exists_leaf]
  constructor
  · rintro rfl
    exact ⟨0, n, by omega, hn, rfl⟩
  · rintro ⟨i, m, hi, hm, rfl⟩
    have hzero : i = 0 := by omega
    subst hzero
    cases hn.symm.trans hm
    rfl

/-- DERIVE gives no code to a symbol without a count (R142). -/
theorem codeAt_deriveCodes_of_absent {s t : State} (hs : TreeFacts s) (h : deriveCodes s = .ok t) {x : Nat}
    (hx : ¬ (x < s.cfg.nsym ∧ s.count x ≠ 0)) :
    t.codeAt x = if x < s.cfg.nsym then some noCode else none := by
  rw [← State.codeAt_blank]
  rcases deriveCodes_cases hs h with ⟨_, rfl⟩ | ⟨hone, n, hn, rfl⟩ | ⟨_, hwalk⟩
  · rfl
  · have hne : x ≠ n.sym.toNat := fun he => hx ((hs.single_symbol hone hn).1 he.symm)
    rw [State.codeAt_writeCode, if_neg hne]
  · exact (hwalk.changed x).resolve_right fun hc => hx (hc.present hs)

/-- DERIVE gives the single bit 0 to the only symbol with a count (R144). -/
theorem codeAt_deriveCodes_of_single {s t : State} (hs : TreeFacts s) (h : deriveCodes s = .ok t)
    (hone : s.nleaf = 1) {x : Nat} (hx : x < s.cfg.nsym) (hc : s.count x ≠ 0) :
    t.codeAt x = some { v := true, len := 1, bits := 0 } := by
  rcases deriveCodes_cases hs h with ⟨hzero, _⟩ | ⟨_, n, hn, rfl⟩ | ⟨htwo, _⟩
  · omega
  · rw [State.codeAt_writeCode, if_pos ((hs.single_symbol hone hn).2 ⟨hx, hc⟩).symm]
  · omega

/-- With two symbols or more DERIVE gives each the path of one of its leaves (R142). -/
theorem codedBy_deriveCodes {s t : State} (hs : TreeFacts s) (h : deriveCodes s = .ok t)
    (htwo : 2 ≤ s.nleaf) {x : Nat} (hx : x < s.cfg.nsym) (hc : s.count x ≠ 0) : CodedBy s t x := by
  rcases deriveCodes_cases hs h with ⟨hzero, _⟩ | ⟨hone, _⟩ | ⟨_, hwalk⟩
  · omega
  · omega
  · obtain ⟨i, n, hi, hn, rfl⟩ := hs.exists_leaf.2 ⟨hx, hc⟩
    have hin : i < s.nnodes := by have := hs.nodes; omega
    obtain ⟨p, hp⟩ := hs.path_exists hin
    exact hwalk.below hp hn (by rw [hs.kind_eq hin hn, if_pos hi])

/-- DERIVE leaves the codes of R142. -/
theorem deriveCodes_codeFacts {s t : State} (hs : TreeFacts s) (h : deriveCodes s = .ok t) : CodeFacts t := by
  obtain ⟨c, rfl⟩ : ∃ c, t = { s with code := c } := ⟨_, deriveCodes_frame h⟩
  refine ⟨fun x hx hc => ?_, fun x hx hc hone => codeAt_deriveCodes_of_single hs h hone hx hc,
    fun x hx hc htwo => ?_⟩
  · rw [codeAt_deriveCodes_of_absent hs h (fun hp => hp.2 hc)]
    exact if_pos hx
  · obtain ⟨i, n, p, hn, hl, hsym, hp, hcode⟩ := codedBy_deriveCodes hs h htwo hx hc
    exact ⟨i, n, p, _, hn, hl, hsym, PathTo.congr (s := s) (t := { s with code := c }) rfl rfl rfl hp, hcode, entryOfPath_codeOfPath p⟩

/-- Every symbol has an entry once the codes are there, with or without a code (R67). -/
theorem CodeFacts.isSome {s : State} (h : CodeFacts s) (ht : TreeFacts s) {x : Nat} (hx : x < s.cfg.nsym) :
    (s.codeAt x).isSome = true := by
  by_cases hc : s.count x = 0
  · rw [h.absent x hx hc]; rfl
  · have hpos : 0 < s.nleaf := ht.leaves ▸ List.length_pos_of_mem (State.mem_present.2 ⟨hx, hc⟩)
    rcases Nat.eq_or_lt_of_le hpos with hone | htwo
    · rw [h.single x hx hc hone.symm]; rfl
    · obtain ⟨_, _, _, _, _, _, _, _, he, _⟩ := h.path x hx hc htwo
      rw [he]; rfl

theorem isSome_codeAt_deriveCodes {s t : State} (hs : TreeFacts s) (h : deriveCodes s = .ok t) (x : Nat) :
    (t.codeAt x).isSome = true ↔ x < s.cfg.nsym := by
  have hcodes := deriveCodes_codeFacts hs h
  have habsent := codeAt_deriveCodes_of_absent hs h (x := x)
  obtain ⟨c, rfl⟩ : ∃ c, t = { s with code := c } := ⟨_, deriveCodes_frame h⟩
  by_cases hx : x < s.cfg.nsym
  · simp only [hx, iff_true]
    exact hcodes.isSome (hs.congr rfl) hx
  · rw [habsent (fun hp => hx hp.1), if_neg hx]
    simp [hx]

theorem walk_wf {d i : Nat} {p : List Bool} {s t : State} (hs : Table.wf s.code) (h : walk d i p s = .ok t) :
    Table.wf t.code := by
  induction d generalizing i p s t with
  | zero => cases h
  | succ d ih =>
    unfold walk at h
    split at h
    · cases h
    · split_ifs at h
      · cases h; exact Table.set_wf hs _ _
      · split at h
        · cases h
        · rename_i hv
          exact ih (ih hs hv) h

theorem deriveCodes_wf {s t : State} (h : deriveCodes s = .ok t) : Table.wf t.code := by
  have hblank : Table.wf (blankCodes s.cfg) := by
    rw [Table.wf, blankCodes, List.pairwise_map]
    exact List.pairwise_lt_range
  simp only [deriveCodes] at h
  split_ifs at h
  · split at h
    · cases h
    · split_ifs at h
      · cases h; exact Table.set_wf hblank _ _
      · exact walk_wf hblank h
  · cases h; exact hblank

end Sys2Proof.Machine
end

section
/-! What the encoder does to the payload and what one Step of the decoder does to its registers
(20_memory.md R69, 43_encoder.md R161, R162, 44_decoder.md R184). -/

namespace Sys2Proof.Machine

/-! ### The payload while the encoder owns it -/

/-- The payload's bytes are those its bits take up, and the bits left over in the last byte are 0 (R162). -/
structure PayTight (s : State) : Prop where
  wf : Memory.wf s.pay
  size : s.pbytes = (s.bitlen + 7) / 8
  written : ∀ q, (s.byteAt q).isSome = true ↔ q < s.pbytes
  padding : ∀ p, s.bitlen ≤ p → p < 8 * s.pbytes → s.payBit p = some false

theorem getLsbD_bitAt (v : Bool) (k j : Nat) : (bitAt v k).getLsbD j = (decide (j < 8 ∧ j = k) && v) := by
  unfold bitAt
  simp only [BitVec.getLsbD_shiftLeft, BitVec.getLsbD_setWidth, BitVec.getLsbD_ofBool]
  grind

/-- PutBit writes the byte that holds position `BITLEN`: what it held, or 0 for a new byte, with the bit
added (R69). -/
theorem State.putBit_cases {s t : State} {v : Bool} (h : s.putBit v = .ok t) : ∃ old : Byte,
    (s.bitlen % 8 = 0 → old = 0) ∧ (s.bitlen % 8 ≠ 0 → s.byteAt (s.bitlen / 8) = some old) ∧
    t = { s with pay := Memory.write s.pay (s.bitlen / 8) (old ||| bitAt v (7 - s.bitlen % 8)), pbytes := if s.bitlen % 8 = 0 then s.bitlen / 8 + 1 else s.pbytes, bitlen := s.bitlen + 1 } := by
  simp only [State.putBit] at h
  split_ifs at h with hr
  · cases h
    exact ⟨0, fun _ => rfl, fun hne => absurd hr hne, by simp [hr]⟩
  · split at h
    · rename_i b hb
      cases h
      refine ⟨b, fun he => absurd he hr, fun _ => ?_, by simp [hr]⟩
      unfold State.readByte at hb
      split at hb <;> cases hb
      assumption
    · cases h

theorem State.byteAt_eq_some_of_payBit {s : State} {p : Nat} {b : Byte} {v : Bool}
    (hb : s.byteAt (p / 8) = some b) (hp : s.payBit p = some v) : b.getLsbD (7 - p % 8) = v := by
  simpa [State.payBit, hb] using hp

/-- PutBit keeps the payload tight (R69, R162). -/
theorem payTight_putBit {s t : State} {v : Bool} (hs : PayTight s) (h : s.putBit v = .ok t) :
    PayTight t ∧ t.bitlen = s.bitlen + 1 := by
  obtain ⟨old, hnew, hold, rfl⟩ := State.putBit_cases h
  have hsize := hs.size
  have hbytes : (if s.bitlen % 8 = 0 then s.bitlen / 8 + 1 else s.pbytes) = s.bitlen / 8 + 1 := by
    split_ifs <;> omega
  refine ⟨
    { wf := Memory.write_wf hs.wf _ _
      size := by simp only [hbytes]; omega
      written := fun q => ?_
      padding := fun p hp hlast => ?_ }, rfl⟩
  · simp only [hbytes, State.byteAt, Memory.read_write]
    split_ifs with hq
    · simp [hq]
    · have hwritten := hs.written q
      rw [State.byteAt] at hwritten
      rw [hwritten]
      omega
  · simp only [hbytes] at hp hlast
    have hq : p / 8 = s.bitlen / 8 := by omega
    have hbit : old.getLsbD (7 - p % 8) = false := by
      by_cases hr : s.bitlen % 8 = 0
      · simp [hnew hr]
      · exact State.byteAt_eq_some_of_payBit (hq ▸ hold hr) (hs.padding p (by omega) (by omega))
    have hother : ¬ (7 - p % 8 < 8 ∧ 7 - p % 8 = 7 - s.bitlen % 8) := by omega
    simp [State.payBit, State.byteAt, hq, hbit, getLsbD_bitAt, hother]

/-- So does ENC's loop, which appends as many bits as it is told (R161). -/
theorem payTight_putCode {e : CodeEntry} {n i : Nat} {s t : State} (hs : PayTight s)
    (h : putCode e n i s = .ok t) : PayTight t ∧ t.bitlen = s.bitlen + n := by
  induction n generalizing i s with
  | zero => cases h; exact ⟨hs, rfl⟩
  | succ n ih =>
    unfold putCode at h
    split at h
    · cases h
    · rename_i s' hput
      obtain ⟨hs', hlen⟩ := payTight_putBit hs hput
      obtain ⟨ht, hlen'⟩ := ih hs' h
      exact ⟨ht, by omega⟩

/-! ### One Step of the decoder -/

/-- One bit is consumed: the cursor moves to an internal node, or a node's symbol is emitted and the cursor
stays or goes back to the root (R184). -/
inductive Consumes (s : State) : State → Prop where
  | moved {c : Nat} {n : Node} : s.nodeAt c = some n → n.kind = .internal →
      Consumes s { s with rpos := s.rpos + 1, cur := c }
  | emitted {i c : Nat} {n : Node} : s.nodeAt i = some n → c = s.cur ∨ c = s.root →
      Consumes s { s with rpos := s.rpos + 1, cur := c, out := s.out ++ [n.sym] }

theorem descend_cases {s t : State} {c : Nat} {r : StepResult} (h : descend s c = .ok (r, t)) :
    t = s ∨ Consumes s t := by
  unfold descend at h
  split at h
  · cases h
  · rename_i n hn
    have hn := State.readNode_ok.1 hn
    split at h <;> cases h
    · exact .inr (.emitted hn (.inr rfl))
    · exact .inr (.moved hn ‹_›)
    · exact .inl rfl

theorem stepFromCursor_cases {s t : State} {b : Bool} {r : StepResult}
    (h : stepFromCursor s b = .ok (r, t)) : t = s ∨ Consumes s t := by
  unfold stepFromCursor at h
  split at h
  · cases h
  · split at h
    · exact descend_cases h
    · cases h; exact .inl rfl

theorem stepWithBit_cases {s t : State} {b : Bool} {r : StepResult} (h : stepWithBit s b = .ok (r, t)) :
    t = s ∨ Consumes s t := by
  unfold stepWithBit at h
  split at h
  · cases h
  · rename_i n hn
    split_ifs at h
    · cases h
      exact .inr (.emitted (State.readNode_ok.1 hn) (.inl rfl))
    · exact stepFromCursor_cases h

/-- A Step changes nothing, or there is a bit and a tree and it consumes the bit (R184). -/
theorem decodeStep_consumes {s t : State} {r : StepResult} (h : decodeStep s = .ok (r, t)) :
    t = s ∨ (s.rpos < s.bitlen ∧ s.rootv = true ∧ Consumes s t) := by
  unfold decodeStep at h
  split_ifs at h with hend _ hv
  · cases h; exact .inl rfl
  · cases h; exact .inl rfl
  · cases h; exact .inl rfl
  · cases h; exact .inl rfl
  · split at h
    · cases h
    · exact (stepWithBit_cases h).imp_right fun hc => ⟨by omega, by simpa using hv, hc⟩

end Sys2Proof.Machine
end

section
/-! Every command keeps the invariant (10_state.md R41). The parts of the invariant are carried over where
a command leaves their registers and tables alone; each command's proof is about the parts it writes. -/

namespace Sys2Proof.Machine

/-! ### The parts of the invariant depend on their own registers and tables alone -/

theorem TablesWf.congr {s t : State} (h : TablesWf s) (he : t = { t with cfg := s.cfg, phase := s.phase, freq := s.freq, nnodes := s.nnodes, node := s.node, code := s.code, pbytes := s.pbytes, pay := s.pay }) :
    TablesWf t := by
  rw [he]
  exact ⟨h.freq, h.freqRange, h.node, h.nodeWritten, h.code, h.codeWritten, h.pay, h.payWritten⟩

theorem PayloadFacts.congr {s t : State} (h : PayloadFacts s) (he : t = { t with cfg := s.cfg, phase := s.phase, pmode := s.pmode, bitlen := s.bitlen, pbytes := s.pbytes, pay := s.pay }) :
    PayloadFacts t := by
  rw [he]
  exact ⟨h.capacity, h.unowned, h.encoded, h.padding⟩

theorem CursorFacts.congr {s t : State} (h : CursorFacts s) (he : t = { t with cfg := s.cfg, rootv := s.rootv, root := s.root, nnodes := s.nnodes, node := s.node, cur := s.cur, rpos := s.rpos, out := s.out }) :
    CursorFacts t := by
  rw [he]
  exact ⟨h.cursor, h.noTree, h.emitted⟩

theorem FaultFacts.congr {s t : State} (h : FaultFacts s) (he : t = { t with fault := s.fault, cause := s.cause, finfo := s.finfo }) :
    FaultFacts t := by
  rw [he]
  exact ⟨h.clear, h.latched⟩

/-! ### Reset -/

/-- The reset state, with any legal parameters, meets the invariant (R42). -/
theorem inv_fresh {c : Config} (hc : c.Legal) : Inv (State.fresh c) where
  legal := hc
  tables :=
    { freq := ⟨List.Pairwise.nil, fun _ h => absurd h List.not_mem_nil⟩
      freqRange := fun _ h => absurd h List.not_mem_nil
      node := List.Pairwise.nil
      nodeWritten := fun i => by simp [State.nodeAt, State.fresh, State.reset, Table.get?]
      code := List.Pairwise.nil
      codeWritten := fun x => by simp [State.codeAt, State.fresh, State.reset, Table.get?]
      pay := reset_memory_wf
      payWritten := fun q => by simp [State.byteAt, Memory.read, State.fresh, State.reset, Table.get?] }
  load := fun _ => ⟨rfl, rfl, rfl, rfl, rfl, rfl, rfl⟩
  tree := fun h => absurd rfl h
  codes := fun h => by cases h
  payload :=
    { capacity := Nat.zero_le _
      unowned := fun _ => ⟨rfl, rfl⟩
      encoded := fun h => by cases h
      padding := fun h => by cases h }
  cursor :=
    { cursor := fun h => by cases h
      noTree := fun _ => ⟨rfl, rfl, rfl, rfl⟩
      emitted := fun _ h => absurd h List.not_mem_nil }
  faults := ⟨fun _ => ⟨rfl, rfl⟩, fun h => by cases h⟩
  bitlenWidth := Nat.two_pow_pos _
  rposWidth := Nat.two_pow_pos _

/-- After reset the payload is the encoding of the empty text (R42, R160). -/
theorem encodedText_fresh (c : Config) : EncodedText (State.fresh c) [] [] [] :=
  ⟨by simp [State.fresh, State.reset], fun _ h => absurd h List.not_mem_nil,
    ⟨rfl, fun _ h => absurd h (Nat.not_lt_zero _)⟩, rfl, rfl, .inl ⟨rfl, rfl⟩⟩

/-- Settles O53: after reset the tables are empty and the registers 0, so no item of R41 has anything to bound. -/
theorem resetMeetsTheInvariant : Obligations.ResetMeetsTheInvariant := fun c hc =>
  ⟨inv_fresh hc, fun _ => ⟨[], [], [], encodedText_fresh c⟩⟩

/-- A reset of a state with legal parameters meets the invariant, whatever else the state holds (R250). -/
theorem Inv.toReset {s : State} (h : Inv s) : Inv s.toReset :=
  (inv_fresh h.legal).withHost s.inputs none

/-! ### How a command can end -/

/-- If the outcome is a next state, the state has the property. -/
def Ensures (P : State → Prop) (o : Outcome) : Prop := ∀ t, o = .next t → P t

section Rules

variable {P : State → Prop}

theorem ensures_next {s : State} (h : P s) : Ensures P (.next s) := fun t ht => by cases ht; exact h

theorem ensures_fault (f : Fault) : Ensures P (.fault f) := fun t ht => by cases ht

theorem ensures_ite {p : Prop} [Decidable p] {a b : Outcome} (ha : p → Ensures P a) (hb : ¬ p → Ensures P b) :
    Ensures P (if p then a else b) := by
  split
  · exact ha ‹_›
  · exact hb ‹_›

theorem ensures_unlessFaulted {s : State} {k : Outcome} (hs : P s.respondLatched)
    (hk : s.fault = false → Ensures P k) : Ensures P (unlessFaulted s k) :=
  ensures_ite (fun _ => ensures_next hs) fun hf => hk (by simpa using hf)

theorem ensures_orStop {α : Type} {r : Except Fault α} {k : α → Outcome}
    (hk : ∀ x, r = .ok x → Ensures P (k x)) : Ensures P (orStop r k) := by
  cases r with
  | ok x => exact hk x rfl
  | error f => exact ensures_fault f

end Rules

/-- A response changes nothing that the invariant speaks of. -/
theorem Inv.respond {s : State} (h : Inv s) (err : BitVec 4) (data : Word) : Inv (s.respond err data) :=
  h.withHost s.inputs _

theorem Inv.done {s : State} (h : Inv s) (v : Word) : Ensures Inv (done s v) := ensures_next (h.respond 0 v)

/-- Taking a fault records one of the causes of R41's item 7, or keeps the one recorded (R221, R223). -/
theorem Inv.raised {s : State} (h : Inv s) {c : Cause} (info : Word)
    (hc : c ∈ [Cause.missingCode, .malformed, .capacity, .sequence, .illegal]) :
    Ensures Inv (Machine.raised s c info) := by
  refine ensures_next ?_
  cases hf : s.fault with
  | true => rw [State.raise_of_fault hf]; exact h.respond _ _
  | false =>
    have hr : s.raise c info = _ := State.raise_of_clear hf c info
    rw [hr]
    exact
      { legal := h.legal
        tables := h.tables.congr rfl
        load := h.load
        tree := fun hp => (h.tree hp).congr rfl
        codes := fun hp => (h.codes hp).congr rfl
        payload := h.payload.congr rfl
        cursor := h.cursor.congr rfl
        faults := ⟨fun hclear => (by cases hclear), fun _ => hc⟩
        bitlenWidth := h.bitlenWidth
        rposWidth := h.rposWidth }

theorem Inv.unlessFaulted {s : State} (h : Inv s) {k : Outcome} (hk : s.fault = false → Ensures Inv k) :
    Ensures Inv (unlessFaulted s k) :=
  ensures_unlessFaulted (h.respond _ _) hk

theorem Inv.raiseIllegal {s : State} (h : Inv s) (i : Instr) : Ensures Inv (raiseIllegal s i) :=
  h.raised _ (by decide)

theorem Inv.raiseSequence {s : State} (h : Inv s) (i : Instr) : Ensures Inv (raiseSequence s i) :=
  h.raised _ (by decide)

/-! ### The reading commands -/

section Reads

variable {s : State} (h : Inv s)
include h

theorem Inv.execRdcsr (csr : BitVec 16) : Ensures Inv (execRdcsr csr s) := by
  unfold Machine.execRdcsr
  split
  · exact h.raiseIllegal _
  · exact h.done _

theorem Inv.execFget (x : Symbol) : Ensures Inv (execFget x s) :=
  ensures_ite (fun _ => h.raiseIllegal _) fun _ => h.done _

theorem Inv.execNget (field : BitVec 16) (id : BitVec 32) : Ensures Inv (execNget field id s) := by
  unfold Machine.execNget
  split
  · exact h.raiseIllegal _
  · exact ensures_ite (fun _ => h.raiseIllegal _) fun _ => ensures_orStop fun _ _ => h.done _

theorem Inv.execClen (x : Symbol) : Ensures Inv (execClen x s) :=
  ensures_ite (fun _ => h.raiseIllegal _) fun _ =>
    ensures_ite (fun _ => h.raiseSequence _) fun _ => ensures_orStop fun _ _ => h.done _

theorem Inv.execCbits (x : Symbol) (word : BitVec 32) : Ensures Inv (execCbits x word s) :=
  ensures_ite (fun _ => h.raiseIllegal _) fun _ =>
    ensures_ite (fun _ => h.raiseSequence _) fun _ => ensures_orStop fun _ _ => h.done _

theorem Inv.execPget (index : BitVec 32) : Ensures Inv (execPget index s) :=
  ensures_ite (fun _ => h.raiseIllegal _) fun _ => ensures_orStop fun _ _ => h.done _

end Reads

/-! ### The frequency table -/

/-- A count in range keeps the table in range (R35, R103). -/
theorem TablesWf.freqSet {s : State} (h : TablesWf s) {x : Nat} {c : Count} (hx : x < s.cfg.nsym)
    (hc : c.toNat < 2 ^ s.cfg.cw) : TablesWf { s with freq := freqSet s.freq x c } where
  freq := freqSet_wf h.freq x c
  freqRange := fun e he => by
    simp only [Machine.freqSet] at he
    split_ifs at he
    · exact h.freqRange e (Table.mem_erase he).1
    · rcases Table.mem_set he with rfl | he
      · exact ⟨hx, hc⟩
      · exact h.freqRange e he
  node := h.node
  nodeWritten := h.nodeWritten
  code := h.code
  codeWritten := h.codeWritten
  pay := h.pay
  payWritten := h.payWritten

theorem Inv.execFset {s : State} (h : Inv s) (x : Symbol) (c : Count) : Ensures Inv (execFset x c s) := by
  refine h.unlessFaulted fun _ => ensures_ite (fun _ => h.raiseIllegal _) fun hrange =>
    ensures_ite (fun _ => h.raiseSequence _) fun hload => Inv.done ?_ _
  simp [Config.symOk, Config.countOk] at hrange hload
  exact
    { legal := h.legal
      tables := h.tables.freqSet hrange.1 hrange.2
      load := h.load
      tree := fun hp => absurd hload hp
      codes := fun hp => absurd (hload.symm.trans hp) (by decide)
      payload := h.payload.congr rfl
      cursor := h.cursor.congr rfl
      faults := h.faults.congr rfl
      bitlenWidth := h.bitlenWidth
      rposWidth := h.rposWidth }

/-! ### BUILD and DERIVE -/

/-- Nothing is written in the arena before BUILD (R26, R66). -/
theorem Inv.nodeAt_of_load {s : State} (h : Inv s) (hload : s.phase = .load) (i : Nat) : s.nodeAt i = none := by
  obtain ⟨_, hnodes, _⟩ := h.load hload
  have hi := h.tables.nodeWritten i
  rw [hnodes] at hi
  simpa using hi

/-- A cursor on the root of the tree, with nothing decoded yet (R41 item 6). -/
theorem TreeFacts.cursorFacts_at_root {s : State} (h : TreeFacts s) (hcur : s.cur = s.root) (hrpos : s.rpos = 0)
    (hout : s.out = []) : CursorFacts s := by
  obtain ⟨hrootv, hroot⟩ := h.root
  have hnodes := h.nodes
  refine ⟨fun hv => ⟨?_, .inl hcur⟩, fun hv => ?_, fun x hx => ?_⟩
  · have := h.nleaf_pos hv
    omega
  · rw [hv] at hrootv
    have := of_decide_eq_false hrootv.symm
    exact ⟨by omega, by omega, hrpos, hout⟩
  · rw [hout] at hx
    exact absurd hx List.not_mem_nil

theorem Inv.built {s t : State} (h : Inv s) (hload : s.phase = .load) (hb : buildTree s = .ok t) :
    Inv { t with phase := .built } := by
  obtain ⟨htree, hcur⟩ := buildTree_treeFacts hb
  obtain ⟨hwf, hlisted⟩ := nodesListed_buildTree h.tables.node (h.nodeAt_of_load hload) hb
  obtain ⟨_, _, _, _, _, hrpos, hout⟩ := h.load hload
  obtain ⟨node, nleaf, nnodes, rootv, root, cur, rfl⟩ : ∃ node nleaf nnodes rootv root cur, t = { s with node := node, nleaf := nleaf, nnodes := nnodes, rootv := rootv, root := root, cur := cur } :=
    ⟨_, _, _, _, _, _, buildTree_frame hb⟩
  have hcoded : s.phase ≠ .coded := by rw [hload]; decide
  have hcursor := htree.cursorFacts_at_root hcur hrpos hout
  exact
    { legal := h.legal
      tables :=
        { freq := h.tables.freq
          freqRange := h.tables.freqRange
          node := hwf
          nodeWritten := hlisted
          code := h.tables.code
          codeWritten := fun x => (h.tables.codeWritten x).trans (by simp [hload])
          pay := h.tables.pay
          payWritten := h.tables.payWritten }
      load := fun hp => by cases hp
      tree := fun _ => htree.congr rfl
      codes := fun hp => by cases hp
      payload :=
        { capacity := h.payload.capacity
          unowned := h.payload.unowned
          encoded := fun he => absurd (h.payload.encoded he).1 hcoded
          padding := h.payload.padding }
      cursor := hcursor.congr rfl
      faults := h.faults.congr rfl
      bitlenWidth := h.bitlenWidth
      rposWidth := h.rposWidth }

theorem Inv.execBuild {s : State} (h : Inv s) : Ensures Inv (execBuild s) :=
  h.unlessFaulted fun _ => ensures_ite (fun _ => h.raiseSequence _) fun hload =>
    ensures_orStop fun _ hb => (h.built (not_not.1 hload) hb).done _

theorem Inv.derived {s t : State} (h : Inv s) (hbuilt : s.phase = .built) (hd : deriveCodes s = .ok t) :
    Inv { t with phase := .coded } := by
  have htree := h.tree (by simp [hbuilt])
  have hcodes := deriveCodes_codeFacts htree hd
  have hwf := deriveCodes_wf hd
  have hsome := isSome_codeAt_deriveCodes htree hd
  obtain ⟨code, rfl⟩ : ∃ code, t = { s with code := code } := ⟨_, deriveCodes_frame hd⟩
  have hcoded : s.phase ≠ .coded := by rw [hbuilt]; decide
  exact
    { legal := h.legal
      tables :=
        { freq := h.tables.freq
          freqRange := h.tables.freqRange
          node := h.tables.node
          nodeWritten := h.tables.nodeWritten
          code := hwf
          codeWritten := fun x => (hsome x).trans (by simp)
          pay := h.tables.pay
          payWritten := h.tables.payWritten }
      load := fun hp => by cases hp
      tree := fun _ => htree.congr rfl
      codes := fun _ => hcodes.congr rfl
      payload :=
        { capacity := h.payload.capacity
          unowned := h.payload.unowned
          encoded := fun he => absurd (h.payload.encoded he).1 hcoded
          padding := h.payload.padding }
      cursor := h.cursor.congr rfl
      faults := h.faults.congr rfl
      bitlenWidth := h.bitlenWidth
      rposWidth := h.rposWidth }

theorem Inv.execDerive {s : State} (h : Inv s) : Ensures Inv (execDerive s) :=
  h.unlessFaulted fun _ => ensures_ite (fun _ => h.raiseSequence _) fun hbuilt =>
    ensures_orStop fun _ hd => (h.derived (not_not.1 hbuilt) hd).done _

/-! ### The payload -/

/-- Other payload registers keep the invariant when they meet its item 5 and list the bytes written. -/
theorem Inv.withPayload {s : State} (h : Inv s) {pay : Memory} {pbytes bitlen : Nat} {pmode : PMode}
    (hwf : Memory.wf pay) (hwritten : ∀ q, (Memory.read pay q).isSome = true ↔ q < pbytes)
    (hpay : PayloadFacts { s with pay := pay, pbytes := pbytes, bitlen := bitlen, pmode := pmode })
    (hlen : bitlen < 2 ^ 32) :
    Inv { s with pay := pay, pbytes := pbytes, bitlen := bitlen, pmode := pmode } where
  legal := h.legal
  tables := ⟨h.tables.freq, h.tables.freqRange, h.tables.node, h.tables.nodeWritten, h.tables.code,
    h.tables.codeWritten, hwf, hwritten⟩
  load := h.load
  tree := fun hp => (h.tree hp).congr rfl
  codes := fun hp => (h.codes hp).congr rfl
  payload := hpay
  cursor := h.cursor.congr rfl
  faults := h.faults.congr rfl
  bitlenWidth := hlen
  rposWidth := h.rposWidth

/-- A payload of the host's has only its capacity to keep. -/
theorem payloadFacts_host {s : State} (hm : s.pmode = .host) (hcap : s.pbytes ≤ s.cfg.pcap) : PayloadFacts s :=
  ⟨hcap, fun hn => absurd (hm.symm.trans hn) (by decide), fun he => absurd (hm.symm.trans he) (by decide),
    fun he => absurd (hm.symm.trans he) (by decide)⟩

theorem Inv.execPput {s : State} (h : Inv s) (b : Byte) : Ensures Inv (execPput b s) := by
  refine h.unlessFaulted fun _ => ensures_ite (fun _ => h.raiseSequence _) fun _ =>
    ensures_ite (fun _ => h.raised _ (by decide)) fun hcap => Inv.done ?_ _
  refine h.withPayload (Memory.write_wf h.tables.pay _ _) (fun q => ?_)
    (payloadFacts_host rfl (Nat.lt_of_not_le hcap)) h.bitlenWidth
  have hq := h.tables.payWritten q
  rw [State.byteAt] at hq
  rw [Memory.read_write]
  split_ifs with hnew
  · simp [hnew]
  · rw [hq]; omega

theorem Inv.execPlen {s : State} (h : Inv s) (n : BitVec 32) : Ensures Inv (execPlen n s) :=
  h.unlessFaulted fun _ => ensures_ite (fun _ => h.raiseSequence _) fun _ =>
    Inv.done (h.withPayload h.tables.pay h.tables.payWritten (payloadFacts_host rfl h.payload.capacity) n.isLt) _

/-- A payload that nobody or the encoder wrote is tight (R41 item 5). -/
theorem Inv.payTight {s : State} (h : Inv s) (hm : s.pmode ≠ .host) : PayTight s := by
  cases hmode : s.pmode with
  | none =>
    obtain ⟨hbits, hbytes⟩ := h.payload.unowned hmode
    exact ⟨h.tables.pay, by omega, h.tables.payWritten, fun p _ hp => by omega⟩
  | enc =>
    obtain ⟨_, hsize, _⟩ := h.payload.encoded hmode
    exact ⟨h.tables.pay, hsize, h.tables.payWritten, h.payload.padding hmode⟩
  | host => exact absurd hmode hm

theorem Inv.encoded {s t : State} {e : CodeEntry} (h : Inv s) (hcoded : s.phase = .coded) (hm : s.pmode ≠ .host)
    (hfits : s.bitlen + e.len ≤ s.cfg.payBits) (hput : putCode e e.len 0 s = .ok t) :
    Inv { t with pmode := .enc } := by
  obtain ⟨htight, hlen⟩ := payTight_putCode (h.payTight hm) hput
  obtain ⟨_, _, _, hpcap⟩ := h.legal
  obtain ⟨pay, bitlen, pbytes, rfl⟩ : ∃ pay bitlen pbytes, t = { s with pay := pay, bitlen := bitlen, pbytes := pbytes } :=
    ⟨_, _, _, putCode_frame hput⟩
  have hsize := htight.size
  have hbits : s.cfg.payBits = 8 * s.cfg.pcap := rfl
  simp only at hlen hsize
  have hwidth : bitlen < 2 ^ 32 := by omega
  exact h.withPayload htight.wf htight.written
    { capacity := by simp only; omega
      unowned := fun hn => by cases hn
      encoded := fun _ => ⟨hcoded, hsize, by simp only; omega⟩
      padding := fun _ => htight.padding } hwidth

theorem Inv.execEnc {s : State} (h : Inv s) (x : Symbol) : Ensures Inv (execEnc x s) := by
  refine h.unlessFaulted fun _ => ensures_ite (fun _ => h.raiseIllegal _) fun _ =>
    ensures_ite (fun _ => h.raiseSequence _) fun hlegal => ensures_orStop fun e _ =>
    ensures_ite (fun _ => h.raised _ (by decide)) fun _ =>
    ensures_ite (fun _ => h.raised _ (by decide)) fun hfits => ensures_orStop fun t hput => Inv.done ?_ _
  rw [not_or, not_not] at hlegal
  exact h.encoded hlegal.1 hlegal.2 (Nat.le_of_not_lt hfits) hput

/-! ### The decoder -/

/-- A cursor that meets item 6 keeps the invariant, in a phase in which the decoder runs. -/
theorem Inv.withCursor {s : State} (h : Inv s) {rpos cur : Nat} {out : List Symbol} (hp : s.phase ≠ .load)
    (hc : CursorFacts { s with rpos := rpos, cur := cur, out := out }) (hr : rpos < 2 ^ 32) :
    Inv { s with rpos := rpos, cur := cur, out := out } where
  legal := h.legal
  tables := h.tables.congr rfl
  load := fun hl => absurd hl hp
  tree := fun hl => (h.tree hl).congr rfl
  codes := fun hl => (h.codes hl).congr rfl
  payload := h.payload.congr rfl
  cursor := hc
  faults := h.faults.congr rfl
  bitlenWidth := h.bitlenWidth
  rposWidth := hr

/-- Consuming one bit keeps the invariant: the cursor stays in the tree and the symbol is a node's (R184). -/
theorem Inv.consumes {s t : State} (h : Inv s) (hbit : s.rpos < s.bitlen) (hv : s.rootv = true)
    (hc : Consumes s t) : Inv t := by
  have hload : s.phase ≠ .load := fun hp => by
    obtain ⟨_, _, hnone, _⟩ := h.load hp
    exact absurd (hv.symm.trans hnone) (by decide)
  have htree := h.tree hload
  have hroot : s.root < s.nnodes := (htree.path_id_le (.root hv)).1
  have hrpos : s.rpos + 1 < 2 ^ 32 := (Nat.succ_le_of_lt hbit).trans_lt h.bitlenWidth
  cases hc with
  | @moved c n hn hi =>
    exact h.withCursor hload
      { cursor := fun _ => ⟨(h.tree_of_nodeAt hn).1, .inr ⟨n, hn, hi⟩⟩
        noTree := fun hnone => absurd (hv.symm.trans hnone) (by decide)
        emitted := h.cursor.emitted } hrpos
  | @emitted i c n hn hcur =>
    refine h.withCursor hload
      { cursor := fun _ => ?_
        noTree := fun hnone => absurd (hv.symm.trans hnone) (by decide)
        emitted := fun x hx => ?_ } hrpos
    · rcases hcur with rfl | rfl
      · exact h.cursor.cursor hv
      · exact ⟨hroot, .inl rfl⟩
    · rcases List.mem_append.1 hx with hx | hx
      · exact h.cursor.emitted x hx
      · cases List.mem_singleton.1 hx
        exact (htree.node_bounds (h.tree_of_nodeAt hn).1 hn).2.2

theorem Inv.decodeStep {s t : State} {r : StepResult} (h : Inv s) (hd : decodeStep s = .ok (r, t)) : Inv t := by
  rcases decodeStep_consumes hd with rfl | ⟨hbit, hv, hc⟩
  · exact h
  · exact h.consumes hbit hv hc

theorem Inv.raiseMalformed {s : State} (h : Inv s) : Ensures Inv (raiseMalformed s) := h.raised _ (by decide)

theorem Inv.answerStep {s : State} (h : Inv s) (r : StepResult) : Ensures Inv (answerStep (r, s)) := by
  cases r with
  | finished | quiet | emitted => exact h.done _
  | malformed => exact h.raiseMalformed

theorem Inv.execDstep {s : State} (h : Inv s) : Ensures Inv (execDstep s) :=
  h.unlessFaulted fun _ => ensures_ite (fun _ => h.raiseSequence _) fun _ =>
    ensures_orStop fun x hd => (h.decodeStep hd).answerStep x.1

theorem Inv.runSteps {s : State} (h : Inv s) (k n : Nat) : Ensures Inv (runSteps k n s) := by
  induction k generalizing n s with
  | zero => exact ensures_fault _
  | succ k ih =>
    unfold Machine.runSteps
    split
    · exact ensures_fault _
    · exact (h.decodeStep ‹_›).done _
    · exact ih (h.decodeStep ‹_›) _
    · exact ih (h.decodeStep ‹_›) _
    · exact (h.decodeStep ‹_›).raiseMalformed

theorem Inv.execDrun {s : State} (h : Inv s) : Ensures Inv (execDrun s) :=
  h.unlessFaulted fun _ => ensures_ite (fun _ => h.raiseSequence _) fun _ => h.runSteps _ _

/-! ### Every step -/

theorem Inv.exec {s : State} (h : Inv s) (i : Instr) : Ensures Inv (exec i s) := by
  cases i with
  | nop => exact h.done _
  | rst => exact h.toReset.done _
  | rdcsr csr => exact h.execRdcsr csr
  | fset x c => exact h.execFset x c
  | fget x => exact h.execFget x
  | build => exact h.execBuild
  | nget field id => exact h.execNget field id
  | derive => exact h.execDerive
  | clen x => exact h.execClen x
  | cbits x word => exact h.execCbits x word
  | enc x => exact h.execEnc x
  | pget index => exact h.execPget index
  | pput b => exact h.execPput b
  | plen n => exact h.execPlen n
  | dstep => exact h.execDstep
  | drun => exact h.execDrun

theorem Inv.dropInput {s : State} (h : Inv s) : Inv s.dropInput := h.withHost s.inputs.tail s.resp

theorem Inv.runWord {s : State} (h : Inv s) (w : CmdWord) : Ensures Inv (runWord w s) := by
  unfold Machine.runWord
  split
  · exact h.exec _
  · exact h.raised _ (by decide)

theorem Inv.step {s : State} (h : Inv s) : Ensures Inv (step s) := by
  unfold Machine.step
  split
  · exact ensures_next h
  · exact h.dropInput.runWord _
  · exact ensures_next h.dropInput.toReset
  · exact ensures_next h.dropInput.toReset

/-- Settles O52: a step waits, resets, or performs one word, and every command keeps the invariant. -/
theorem stepKeepsTheInvariant : Obligations.StepKeepsTheInvariant := fun _ t h ht => h.step t ht

end Sys2Proof.Machine
end

section
/-! The registers and who writes them: reset, STATUS, CFG, which command is legal when, which command
writes which piece of state (10_state.md R23 to R42). -/

namespace Sys2Proof.Machine

/-! ### Reset -/

theorem step_reset {s : State} {rest : List HostInput} (h : s.inputs = .reset :: rest) :
    step s = .next { s.toReset with inputs := rest } := by
  simp [step, State.dropInput, State.toReset, h]

theorem step_resetDuring {s : State} {w : CmdWord} {rest : List HostInput} (h : s.inputs = .resetDuring w :: rest) :
    step s = .next { s.toReset with inputs := rest } := by
  simp [step, State.dropInput, State.toReset, h]

/-- After reset nothing is left to decode, so `DEND` is the one flag that is set (R42). -/
theorem State.toReset_status (s : State) : s.toReset.status = 0x00000040 := by
  have hdend : s.toReset.dend = true := by simp [State.dend]
  rw [State.status, hdend, s.toReset_pmode, s.toReset_rootv, s.toReset_fault, s.toReset_phase]
  decide

/-- Settles O8: `toReset` is the one state that all three leave. -/
theorem everyResetGivesTheResetState : Obligations.EveryResetGivesTheResetState := by
  refine ⟨by decide, fun s => ⟨s.toReset, ?_, rfl, fun _ => step_reset, fun _ _ => step_resetDuring⟩⟩
  exact ⟨rfl, rfl, rfl, rfl, rfl, rfl, rfl, rfl, rfl, rfl, rfl, rfl, rfl, fun _ => rfl, fun _ => rfl,
    fun _ => rfl, fun _ => rfl, rfl, s.toReset_status, rfl, rfl⟩

/-! ### STATUS and CFG -/

/-- `DEND` as R32 words it. -/
theorem State.dend_iff (s : State) :
    s.dend = true ↔ s.rpos ≥ s.bitlen ∧ (s.rootv = false ∨ s.cur = s.root) := by
  simp [State.dend]

/-- Settles O22: each field is one part of the concatenation that `STATUS` is. -/
theorem statusCollectsTheFlags : Obligations.StatusCollectsTheFlags := by
  intro s
  rw [← s.dend_iff]
  unfold State.status
  refine ⟨?_, ?_, ?_, ?_, ?_, ?_⟩
  · ext k hk; simp; grind
  · simp only [BitVec.getLsbD_append]; simp
  · simp only [BitVec.getLsbD_append]; simp
  · ext k hk; simp; grind
  · simp only [BitVec.getLsbD_append]; simp
  · ext k hk; simp; grind

/-- The four bytes of a word put together from them. -/
theorem bytes_append (a b c d : BitVec 8) : (a ++ b ++ c ++ d).extractLsb' 0 8 = d ∧
    (a ++ b ++ c ++ d).extractLsb' 8 8 = c ∧ (a ++ b ++ c ++ d).extractLsb' 16 8 = b ∧
    (a ++ b ++ c ++ d).extractLsb' 24 8 = a := by
  refine ⟨?_, ?_, ?_, ?_⟩ <;> ext k hk <;> simp <;> grind

/-- Settles O23: the bytes of `CFG` are the parameters, which legal values fit, and the version. -/
theorem cfgHoldsTheParameters : Obligations.CfgHoldsTheParameters := by
  refine ⟨fun s hlegal => ?_, rfl, rfl⟩
  obtain ⟨_, hcw, _, hpcap⟩ := hlegal
  obtain ⟨h0, h1, h2, h3⟩ := bytes_append 0#8 1#8 (BitVec.ofNat 8 s.cfg.cw) (BitVec.ofNat 8 s.cfg.symw.bits)
  refine ⟨?_, ?_, h2, h3, ?_⟩
  · rw [State.cfgWord, h0]
    cases s.cfg.symw <;> rfl
  · rw [State.cfgWord, h1]
    exact Nat.mod_eq_of_lt (by omega)
  · exact Nat.mod_eq_of_lt (by omega)

/-! ### Which command is legal when -/

/-- `seqinfo` by shifts (R220). -/
theorem State.seqInfo_eq (s : State) (i : Instr) : s.seqInfo i =
    i.opcode.setWidth 32 <<< 8 ||| s.pmode.code.setWidth 32 <<< 4 ||| s.phase.code.setWidth 32 := by
  unfold State.seqInfo
  ext k hk
  simp
  grind

/-- A command with operands in range that PHASE or PMODE forbids raises `E_SEQUENCE` (R23, R25). -/
theorem exec_of_illegal {i : Instr} {s : State} (hf : s.fault = false) (hr : operandsInRange i s = true)
    (hl : phaseLegal i s.phase = false ∨ pmodeLegal i s.pmode = false) : exec i s = raiseSequence s i := by
  cases i with
  | nop | rst | rdcsr | fget | nget | pget => simp [phaseLegal, pmodeLegal] at hl
  | fset | enc =>
    simp_all [phaseLegal, pmodeLegal, operandsInRange, Instr.wellFormed, exec, execFset, execEnc, unlessFaulted]
  | clen | cbits =>
    simp_all [phaseLegal, pmodeLegal, operandsInRange, Instr.wellFormed, exec, execClen, execCbits]
  | build | derive | pput | plen | dstep | drun =>
    simp_all [phaseLegal, pmodeLegal, exec, execBuild, execDerive, execPput, execPlen, execDstep, execDrun, unlessFaulted]

/-- A command raises `E_SEQUENCE` only where PHASE or PMODE forbids it (R23, R25). -/
theorem illegal_of_sequence {i : Instr} {s t : State} (h : Effect i s t) (hf : s.fault = false)
    (ht : t.fault = true) (hc : t.cause = .sequence) :
    phaseLegal i s.phase = false ∨ pmodeLegal i s.pmode = false := by
  cases h with
  | latched hl => exact absurd (hf.symm.trans hl) (by decide)
  | faulted c info _ _ hr _ _ _ hseq =>
    have hraised : t = _ := hr.trans (State.raise_of_clear hf c info)
    exact (hseq (by rw [hraised] at hc; exact hc)).2
  | drunIllegal _ hi hload _ =>
    subst hi
    exact .inl (by rw [hload]; rfl)
  | answered v u _ hu _ _ _ hcases =>
    subst hu
    have hclear : u.fault = false := by
      rcases hcases with ⟨_, _, hu⟩ | ⟨_, hu⟩ | ⟨_, _, _, _, hu⟩ | ⟨_, _, hu⟩ | ⟨_, _, hu⟩ |
        ⟨_, _, hu⟩ | ⟨_, _, hu⟩ | ⟨_, _, hu⟩ | ⟨_, hu, _⟩ <;> (rw [hu]; simp [hf])
    exact absurd (hclear.symm.trans ht) (by decide)
  | drunEnded u _ _ _ hu _ _ hend =>
    obtain ⟨c, hu⟩ := hu
    have hclear : u.fault = false := by rw [hu]; exact hf
    rcases hend with ⟨_, rfl⟩ | ⟨m, _, rfl⟩
    · have hraised : u.raise .malformed _ = _ := State.raise_of_clear hclear .malformed (BitVec.ofNat 32 u.rpos)
      rw [hraised] at hc
      cases hc
    · exact absurd (hclear.symm.trans ht) (by decide)

/-- Settles O17: what is not legal raises `E_SEQUENCE` with `seqinfo`, and nothing else does. -/
theorem phaseAndOwnerDecideLegality : Obligations.PhaseAndOwnerDecideLegality := by
  intro i s hr hf
  refine ⟨fun hl => ?_, fun ⟨hphase, hpmode⟩ t ht hfault hc => ?_⟩
  · rw [exec_of_illegal hf hr hl, ← s.seqInfo_eq]
    exact raised_of_clear hf _ _
  · rcases illegal_of_sequence (exec_effect ht) hf hfault hc with h | h
    · exact absurd (hphase.symm.trans h) (by decide)
    · exact absurd (hpmode.symm.trans h) (by decide)

/-! ### Which command writes what -/

/-- Each piece of state is written by its own commands only, in their phase (R23 to R39). -/
structure OwnWrites (i : Instr) (s t : State) : Prop where
  phase : t.phase ≠ s.phase → (i = .build ∧ s.phase = .load ∧ t.phase = .built) ∨
    (i = .derive ∧ s.phase = .built ∧ t.phase = .coded)
  freq : t.freq ≠ s.freq → s.phase = .load ∧ ∃ x c, i = .fset x c
  tree : t.node ≠ s.node ∨ t.nleaf ≠ s.nleaf ∨ t.nnodes ≠ s.nnodes ∨ t.rootv ≠ s.rootv ∨ t.root ≠ s.root →
    i = .build ∧ s.phase = .load
  code : t.code ≠ s.code → i = .derive ∧ s.phase = .built
  pay : t.pay ≠ s.pay ∨ t.pbytes ≠ s.pbytes → (∃ x, i = .enc x) ∨ ∃ b, i = .pput b
  bitlen : t.bitlen ≠ s.bitlen → (∃ x, i = .enc x) ∨ ∃ n, i = .plen n
  pmode : t.pmode ≠ s.pmode → (t.pmode = .enc ∧ ∃ x, i = .enc x) ∨
    (t.pmode = .host ∧ ((∃ b, i = .pput b) ∨ ∃ n, i = .plen n))
  stream : t.rpos ≠ s.rpos ∨ t.out ≠ s.out → i = .dstep ∨ i = .drun
  cur : t.cur ≠ s.cur → i = .build ∨ i = .dstep ∨ i = .drun
  grows : s.out <+: t.out ∧ s.rpos ≤ t.rpos

/-- A fault and a response write none of these pieces. -/
theorem OwnWrites.of_response {i : Instr} {s u t : State} (h : OwnWrites i s u)
    (ht : t = { u with fault := t.fault, cause := t.cause, finfo := t.finfo, resp := t.resp }) :
    OwnWrites i s t := by
  rw [ht]
  exact ⟨h.phase, h.freq, h.tree, h.code, h.pay, h.bitlen, h.pmode, h.stream, h.cur, h.grows⟩

theorem OwnWrites.refl (i : Instr) (s : State) : OwnWrites i s s := by
  constructor <;> simp

theorem State.raise_frame (s : State) (c : Cause) (info : Word) : s.raise c info =
    { s with fault := (s.raise c info).fault, cause := (s.raise c info).cause, finfo := (s.raise c info).finfo, resp := (s.raise c info).resp } := by
  cases hf : s.fault with
  | true => rw [State.raise_of_fault hf]; rfl
  | false =>
    have h : s.raise c info = _ := State.raise_of_clear hf c info
    rw [h]

/-- A command other than RST writes no piece of state that is not its own. -/
theorem ownWrites_of_effect {i : Instr} {s t : State} (h : Effect i s t) (hrst : i ≠ .rst) : OwnWrites i s t := by
  cases h with
  | latched _ _ ht => exact (OwnWrites.refl i s).of_response (by rw [ht]; rfl)
  | faulted c info _ _ ht => exact (OwnWrites.refl i s).of_response (by rw [ht]; exact s.raise_frame c info)
  | drunIllegal _ _ _ ht => exact (OwnWrites.refl i s).of_response (by rw [ht]; exact s.raise_frame _ _)
  | answered v u _ ht _ _ _ hu =>
    refine OwnWrites.of_response (u := u) ?_ (by rw [ht]; rfl)
    rcases hu with ⟨_, _, rfl⟩ | ⟨hi, _⟩ | ⟨x, c, rfl, hp, hu⟩ | ⟨rfl, hp, hu⟩ | ⟨rfl, hp, hu⟩ |
      ⟨x, rfl, hu⟩ | ⟨x, rfl, hu⟩ | ⟨x, rfl, hu⟩ | ⟨rfl, hu, hout, hrpos, _⟩
    · exact OwnWrites.refl i u
    · exact absurd hi hrst
    · rw [hu]; constructor <;> simp [hp]
    · rw [hu]; constructor <;> simp [hp]
    · rw [hu]; constructor <;> simp [hp]
    · rw [hu]; constructor <;> simp
    · rw [hu]; constructor <;> simp
    · rw [hu]; constructor <;> simp
    · rw [hu]; constructor <;> simp [hout, hrpos]
  | drunEnded u _ hi _ hu hout hrpos hend =>
    subst hi
    obtain ⟨c, hu⟩ := hu
    have hown : OwnWrites .drun s u := by rw [hu]; constructor <;> simp [hout, hrpos]
    rcases hend with ⟨_, rfl⟩ | ⟨m, _, rfl⟩
    · exact hown.of_response (u.raise_frame _ _)
    · exact hown.of_response rfl

/-- Settles O18: the effects of the commands, piece by piece. -/
theorem onlyTheirCommandsWriteTheState : Obligations.OnlyTheirCommandsWriteTheState := by
  intro i s t h hrst
  have hown := ownWrites_of_effect (exec_effect h) hrst
  exact ⟨hown.phase, hown.freq, hown.tree, hown.code, hown.pay, hown.bitlen, hown.pmode, hown.stream, hown.cur,
    hown.grows⟩

end Sys2Proof.Machine
end

section
/-! Reading commands and the payload's bit primitives: what a read leaves unchanged, what PutBit writes
(20_memory.md R64, R69). -/

namespace Sys2Proof.Machine

/-! ### Reading commands -/

/-- What was recorded and answered is what the fault registers of the new state hold (R221). -/
theorem RaisedFrom.recorded {s t : State} {c : Cause} {info : Word} (h : RaisedFrom s t c info) :
    RaisedFrom s t t.cause t.finfo := by
  have hcause : t.cause = c := by rw [h]
  have hfinfo : t.finfo = info := by rw [h]
  rwa [hcause, hfinfo]

/-- A command that changes no state answers, or records a fault and answers it (R64, R222). -/
theorem read_of_effect {i : Instr} {s t : State} (h : Effect i s t) (hread : changesState i = false)
    (hrst : i ≠ .rst) : t = { s with resp := t.resp } ∨ RaisedFrom s t t.cause t.finfo := by
  cases h with
  | latched _ _ ht => exact .inl (by rw [ht]; rfl)
  | faulted c info hf _ ht =>
    have hraised : RaisedFrom s t c info := ht ▸ State.raise_of_clear hf c info
    exact .inr hraised.recorded
  | drunIllegal _ hi | drunEnded _ _ hi => subst hi; cases hread
  | answered v u _ ht _ _ _ hu =>
    rcases hu with ⟨_, _, rfl⟩ | ⟨hi, _⟩ | ⟨_, _, hi, _⟩ | ⟨hi, _⟩ | ⟨hi, _⟩ | ⟨_, hi, _⟩ | ⟨_, hi, _⟩ |
      ⟨_, hi, _⟩ | ⟨hi, _⟩
    · exact .inl (by rw [ht]; rfl)
    · exact absurd hi hrst
    all_goals subst hi; cases hread

/-- Settles O19: among the effects of the commands, those that a reading command can have. -/
theorem readsHaveNoSideEffect : Obligations.ReadsHaveNoSideEffect := fun _ _ _ hread hrst h =>
  read_of_effect (exec_effect h) hread hrst

/-! ### GetBit and PutBit -/

theorem State.payBit_of_byteAt {s : State} {p : Nat} {b : Byte} (h : s.byteAt (p / 8) = some b) :
    s.payBit p = some (b.getLsbD (7 - p % 8)) := by
  simp [State.payBit, h]

/-- PutBit stops only where it would add to a byte that holds no value (R69). -/
theorem State.putBit_exists {s : State} (v : Bool)
    (h : s.bitlen % 8 ≠ 0 → ∃ b, s.byteAt (s.bitlen / 8) = some b) : ∃ t, s.putBit v = .ok t := by
  by_cases hr : s.bitlen % 8 = 0
  · simp [State.putBit, hr]
  · obtain ⟨b, hb⟩ := h hr
    simp [State.putBit, hr, State.readByte_of_byteAt hb]

section PutBit

variable {s t : State} {v : Bool} {q p : Nat} {old new : Byte}

theorem State.byteAt_of_write (ht : t.pay = Memory.write s.pay q new) (i : Nat) :
    t.byteAt i = if i = q then some new else s.byteAt i := by
  simp only [State.byteAt, ht, Memory.read_write]

/-- A bit of the byte that PutBit writes: it was there, or it is the one added at `BITLEN` (R69). -/
theorem State.payBit_of_putBit (ht : t.pay = Memory.write s.pay (s.bitlen / 8) (old ||| bitAt v (7 - s.bitlen % 8)))
    (hp : p / 8 = s.bitlen / 8) : t.payBit p = some (old.getLsbD (7 - p % 8) || (decide (p = s.bitlen) && v)) := by
  have hbyte := State.byteAt_of_write ht (p / 8)
  rw [if_pos hp] at hbyte
  have hpos : (7 - p % 8 < 8 ∧ 7 - p % 8 = 7 - s.bitlen % 8) ↔ p = s.bitlen := by omega
  simp [State.payBit_of_byteAt hbyte, getLsbD_bitAt, hpos]

end PutBit

/-- Settles O41: PutBit writes one byte, and of its bits the one at `BITLEN` alone. -/
theorem putBitAppendsOneBit : Obligations.PutBitAppendsOneBit := by
  refine ⟨fun s p b hb => State.getBit_of_payBit (State.payBit_of_byteAt hb), fun s v hpad => ?_⟩
  obtain ⟨t, ht⟩ := State.putBit_exists v fun hr => (hpad hr).imp fun _ hb => hb.1
  obtain ⟨old, hnew, hold, hstate⟩ := State.putBit_cases ht
  have hpay : t.pay = Memory.write s.pay (s.bitlen / 8) (old ||| bitAt v (7 - s.bitlen % 8)) := by rw [hstate]
  have hfree : ∀ p, s.bitlen ≤ p → p / 8 = s.bitlen / 8 → old.getLsbD (7 - p % 8) = false := by
    intro p hle hp
    by_cases hr : s.bitlen % 8 = 0
    · simp [hnew hr]
    · obtain ⟨b, hb, hzero⟩ := hpad hr
      obtain rfl : b = old := Option.some.inj (hb.symm.trans (hold hr))
      exact hzero _ (by omega)
  refine ⟨t, ht, by rw [hstate], State.getBit_of_payBit ?_, fun p hlt => ?_, fun p hlt hp => ?_, fun q hq => ?_⟩
  · simp [State.payBit_of_putBit hpay rfl, hfree s.bitlen le_rfl rfl]
  · by_cases hp : p / 8 = s.bitlen / 8
    · have hbyte : s.byteAt (p / 8) = some old := hp ▸ hold (by omega)
      simp [State.payBit_of_putBit hpay hp, State.payBit_of_byteAt hbyte, hlt.ne]
    · rw [State.payBit, State.byteAt_of_write hpay, if_neg hp, State.payBit]
  · simp [State.payBit_of_putBit hpay hp, hfree p hlt.le hp, hlt.ne']
  · rw [State.byteAt_of_write hpay, if_neg hq]

end Sys2Proof.Machine
end

section
/-! The command word and its fields: what decodes, which row of the opcode map a word matches, which
encodings are reserved (30_encoding.md R80 to R85, R93). -/

namespace Sys2Proof

/-! ### The fields of a word -/

/-- A word is its four fields put together (R80). -/
theorem append_fields (w : CmdWord) : opField w ++ zField w ++ aField w ++ bField w = w := by
  unfold opField zField aField bField
  ext k hk
  simp
  grind

/-- A masked word is compared field by field. -/
theorem and_eq_iff_fields (w m p : CmdWord) : w &&& m = p ↔
    opField w &&& opField m = opField p ∧ zField w &&& zField m = zField p ∧
      aField w &&& aField m = aField p ∧ bField w &&& bField m = bField p := by
  constructor
  · rintro rfl
    simp [opField, zField, aField, bField, BitVec.extractLsb'_and]
  · rintro ⟨ho, hz, ha, hb⟩
    rw [← append_fields p, ← ho, ← hz, ← ha, ← hb]
    simp only [← BitVec.and_append, append_fields]

/-- `A[15:8]` of a word. -/
theorem extractLsb'_aField (w : CmdWord) : (aField w).extractLsb' 8 8 = w.extractLsb' 40 8 := by
  unfold aField
  ext k hk
  simp
  grind

/-! ### PPUT's byte in the field `A` -/

theorem byte_of_setWidth (byte : Byte) : (byte.setWidth 16).extractLsb' 0 8 = byte := by
  ext k hk
  simp [BitVec.getLsbD_eq_getElem hk, hk.trans]

theorem upper_of_setWidth (byte : Byte) : (byte.setWidth 16).extractLsb' 8 8 = 0 := by
  ext k hk
  simp

theorem upper_eq_zero_iff {a : BitVec 16} : a.extractLsb' 8 8 = 0 ↔ a = (a.extractLsb' 0 8).setWidth 16 := by
  refine ⟨fun h => BitVec.eq_of_toNat_eq ?_, fun h => by rw [h, upper_of_setWidth]⟩
  have hupper : a.toNat / 256 % 256 = 0 := by
    simpa [BitVec.extractLsb'_toNat, Nat.shiftRight_eq_div_pow] using congrArg BitVec.toNat h
  simp
  omega

theorem and_upperMask_eq_zero_iff {a : BitVec 16} :
    a &&& 0xFF00 = 0 ↔ a = (a.extractLsb' 0 8).setWidth 16 := by
  rw [← upper_eq_zero_iff]
  constructor
  · intro h
    have hmask : (a &&& 0xFF00).extractLsb' 8 8 = a.extractLsb' 8 8 := by
      rw [BitVec.extractLsb'_and]
      exact BitVec.and_allOnes
    rw [← hmask, h]
    rfl
  · intro h
    rw [upper_eq_zero_iff.1 h]
    ext k hk
    simp
    interval_cases k <;> simp

/-! ### Decoding -/

/-- A decoder that checks its unused fields gives its command when they pass. -/
theorem guarded_eq_ok {p : Prop} [Decidable p] {i j : Instr} {e : Illegal} :
    (if p then Except.ok i else .error e) = .ok j ↔ p ∧ i = j := by
  split <;> simp [*]

/-- The opcode and the two operand fields decode to the command they are the fields of (R81, R82). -/
theorem decodeFields_eq_ok {op : BitVec 8} {a : BitVec 16} {b : BitVec 32} {i : Instr} :
    decodeFields op a b = .ok i ↔ op = i.opcode ∧ a = i.operandA ∧ b = i.operandB := by
  constructor
  · intro h
    unfold decodeFields at h
    split at h
    all_goals
      rename_i hop
      simp only [decodeNone, decodeA, decodeB, decodeByte, guarded_eq_ok, Except.ok.injEq, reduceCtorEq] at h
    case h_1 | h_2 | h_6 | h_8 | h_15 | h_16 =>
      obtain ⟨⟨ha, hb⟩, rfl⟩ := h
      exact ⟨BitVec.eq_of_toNat_eq hop, ha, hb⟩
    case h_3 | h_5 | h_9 | h_11 =>
      obtain ⟨hb, rfl⟩ := h
      exact ⟨BitVec.eq_of_toNat_eq hop, rfl, hb⟩
    case h_4 | h_7 | h_10 =>
      subst h
      exact ⟨BitVec.eq_of_toNat_eq hop, rfl, rfl⟩
    case h_12 | h_14 =>
      obtain ⟨ha, rfl⟩ := h
      exact ⟨BitVec.eq_of_toNat_eq hop, ha, rfl⟩
    case h_13 =>
      obtain ⟨⟨ha, hb⟩, rfl⟩ := h
      exact ⟨BitVec.eq_of_toNat_eq hop, upper_eq_zero_iff.1 ha, hb⟩
  · rintro ⟨rfl, rfl, rfl⟩
    cases i with
    | pput byte =>
      simp [decodeFields, decodeByte, Instr.opcode, Instr.operandA, Instr.operandB, upper_of_setWidth,
        byte_of_setWidth]
    | _ => rfl

/-- A word decodes to the command whose opcode and operands it holds, with `Z = 0` (R81). -/
theorem decode_eq_ok {w : CmdWord} {i : Instr} : decode w = .ok i ↔
    opField w = i.opcode ∧ zField w = 0 ∧ aField w = i.operandA ∧ bField w = i.operandB := by
  unfold decode
  split
  next hz => simp [decodeFields_eq_ok, hz]
  next hz => exact iff_of_false (fun h => by cases h) fun ⟨_, hz', _⟩ => hz hz'

/-- Settles O1: the fields of the word that `encode` puts together are the command's. -/
theorem decodeOfEncode : Obligations.DecodeOfEncode := fun i =>
  decode_eq_ok.2 (Laws.EncodeFields.fields_append i.opcode 0 i.operandA i.operandB)

/-! ### The opcode map -/

/-- The sixteen commands with these operand fields. -/
def commandsOf (a : BitVec 16) (b : BitVec 32) : List Instr :=
  [.nop, .rst, .rdcsr a, .fset a b, .fget a, .build, .nget a b, .derive, .clen a, .cbits a b, .enc a, .pget b,
    .pput (a.extractLsb' 0 8), .plen b, .dstep, .drun]

/-- The bits of `A` that the command does not use (R81, R82). -/
def Instr.unusedA : Instr → BitVec 16
  | .rdcsr _ | .fset _ _ | .fget _ | .nget _ _ | .clen _ | .cbits _ _ | .enc _ => 0
  | .pput _ => 0xFF00
  | .nop | .rst | .build | .derive | .pget _ | .plen _ | .dstep | .drun => 0xFFFF

/-- The bits of `B` that the command does not use (R81, R82). -/
def Instr.unusedB : Instr → BitVec 32
  | .fset _ _ | .nget _ _ | .cbits _ _ | .pget _ | .plen _ => 0
  | .nop | .rst | .rdcsr _ | .fget _ | .build | .derive | .clen _ | .enc _ | .pput _ | .dstep | .drun =>
    0xFFFFFFFF

/-- The command's row of the opcode map: the opcode is compared, `Z` and what is not used must be 0. -/
def Instr.row (i : Instr) : OpcodeRow where
  mnemonic := i.mnemonic
  pattern := i.opcode ++ 0#8 ++ 0#16 ++ 0#32
  mask := 0xFF#8 ++ 0xFF#8 ++ i.unusedA ++ i.unusedB

/-- The rows of the opcode map are the commands' rows, whatever their operands. -/
theorem opcodeRows_eq_map (a : BitVec 16) (b : BitVec 32) : opcodeRows = (commandsOf a b).map Instr.row := by
  simp only [commandsOf, List.map, Instr.row, Instr.mnemonic, Instr.opcode, Instr.unusedA, Instr.unusedB]
  decide

/-- A command with these operand fields leaves no bit over exactly when its unused bits of `A` are 0. -/
theorem operandA_eq_iff_unused {a : BitVec 16} {b : BitVec 32} :
    ∀ i ∈ commandsOf a b, (a = i.operandA ↔ a &&& i.unusedA = 0) := by
  have hnone : a &&& 0xFFFF#16 = a := BitVec.and_allOnes
  simpa [commandsOf, Instr.operandA, Instr.unusedA, hnone] using (and_upperMask_eq_zero_iff (a := a)).symm

theorem operandB_eq_iff_unused {a : BitVec 16} {b : BitVec 32} :
    ∀ i ∈ commandsOf a b, (b = i.operandB ↔ b &&& i.unusedB = 0) := by
  have hnone : b &&& 0xFFFFFFFF#32 = b := BitVec.and_allOnes
  simp [commandsOf, Instr.operandB, Instr.unusedB, hnone]

/-- A command is among those with its own operand fields. -/
theorem mem_commandsOf (i : Instr) : i ∈ commandsOf i.operandA i.operandB := by
  cases i <;> simp [commandsOf, Instr.operandA, Instr.operandB, byte_of_setWidth]

/-- A word matches a command's row when it holds the opcode and 0 in every bit that is not used (R81). -/
theorem matches_row_iff {w : CmdWord} {i : Instr} : i.row.matches w ↔
    opField w = i.opcode ∧ zField w = 0 ∧ aField w &&& i.unusedA = 0 ∧ bField w &&& i.unusedB = 0 := by
  obtain ⟨ho, hz, ha, hb⟩ := Laws.EncodeFields.fields_append 0xFF#8 0xFF#8 i.unusedA i.unusedB
  obtain ⟨ho', hz', ha', hb'⟩ := Laws.EncodeFields.fields_append i.opcode 0#8 0#16 0#32
  have hall (x : BitVec 8) : x &&& 0xFF#8 = x := BitVec.and_allOnes
  rw [OpcodeRow.matches, and_eq_iff_fields]
  simp only [Instr.row]
  rw [ho, hz, ha, hb, ho', hz', ha', hb', hall, hall]
  rfl

/-- Of the commands with the word's operand fields, the word decodes to the one whose row it matches (R81). -/
theorem decode_eq_ok_iff_matches {w : CmdWord} {i : Instr} (hi : i ∈ commandsOf (aField w) (bField w)) :
    decode w = .ok i ↔ i.row.matches w := by
  rw [decode_eq_ok, matches_row_iff, operandA_eq_iff_unused i hi, operandB_eq_iff_unused i hi]

theorem mem_commandsOf_of_decode {w : CmdWord} {i : Instr} (h : decode w = .ok i) :
    i ∈ commandsOf (aField w) (bField w) := by
  obtain ⟨_, _, ha, hb⟩ := decode_eq_ok.1 h
  rw [ha, hb]
  exact mem_commandsOf i

/-- The rows that a word matches are the rows of the commands it decodes to (R81). -/
theorem mem_opcodeRows_and_matches {w : CmdWord} {r : OpcodeRow} :
    r ∈ opcodeRows ∧ r.matches w ↔ ∃ i, decode w = .ok i ∧ i.row = r := by
  rw [opcodeRows_eq_map (aField w) (bField w), List.mem_map]
  constructor
  · rintro ⟨⟨i, hi, rfl⟩, hm⟩
    exact ⟨i, (decode_eq_ok_iff_matches hi).2 hm, rfl⟩
  · rintro ⟨i, hdec, rfl⟩
    have hi := mem_commandsOf_of_decode hdec
    exact ⟨⟨i, hi, rfl⟩, (decode_eq_ok_iff_matches hi).1 hdec⟩

/-- A word decodes to a command with this name iff it matches a row with it (R81, R82). -/
theorem decode_mnemonic_iff (w : CmdWord) (m : String) : (∃ i, decode w = .ok i ∧ i.mnemonic = m) ↔
    ∃ r ∈ opcodeRows, r.mnemonic = m ∧ w &&& r.mask = r.pattern := by
  constructor
  · rintro ⟨i, hdec, hm⟩
    obtain ⟨hmem, hmatch⟩ := mem_opcodeRows_and_matches.2 ⟨i, hdec, rfl⟩
    exact ⟨i.row, hmem, hm, hmatch⟩
  · rintro ⟨r, hmem, hm, hmatch⟩
    obtain ⟨i, hdec, rfl⟩ := mem_opcodeRows_and_matches.1 ⟨hmem, hmatch⟩
    exact ⟨i, hdec, hm⟩

/-- At most one row matches: decoding is a function (R81). -/
theorem matching_row_unique {w : CmdWord} {r r' : OpcodeRow} (hr : r ∈ opcodeRows) (hr' : r' ∈ opcodeRows)
    (hm : w &&& r.mask = r.pattern) (hm' : w &&& r'.mask = r'.pattern) : r = r' := by
  obtain ⟨i, hi, rfl⟩ := mem_opcodeRows_and_matches.1 ⟨hr, hm⟩
  obtain ⟨i', hi', rfl⟩ := mem_opcodeRows_and_matches.1 ⟨hr', hm'⟩
  obtain rfl : i = i' := Except.ok.inj (hi.symm.trans hi')
  rfl

end Sys2Proof

namespace Sys2Proof.Machine

/-! ### Words that are no command -/

theorem runWord_of_illegal {w : CmdWord} (h : ∀ i, decode w ≠ .ok i) (s : State) :
    runWord w s = illegalWord s w := by
  unfold runWord
  split
  next i hi => exact absurd hi (h i)
  next => rfl

/-- Such a word raises `E_ILLEGAL` with `FINFO = w[63:32]` (R81). -/
theorem step_illegal {s : State} {w : CmdWord} {rest : List HostInput} (hin : s.inputs = .command w :: rest)
    (hdec : ∀ i, decode w ≠ .ok i) :
    step s = raised { s with inputs := rest } .illegal (w.extractLsb' 32 32) := by
  rw [step_command hin, runWord_of_illegal hdec]
  rfl

/-- With no fault latched, that fault is recorded and answered (R81, R221). -/
theorem step_illegal_of_clear {s : State} {w : CmdWord} {rest : List HostInput}
    (hin : s.inputs = .command w :: rest) (hdec : ∀ i, decode w ≠ .ok i) (hf : s.fault = false) :
    ∃ t, step s = .next t ∧ RaisedFrom { s with inputs := rest } t .illegal (w.extractLsb' 32 32) := by
  have hclear : State.fault { s with inputs := rest } = false := hf
  rw [step_illegal hin hdec]
  exact raised_of_clear hclear _ _

/-- Raising any fault while one is latched answers the latched values and changes nothing else (R223). -/
theorem raised_of_fault {s : State} (hf : s.fault = true) (c : Cause) (info : Word) :
    raised s c info = .next { s with resp := some (s.cause.code ++ 0#4 ++ s.finfo) } := by
  rw [raised, State.raise_of_fault hf]
  rfl

/-- Settles O2: a word matches the row of the command it decodes to and no other; without one it is raised. -/
theorem decodeFollowsTheOpcodeMap : Obligations.DecodeFollowsTheOpcodeMap := by
  refine ⟨fun w i => decode_eq_ok, decode_mnemonic_iff, fun w r hr r' hr' => matching_row_unique hr hr',
    fun s w rest => step_illegal_of_clear, fun s w rest hin hdec hf => ?_⟩
  have hlatched : State.fault { s with inputs := rest } = true := hf
  rw [step_illegal hin hdec]
  exact raised_of_fault hlatched _ _

/-! ### Reserved encodings -/

/-- R85 of the fields of a word: an unassigned opcode, `Z` not 0, or an operand field not 0 that the opcode
does not use (PPUT uses `A[7:0]` only). -/
def ReservedFields (op z : BitVec 8) (a : BitVec 16) (b : BitVec 32) : Prop :=
  op.toNat ∉ [0x00, 0x01, 0x02, 0x10, 0x11, 0x20, 0x21, 0x30, 0x31, 0x32, 0x40, 0x41, 0x50, 0x51, 0x52, 0x53] ∨
    z ≠ 0 ∨
    (op.toNat ∈ [0x00, 0x01, 0x20, 0x30, 0x52, 0x53] ∧ (a ≠ 0 ∨ b ≠ 0)) ∨
    (op.toNat ∈ [0x02, 0x11, 0x31, 0x40] ∧ b ≠ 0) ∨
    (op.toNat ∈ [0x41, 0x51] ∧ a ≠ 0) ∨
    (op.toNat = 0x50 ∧ (a.extractLsb' 8 8 ≠ 0 ∨ b ≠ 0))

/-- The fields of no command are reserved (R82, R85). -/
theorem not_reservedFields (i : Instr) : ¬ ReservedFields i.opcode 0 i.operandA i.operandB := by
  cases i <;> simp [ReservedFields, Instr.opcode, Instr.operandA, Instr.operandB, upper_of_setWidth]

theorem decode_ne_ok_of_reserved {w : CmdWord} (h : ReservedFields (opField w) (zField w) (aField w) (bField w))
    (i : Instr) : decode w ≠ .ok i := by
  intro hdec
  obtain ⟨ho, hz, ha, hb⟩ := decode_eq_ok.1 hdec
  rw [ho, hz, ha, hb] at h
  exact not_reservedFields i h

/-- Settles O3: no command has reserved fields, so the word decodes to none and is raised. -/
theorem reservedEncodingsRaiseIllegal : Obligations.ReservedEncodingsRaiseIllegal := by
  intro s w rest hin hf hres
  rw [← extractLsb'_aField] at hres
  exact step_illegal_of_clear hin (decode_ne_ok_of_reserved hres) hf

/-! ### Example words and lines -/

/-- Settles O4: each word is the one `encode` writes for the command, so it decodes to it. -/
theorem wordsOfTheSpecDecode : Obligations.WordsOfTheSpecDecode :=
  ⟨decodeOfEncode (.fset 0x61 4), decodeOfEncode (.enc 0x61), decodeOfEncode (.nget 4 6),
    decodeOfEncode (.pput 0xAF), decodeOfEncode (.plen 12), decodeOfEncode (.rdcsr 11),
    decodeOfEncode (.cbits 0x64 0), decodeOfEncode (.pget 1)⟩

/-- Settles O5: the assembler, run on the five lines of R93. -/
theorem assemblerGivesTheSpecWords : Obligations.AssemblerGivesTheSpecWords := by
  refine ⟨?_, ?_, ?_, ?_, ?_⟩ <;> decide

end Sys2Proof.Machine
end

section
/-! Answers and operand ranges: every command ends with one response (30_encoding.md R83), and an operand out
of range is found before the phase is looked at (R84, 60_exceptions.md R225). -/

namespace Sys2Proof.Machine

/-! ### Every command answers -/

/-- The response is well-formed: `ERR = 0`, or the fault that is latched (R83). -/
def Answered (t : State) : Prop := ∃ err data, t.resp = some (mkResponse err data) ∧
  (err = 0 ∨ (t.fault = true ∧ err = t.cause.code ∧ data = t.finfo))

theorem answered_ok (s : State) (v : Word) : Answered (s.ok v) := ⟨0, v, rfl, .inl rfl⟩

theorem answered_respondLatched {s : State} (h : s.fault = true) : Answered s.respondLatched :=
  ⟨s.cause.code, s.finfo, rfl, .inr ⟨h, rfl, rfl⟩⟩

/-- A raise answers what is latched after it, be it recorded now or before (R221, R223). -/
theorem answered_raise (s : State) (c : Cause) (info : Word) : Answered (s.raise c info) :=
  answered_respondLatched (s.latch_fault c info)

theorem answered_of_effect {i : Instr} {s t : State} (h : Effect i s t) : Answered t := by
  cases h with
  | latched hf _ ht => exact ht ▸ answered_respondLatched hf
  | faulted c info _ _ ht => exact ht ▸ answered_raise s c info
  | drunIllegal _ _ _ ht => exact ht ▸ answered_raise s _ _
  | answered v u _ ht => exact ht ▸ answered_ok u v
  | drunEnded u _ _ _ _ _ _ hend =>
    rcases hend with ⟨_, ht⟩ | ⟨m, _, ht⟩
    · exact ht ▸ answered_raise u _ _
    · exact ht ▸ answered_ok u _

/-- Settles O9: every effect of a command ends in `ok` or in the latched values. -/
theorem everyCommandAnswers : Obligations.EveryCommandAnswers := fun _ _ _ h =>
  answered_of_effect (exec_effect h)

/-! ### Operands out of range -/

/-- A raise answers the same whether or not the refusal comes before it (R223, R224). -/
theorem unlessFaulted_raised (s : State) (c : Cause) (info : Word) :
    unlessFaulted s (Machine.raised s c info) = Machine.raised s c info := by
  cases hf : s.fault with
  | true => rw [unlessFaulted_of_fault hf, Machine.raised, State.raise_of_fault hf]
  | false => exact unlessFaulted_of_clear hf _

/-- An operand out of range raises `E_ILLEGAL`, in every phase and with every fault (R84, R225). -/
theorem exec_of_outOfRange {i : Instr} {s : State} (h : operandsInRange i s = false) :
    exec i s = raiseIllegal s i := by
  cases i with
  | nop | rst | build | derive | pput | plen | dstep | drun => cases h
  | rdcsr csr =>
    have hcsr : csrOk csr = false := by simpa [operandsInRange, Instr.wellFormed] using h
    rw [exec, execRdcsr, Csr.ofNumber_eq_none.2 hcsr]
  | fset sym count =>
    have hop : (!s.cfg.symOk sym || !s.cfg.countOk count) = true := by
      simpa [operandsInRange, Instr.wellFormed, imp_iff_not_or] using h
    rw [exec, execFset, if_pos hop, raiseIllegal, unlessFaulted_raised]
  | enc sym =>
    have hop : (!s.cfg.symOk sym) = true := by simpa [operandsInRange, Instr.wellFormed] using h
    rw [exec, execEnc, if_pos hop, raiseIllegal, unlessFaulted_raised]
  | fget sym | clen sym =>
    have hop : (!s.cfg.symOk sym) = true := by simpa [operandsInRange, Instr.wellFormed] using h
    exact if_pos hop
  | cbits sym word =>
    have hop : (!s.cfg.symOk sym || !s.cfg.wordOk word) = true := by
      simpa [operandsInRange, Instr.wellFormed, imp_iff_not_or] using h
    exact if_pos hop
  | pget index =>
    have hop : s.pbytes ≤ index.toNat := by simpa [operandsInRange, Instr.wellFormed] using h
    exact if_pos hop
  | nget field id =>
    rw [exec, execNget]
    cases hsel : NodeField.ofSelector field with
    | none => rfl
    | some f =>
      have hid : s.nnodes ≤ id.toNat := by
        simpa [operandsInRange, Instr.wellFormed, fieldOk_of_ofSelector hsel] using h
      exact if_pos hid

/-- Settles O16: `E_ILLEGAL` is raised in both cases, and taken when no fault is latched. -/
theorem operandOutOfRangeRaisesIllegal : Obligations.OperandOutOfRangeRaisesIllegal := by
  intro i s h
  rw [exec_of_outOfRange h, raiseIllegal, illegalInfo_eq]
  exact ⟨fun hf => raised_of_clear hf _ _, fun hf => raised_of_fault hf _ _⟩

end Sys2Proof.Machine
end

section
/-! The control commands and the frequency table, command by command (40_control_and_table.md R100 to R104):
the word of each, what it answers and what it leaves unchanged. -/

namespace Sys2Proof

/-- The word of a command from its upper 16 bits, opcode and `Z = 0`, and its operand fields (R80). -/
theorem encode_of_head {i : Instr} {head : BitVec 16} (h : i.opcode ++ 0#8 = head) :
    encode i = head ++ i.operandA ++ i.operandB := by
  rw [← h]
  rfl

end Sys2Proof

namespace Sys2Proof.Machine

/-! ### Operand ranges -/

/-- An operand out of range raises `E_ILLEGAL` with the opcode and the field `A` (R84). -/
theorem exec_of_outOfRange_of_clear {i : Instr} {s : State} (hf : s.fault = false)
    (h : ¬ operandsInRange i s = true) :
    ∃ t, exec i s = .next t ∧ RaisedFrom s t .illegal (i.opcode ++ 0#8 ++ i.operandA) :=
  (operandOutOfRangeRaisesIllegal i s (Bool.eq_false_of_not_eq_true h)).1 hf

theorem operandsInRange_rdcsr {n : BitVec 16} {s : State} :
    operandsInRange (.rdcsr n) s = true ↔ n.toNat ≤ 11 := by
  simp [operandsInRange, Instr.wellFormed, csrOk]

theorem operandsInRange_fset {x : Symbol} {c : Count} {s : State} :
    operandsInRange (.fset x c) s = true ↔ x.toNat < s.cfg.nsym ∧ c.toNat < 2 ^ s.cfg.cw := by
  simp [operandsInRange, Instr.wellFormed, Config.symOk, Config.countOk]

theorem operandsInRange_fget {x : Symbol} {s : State} :
    operandsInRange (.fget x) s = true ↔ x.toNat < s.cfg.nsym := by
  simp [operandsInRange, Instr.wellFormed, Config.symOk]

/-! ### NOP and RDCSR -/

/-- Settles O20: NOP is the zero word, and `ok(0)` is all it does. -/
theorem nopDoesNothing : Obligations.NopDoesNothing := ⟨by decide, fun _ => rfl⟩

/-- RDCSR of a number that names a register answers that register (R102). -/
theorem exec_rdcsr {n : BitVec 16} {r : Csr} (h : Csr.ofNumber n = some r) (s : State) :
    exec (.rdcsr n) s = done s (s.readCsr r) := by rw [exec, execRdcsr, h]

/-- Settles O21: each number up to 11 names its register, and a number above names none. -/
theorem rdcsrReadsTheRegister : Obligations.RdcsrReadsTheRegister := by
  refine ⟨fun n => encode_of_head (i := .rdcsr n) (by simp [Instr.opcode]), fun s =>
    ⟨⟨_, exec_rdcsr (r := .cfg) rfl s, rfl⟩, exec_rdcsr (r := .pcapr) rfl s, exec_rdcsr (r := .status) rfl s,
      exec_rdcsr (r := .cause) rfl s, exec_rdcsr (r := .finfo) rfl s, exec_rdcsr (r := .nleaf) rfl s,
      exec_rdcsr (r := .nnodes) rfl s, exec_rdcsr (r := .root) rfl s, exec_rdcsr (r := .bitlen) rfl s,
      exec_rdcsr (r := .pbytes) rfl s, exec_rdcsr (r := .rpos) rfl s, exec_rdcsr (r := .cur) rfl s,
      fun n hn hf => ?_⟩⟩
  exact exec_of_outOfRange_of_clear hf fun h => hn.not_ge (operandsInRange_rdcsr.1 h)

/-! ### The frequency table -/

/-- FSET with operands in range, in phase LOAD and with no fault latched, writes the entry (R103). -/
theorem exec_fset {s : State} {x : Symbol} {c : Count} (hf : s.fault = false)
    (hr : operandsInRange (.fset x c) s = true) (hload : s.phase = .load) :
    exec (.fset x c) s = done { s with freq := freqSet s.freq x.toNat c } 0 := by
  obtain ⟨hsym, hcount⟩ := operandsInRange_fset.1 hr
  rw [exec, execFset, unlessFaulted_of_clear hf, if_neg (by simp [Config.symOk, Config.countOk, hsym, hcount]),
    if_neg (not_not.2 hload)]

/-- Settles O24: FSET writes one count; an operand out of range comes before the phase. -/
theorem fsetWritesOneCount : Obligations.FsetWritesOneCount := by
  refine ⟨fun x c => encode_of_head (i := .fset x c) (by simp [Instr.opcode]), fun s x c hf =>
    ⟨fun hrange hload => ?_, fun hrange => ?_, fun hrange hphase => ?_⟩⟩
  · exact ⟨_, exec_fset hf (operandsInRange_fset.2 hrange) hload, rfl, fun y => freqGet_freqSet _ _ _ _⟩
  · refine exec_of_outOfRange_of_clear hf fun h => ?_
    obtain ⟨hsym, hcount⟩ := operandsInRange_fset.1 h
    exact hrange.elim hsym.not_ge hcount.not_ge
  · have hillegal : phaseLegal (.fset x c) s.phase = false := by simpa [phaseLegal] using hphase
    rw [exec_of_illegal hf (operandsInRange_fset.2 hrange) (.inl hillegal)]
    exact raised_of_clear hf _ _

/-- FGET of a symbol in range answers its count, whatever the phase and the fault (R104). -/
theorem exec_fget {s : State} {x : Symbol} (hx : x.toNat < s.cfg.nsym) :
    exec (.fget x) s = done s (s.count x.toNat) := if_neg (by simp [Config.symOk, hx])

/-- Settles O25: FGET reads one count or raises for a symbol out of range. -/
theorem fgetReadsOneCount : Obligations.FgetReadsOneCount := by
  refine ⟨fun x => encode_of_head (i := .fget x) (by simp [Instr.opcode]), fun s x => ⟨exec_fget, fun hx hf => ?_⟩⟩
  exact exec_of_outOfRange_of_clear hf fun h => hx.not_gt (operandsInRange_fget.1 h)

end Sys2Proof.Machine
end

section
/-! The tree builder's micro-operations and BUILD (41_tree_builder.md R121 to R129): PQ_MIN finds the least key
by a linear order on the keys, so in a forest every merge completes and joins the two least nodes of the queue,
which are those without a parent. -/

namespace Sys2Proof.Machine

/-! ### TB_INIT -/

/-- Settles O26: the scan numbers the symbols with a count from 0 and writes no other entry. -/
theorem tbInitMakesTheLeaves : Obligations.TbInitMakesTheLeaves := by
  refine fun s => ⟨(tbInit s).1, ?_, ?_, fun i hi => ?_, fun i hi => ?_⟩
  · rw [tbInit_eq]
  · rw [tbInit_eq]
  · rw [tbInit_nodeAt, List.getElem?_eq_getElem hi]
    rfl
  · rw [tbInit_nodeAt, List.getElem?_eq_none hi]
    rfl

/-- Without a symbol with a count TB_INIT's scan does nothing. -/
theorem tbScan_of_counted_eq_nil {l : List Nat} {s : State} (h : s.counted l = []) (n : Nat) (q : List Nat) :
    tbScan l n s q = (n, s, q) := by
  induction l with
  | nil => rfl
  | cons x l ih =>
    rw [State.counted_cons] at h
    split_ifs at h with hx
    rw [tbScan, if_pos hx, ih h]

/-! ### The queue's order and PQ_MIN -/

/-- A node's key `(W, id)`, ordered lexicographically (R122). -/
def State.key (s : State) (i : Nat) : Nat ×ₗ Nat := toLex (s.weightAt i, i)

theorem State.key_injective (s : State) : Function.Injective s.key := fun _ _ h =>
  congrArg (fun k => (ofLex k).2) h

theorem State.key_lt_iff {s : State} {i j : Nat} :
    s.key i < s.key j ↔ s.weightAt i < s.weightAt j ∨ s.weightAt i = s.weightAt j ∧ i < j :=
  Prod.Lex.toLex_lt_toLex

/-- The comparison that PQ_MIN makes is the one of the keys. -/
theorem keyLt_weightAt {s : State} {i j : Nat} :
    keyLt (s.weightAt i) i (s.weightAt j) j = true ↔ s.key i < s.key j := by
  simp [keyLt, State.key_lt_iff]

/-- Every id in the queue is one of a written node, as PQ_MIN needs it. -/
def QueueWritten (s : State) (q : List Nat) : Prop := ∀ i ∈ q, (s.nodeAt i).isSome = true

theorem keyLess_of_key_lt {s : State} {i j : Nat} (hi : (s.nodeAt i).isSome = true)
    (hj : (s.nodeAt j).isSome = true) (h : s.key i < s.key j) : KeyLess s i j := by
  obtain ⟨ni, hni⟩ := Option.isSome_iff_exists.1 hi
  obtain ⟨nj, hnj⟩ := Option.isSome_iff_exists.1 hj
  rw [State.key_lt_iff, State.weightAt_of_nodeAt hni, State.weightAt_of_nodeAt hnj] at h
  exact ⟨ni, nj, hni, hnj, h⟩

/-- PQ_MIN's scan completes on written nodes, and no key it has seen is below that of its answer (R122). -/
theorem pqLeast_le {s : State} {q : List Nat} (hq : QueueWritten s q) (i : Nat) :
    ∃ m, pqLeast s i (s.weightAt i) q = .ok m ∧ ∀ j ∈ i :: q, s.key m ≤ s.key j := by
  induction q generalizing i with
  | nil => exact ⟨i, rfl, by simp⟩
  | cons j q ih =>
    obtain ⟨hj, hq⟩ := List.forall_mem_cons.1 hq
    obtain ⟨n, hn⟩ := Option.isSome_iff_exists.1 hj
    simp only [List.forall_mem_cons] at ih ⊢
    simp only [pqLeast, State.readNode_of_nodeAt hn, ← State.weightAt_of_nodeAt hn, keyLt_weightAt]
    split_ifs with hlt
    · obtain ⟨m, hm, hmj, hmq⟩ := ih hq j
      exact ⟨m, hm, hmj.trans hlt.le, hmj, hmq⟩
    · obtain ⟨m, hm, hmi, hmq⟩ := ih hq i
      exact ⟨m, hm, hmi, hmi.trans (not_lt.1 hlt), hmq⟩

/-- PQ_MIN takes the id of least key out of a queue of written nodes (R122). -/
theorem pqMin_least {s : State} {q : List Nat} (hne : q ≠ []) (hq : QueueWritten s q) :
    ∃ m, m ∈ q ∧ pqMin s q = .ok (m, q.erase m) ∧ ∀ j ∈ q, j ≠ m → KeyLess s m j := by
  cases q with
  | nil => exact absurd rfl hne
  | cons i q =>
    obtain ⟨hi, hq'⟩ := List.forall_mem_cons.1 hq
    obtain ⟨n, hn⟩ := Option.isSome_iff_exists.1 hi
    obtain ⟨m, hm, hle⟩ := pqLeast_le hq' i
    have hmem : m ∈ i :: q := List.mem_cons.2 (pqLeast_mem hm)
    rw [State.weightAt_of_nodeAt hn] at hm
    refine ⟨m, hmem, by simp only [pqMin, State.readNode_of_nodeAt hn, hm], fun j hj hjm => ?_⟩
    have hlt : s.key m < s.key j := (hle j hj).lt_of_ne fun e => hjm (s.key_injective e).symm
    exact keyLess_of_key_lt (hq m hmem) (hq j hj) hlt

/-- Settles O27: the scan's answer has the least key, and keys of distinct ids differ. -/
theorem pqMinTakesTheLeastKey : Obligations.PqMinTakesTheLeastKey := fun _ _ hne _ hq => pqMin_least hne hq

/-! ### TB_MERGE -/

/-- `a` and `b` are the two ids of least key in the queue, `a` the least (R122, R123). -/
structure TwoLeast (s : State) (q : List Nat) (a b : Nat) : Prop where
  left : a ∈ q
  right : b ∈ q
  less : KeyLess s a b
  rest : ∀ j ∈ q, j ≠ a → j ≠ b → KeyLess s b j

/-- On a queue of two written nodes or more TB_MERGE completes and joins the two least of them (R123). -/
theorem tbMerge_twoLeast {s : State} {q : List Nat} (hlen : 2 ≤ q.length) (hnd : q.Nodup)
    (hq : QueueWritten s q) : ∃ a b na nb, TwoLeast s q a b ∧ s.nodeAt a = some na ∧ s.nodeAt b = some nb ∧
      tbMerge s q = .ok (s.merge a b na.w nb.w, (q.erase a).erase b ++ [s.nnodes]) := by
  obtain ⟨a, ha, hmina, hlessa⟩ := pqMin_least (List.ne_nil_of_length_pos (by omega)) hq
  have hne : q.erase a ≠ [] := List.ne_nil_of_length_pos (by rw [List.length_erase_of_mem ha]; omega)
  obtain ⟨b, hb, hminb, hlessb⟩ := pqMin_least hne fun i hi => hq i (List.mem_of_mem_erase hi)
  obtain ⟨hba, hbq⟩ := hnd.mem_erase_iff.1 hb
  obtain ⟨na, hna⟩ := Option.isSome_iff_exists.1 (hq a ha)
  obtain ⟨nb, hnb⟩ := Option.isSome_iff_exists.1 (hq b hbq)
  refine ⟨a, b, na, nb, ⟨ha, hbq, hlessa b hbq hba, fun j hj hja => hlessb j ?_⟩, hna, hnb, ?_⟩
  · exact hnd.mem_erase_iff.2 ⟨hja, hj⟩
  · simp only [tbMerge, hmina, hminb, tbJoin, State.readNode_of_nodeAt hna, State.readNode_of_nodeAt hnb]
    rfl

/-- Settles O28: two PQ_MINs give the two least ids, and the new node takes their place. -/
theorem tbMergeJoinsTheTwoLeast : Obligations.TbMergeJoinsTheTwoLeast := by
  intro s q hlen hnd _ hq
  obtain ⟨a, b, na, nb, ⟨ha, hb, hless, hrest⟩, hna, hnb, hmerge⟩ := tbMerge_twoLeast hlen hnd hq
  refine ⟨a, b, na, nb, _, _, hmerge, ha, hb, hless, hrest, hna, hnb, rfl, ?_, fun i hi => ?_, fun i => ?_,
    tbMerge_length hmerge⟩
  · rw [State.nodeAt_merge, if_pos rfl]
    rfl
  · rw [State.nodeAt_merge, if_neg hi]
  · rw [List.mem_append, List.mem_singleton, (hnd.erase a).mem_erase_iff, hnd.mem_erase_iff]
    tauto

/-! ### BUILD completes -/

theorem Forest.queueWritten {s : State} {q : List Nat} (h : Forest s q) : QueueWritten s q := fun i hi =>
  Option.isSome_iff_exists.2 (h.node_exists (h.queued i hi).1)

/-- In a forest TB_MERGE completes on every queue of two or more. -/
theorem Forest.tbMerge_exists {s : State} {q : List Nat} (h : Forest s q) (hlen : 2 ≤ q.length) :
    ∃ t q', tbMerge s q = .ok (t, q') := by
  obtain ⟨_, _, _, _, _, _, _, hmerge⟩ := tbMerge_twoLeast hlen h.nodup h.queueWritten
  exact ⟨_, _, hmerge⟩

/-- BUILD's loop completes on a forest (R125). -/
theorem Forest.tbLoop_exists {s : State} {q : List Nat} (h : Forest s q) (k : Nat) :
    ∃ t q', tbLoop k s q = .ok (t, q') := by
  induction k generalizing s q with
  | zero => exact ⟨s, q, rfl⟩
  | succ k ih =>
    unfold tbLoop
    split_ifs with hlen
    · obtain ⟨t, q', hmerge⟩ := h.tbMerge_exists hlen
      rw [hmerge]
      exact ih (forest_tbMerge h hmerge)
    · exact ⟨s, q, rfl⟩

theorem tbFinish_nil (s : State) : tbFinish s [] = .ok { s with rootv := false, root := 0, cur := 0 } := rfl

theorem tbFinish_singleton (s : State) (r : Nat) :
    tbFinish s [r] = .ok { s with rootv := true, root := r, cur := r } := rfl

theorem tbFinish_exists (s : State) {q : List Nat} (h : q.length ≤ 1) : ∃ t, tbFinish s q = .ok t := by
  match q, h with
  | [], _ => exact ⟨_, tbFinish_nil s⟩
  | [r], _ => exact ⟨_, tbFinish_singleton s r⟩

theorem buildTree_exists (s : State) : ∃ t, buildTree s = .ok t := by
  obtain ⟨s', q, hloop⟩ := (forest_tbInit s).tbLoop_exists (tbInit s).2.length
  obtain ⟨t, hfin⟩ := tbFinish_exists s' (tbLoop_length (Nat.le_succ _) hloop)
  exact ⟨t, by simp only [buildTree, hloop, hfin]⟩

/-- What BUILD leaves of what TB_FINISH has made: the phase BUILT and the answer NLEAF (R125). -/
def State.builtFrom (u : State) : State :=
  { u with phase := .built, resp := some (okResponse (BitVec.ofNat 32 u.nleaf)) }

/-- BUILD performs TB in phase LOAD with no fault latched (R125). -/
theorem exec_build {s u : State} (hf : s.fault = false) (hload : s.phase = .load) (hu : buildTree s = .ok u) :
    exec .build s = .next u.builtFrom := by
  rw [exec, execBuild, unlessFaulted_of_clear hf, if_neg (not_not.2 hload), hu]
  rfl

/-- Settles O29: the loop completes on the forest of leaves and ends in the tree of R128. -/
theorem buildMakesTheTree : Obligations.BuildMakesTheTree := by
  refine ⟨by decide, fun s hf => ⟨fun hload => ?_, fun hphase => ?_⟩⟩
  · obtain ⟨u, hu⟩ := buildTree_exists s
    obtain ⟨htree, hcur⟩ := buildTree_treeFacts hu
    have hframe := buildTree_frame hu
    have hpresent : u.present = s.present := by rw [hframe]; rfl
    refine ⟨_, exec_build hf hload hu, htree.congr rfl, hcur, rfl, ?_, ?_⟩
    · rw [State.builtFrom, htree.leaves, hpresent]
    · rw [hframe]; rfl
  · have hillegal : phaseLegal .build s.phase = false := by simpa [phaseLegal] using hphase
    rw [exec_of_illegal hf rfl (.inl hillegal)]
    exact raised_of_clear hf _ _

/-- Settles O58: BUILD's loop is a sequence of merges that leaves one id or none for TB_FINISH. -/
theorem buildRunsItsMicroOperations : Obligations.BuildRunsItsMicroOperations := by
  intro s hf hload
  obtain ⟨u, hu⟩ := buildTree_exists s
  obtain ⟨s2, q2, hmerges, hlen, hfin⟩ := buildTree_cases hu
  refine ⟨_, _, s2, q2, u, rfl, hmerges, hlen, hfin, ?_, ?_, exec_build hf hload hu⟩
  · rintro r rfl
    rw [tbFinish_singleton] at hfin
    exact (Except.ok.inj hfin).symm
  · rintro rfl
    rw [tbFinish_nil] at hfin
    exact (Except.ok.inj hfin).symm

/-! ### BUILD is greedy -/

/-- The queue of a forest holds the nodes that exist and have no parent. -/
theorem Forest.mem_queue_iff {s : State} {q : List Nat} (h : Forest s q) {i : Nat} :
    i ∈ q ↔ LiveAt s s.nnodes i := by
  refine ⟨h.queued i, fun ⟨hi, hlive⟩ => ?_⟩
  by_contra hq
  obtain ⟨k, ⟨hk, hchild⟩, _⟩ := h.parent i hi hq
  exact hlive k hk hchild

section Merge

variable {s : State} {a b wa wb : Nat}

/-- A merge does not touch the families that existed before it. -/
theorem liveAt_merge {k i : Nat} (hk : k ≤ s.nnodes) : LiveAt (s.merge a b wa wb) k i ↔ LiveAt s k i := by
  have hchild : ∀ k' < k, (ChildOf (s.merge a b wa wb) i k' ↔ ChildOf s i k') := fun k' hk' => by
    rw [childOf_merge, if_neg (by omega)]
  exact and_congr_right fun _ => forall₂_congr fun k' hk' => not_congr (hchild k' hk')

theorem KeyLess.merge {i j : Nat} (h : KeyLess s i j) (hi : i < s.nnodes) (hj : j < s.nnodes) :
    KeyLess (s.merge a b wa wb) i j := by
  unfold KeyLess
  rwa [nodeAt_merge_of_lt hi, nodeAt_merge_of_lt hj]

end Merge

/-- A merge of a forest keeps what was joined before, and what it joins itself are the two least nodes without
a parent (R123). -/
theorem greedyTree_tbMerge {s t : State} {q q' : List Nat} (hf : Forest s q) (hg : GreedyTree s)
    (h : tbMerge s q = .ok (t, q')) : GreedyTree t := by
  have hlen : 2 ≤ q.length := by
    obtain ⟨a, b, _, _, ha, hb, _⟩ := tbMerge_cases h
    rw [(perm_cons_cons_erase ha hb).length_eq]
    simp
  obtain ⟨a, b, na, nb, ⟨ha, hb, hless, hrest⟩, _, _, hmerge⟩ := tbMerge_twoLeast hlen hf.nodup hf.queueWritten
  cases h.symm.trans hmerge
  intro k hleaf hk
  rcases Nat.lt_succ_iff_lt_or_eq.1 hk with hk | rfl
  · obtain ⟨n, hn, hl, hr, hlr, hj⟩ := hg k hleaf hk
    have hkeys : ∀ {i j}, LiveAt s k i → LiveAt s k j → KeyLess s i j → KeyLess (s.merge a b na.w nb.w) i j :=
      fun hi hj hij => hij.merge (hi.1.trans hk) (hj.1.trans hk)
    refine ⟨n, (nodeAt_merge_of_lt hk).trans hn, (liveAt_merge hk.le).2 hl, (liveAt_merge hk.le).2 hr,
      hkeys hl hr hlr, fun j hlive hjl hjr => ?_⟩
    have hlive := (liveAt_merge hk.le).1 hlive
    exact hkeys hr hlive (hj j hlive hjl hjr)
  · have hkeys : ∀ {i j}, i ∈ q → j ∈ q → KeyLess s i j → KeyLess (s.merge a b na.w nb.w) i j :=
      fun hi hj hij => hij.merge (hf.queued _ hi).1 (hf.queued _ hj).1
    refine ⟨mergedNode a b na.w nb.w, by rw [State.nodeAt_merge, if_pos rfl],
      (liveAt_merge le_rfl).2 (hf.mem_queue_iff.1 ha), (liveAt_merge le_rfl).2 (hf.mem_queue_iff.1 hb),
      hkeys ha hb hless, fun j hlive hja hjb => ?_⟩
    have hjq : j ∈ q := hf.mem_queue_iff.2 ((liveAt_merge le_rfl).1 hlive)
    exact hkeys hb hjq (hrest j hjq hja hjb)

/-- After TB_INIT there is no internal node yet. -/
theorem greedyTree_tbInit (s : State) : GreedyTree (tbInit s).1 := by
  rw [tbInit_eq]
  exact fun k hleaf hk => absurd hk hleaf.not_gt

/-- TB_FINISH keeps the arena (R124). -/
theorem greedyTree_tbFinish {s t : State} {q : List Nat} (hg : GreedyTree s) (h : tbFinish s q = .ok t) :
    GreedyTree t := by
  unfold tbFinish at h
  split at h <;> cases h <;> exact hg

theorem greedyTree_buildTree {s t : State} (h : buildTree s = .ok t) : GreedyTree t := by
  obtain ⟨s', q, hmerges, _, hfin⟩ := buildTree_cases h
  have hkept : Forest s' q ∧ GreedyTree s' :=
    hmerges.keeps (P := fun s q => Forest s q ∧ GreedyTree s)
      (fun ⟨hf, hg⟩ hm => ⟨forest_tbMerge hf hm, greedyTree_tbMerge hf hg hm⟩)
      ⟨forest_tbInit s, greedyTree_tbInit s⟩
  exact greedyTree_tbFinish hkept.2 hfin

/-- Settles O30: every merge of the loop is greedy, since the queue is the nodes without a parent. -/
theorem buildIsGreedy : Obligations.BuildIsGreedy := by
  intro s hf hload
  obtain ⟨u, hu⟩ := buildTree_exists s
  have hgreedy : GreedyTree u := greedyTree_buildTree hu
  exact ⟨_, exec_build hf hload hu, hgreedy⟩

/-! ### BUILD without a merge -/

/-- A queue of one id or none is not merged. -/
theorem tbLoop_of_length_le_one {q : List Nat} (h : q.length ≤ 1) (k : Nat) (s : State) :
    tbLoop k s q = .ok (s, q) := by
  cases k with
  | zero => rfl
  | succ k => rw [tbLoop, if_neg (by omega)]

/-- With at most one present symbol BUILD is TB_INIT and TB_FINISH (R126, R127). -/
theorem buildTree_of_present_length_le_one {s : State} (h : s.present.length ≤ 1) :
    buildTree s = tbFinish (tbInit s).1 (List.range s.present.length) := by
  have hq : (tbInit s).2 = List.range s.present.length := by rw [tbInit_eq]
  have hloop : ∀ k, tbLoop k (tbInit s).1 (tbInit s).2 = .ok ((tbInit s).1, (tbInit s).2) := fun k =>
    tbLoop_of_length_le_one (by simpa [hq] using h) k _
  rw [← hq]
  simp only [buildTree, hloop]

theorem State.present_eq_nil {s : State} (h : ∀ x, x < s.cfg.nsym → s.count x = 0) : s.present = [] :=
  List.eq_nil_iff_forall_not_mem.2 fun x hx => by
    obtain ⟨hrange, hcount⟩ := State.mem_present.1 hx
    exact hcount (h x hrange)

theorem State.present_eq_singleton {s : State} {x : Nat} (hx : x < s.cfg.nsym) (hc : s.count x ≠ 0)
    (h : ∀ y, y < s.cfg.nsym → y ≠ x → s.count y = 0) : s.present = [x] := by
  have hnd : s.present.Nodup := List.nodup_range.filter _
  refine List.perm_singleton.1 ((List.perm_ext_iff_of_nodup hnd (List.nodup_singleton x)).2 fun y => ?_)
  rw [State.mem_present, List.mem_singleton]
  refine ⟨fun ⟨hy, hcy⟩ => ?_, ?_⟩
  · by_contra hne
    exact hcy (h y hy hne)
  · rintro rfl
    exact ⟨hx, hc⟩

/-- Settles O31: with at most one present symbol nothing is merged, and TB_FINISH finds TB_INIT's queue. -/
theorem buildEdgeCases : Obligations.BuildEdgeCases := by
  refine fun s hf hload => ⟨fun hnone => ?_, fun x hx hc hothers => ?_⟩
  · have hpresent := State.present_eq_nil hnone
    have hb := buildTree_of_present_length_le_one (s := s) (by simp [hpresent])
    have hnode : (tbInit s).1.node = s.node :=
      congrArg (fun r => r.2.1.node) (tbScan_of_counted_eq_nil hpresent 0 [])
    rw [tbInit_eq, hpresent, hnode] at hb
    exact ⟨_, exec_build hf hload hb, rfl, rfl, rfl, rfl, rfl, rfl, rfl, rfl⟩
  · have hpresent := State.present_eq_singleton hx hc hothers
    have hb := buildTree_of_present_length_le_one (s := s) (by simp [hpresent])
    have hnode : (tbInit s).1.nodeAt 0 = some (leafNode x (s.count x)) := by
      rw [tbInit_nodeAt, hpresent]
      rfl
    rw [tbInit_eq, hpresent] at hb
    exact ⟨_, exec_build hf hload hb, rfl, rfl, rfl, rfl, rfl, rfl, rfl, hnode⟩

/-! ### NGET -/

theorem operandsInRange_nget {a : BitVec 16} {b : BitVec 32} {s : State} :
    operandsInRange (.nget a b) s = true ↔ a.toNat ≤ 5 ∧ b.toNat < s.nnodes := by
  simp [operandsInRange, Instr.wellFormed, fieldOk]

/-- NGET of a node that exists answers the selected field, whatever the phase and the fault (R129). -/
theorem exec_nget {s : State} {a : BitVec 16} {b : BitVec 32} {n : Node} {f : NodeField}
    (ha : NodeField.ofSelector a = some f) (hb : b.toNat < s.nnodes) (hn : s.nodeAt b.toNat = some n) :
    exec (.nget a b) s = .next { s with resp := some (okResponse (n.readField f)) } := by
  simp only [exec, execNget, ha, if_neg hb.not_ge, State.readNode_of_nodeAt hn]
  rfl

theorem Node.readField_flags (n : Node) :
    n.readField .flags = (if n.rv then 2 else 0) + (if n.lv then 1 else 0) :=
  (by decide : ∀ lv rv : Bool, (0#30 ++ BitVec.ofBool rv ++ BitVec.ofBool lv : Word) =
    (if rv then 2 else 0) + (if lv then 1 else 0)) n.lv n.rv

theorem Node.readField_wlo (n : Node) : n.readField .wlo = BitVec.ofNat 32 (n.w % 2 ^ 32) :=
  BitVec.eq_of_toNat_eq (by simp [Node.readField])

/-- Settles O33: each selector up to 5 names a field, and an operand out of range raises. -/
theorem ngetReadsOneField : Obligations.NgetReadsOneField := by
  refine ⟨fun a b => encode_of_head (i := .nget a b) (by simp [Instr.opcode]), fun s a b n =>
    ⟨fun hb hn => ⟨?_, ?_, ?_, ?_, ?_, ?_⟩, fun hrange hf => ?_⟩⟩
  · rintro rfl
    rw [exec_nget (f := .flags) rfl hb hn, Node.readField_flags]
  · rintro rfl
    exact exec_nget (f := .l) rfl hb hn
  · rintro rfl
    exact exec_nget (f := .r) rfl hb hn
  · rintro rfl
    exact exec_nget (f := .sym) rfl hb hn
  · rintro rfl
    rw [exec_nget (f := .wlo) rfl hb hn, Node.readField_wlo]
  · rintro rfl
    exact exec_nget (f := .whi) rfl hb hn
  · refine exec_of_outOfRange_of_clear hf fun h => ?_
    obtain ⟨hfield, hid⟩ := operandsInRange_nget.1 h
    exact hrange.elim hfield.not_gt hid.not_ge

end Sys2Proof.Machine
end

section
/-! The code-table deriver, command by command (42_code_deriver.md R140 to R149): every node of the tree has
one path, DERIVE's walk completes on it, and the codes are the paths of distinct leaves. -/

namespace Sys2Proof.Machine

/-! ### One path for every node -/

theorem TreeFacts.node_exists {s : State} (h : TreeFacts s) {i : Nat} (hi : i < s.nnodes) :
    ∃ n, s.nodeAt i = some n := by
  by_cases hleaf : i < s.nleaf
  · exact ⟨_, h.leaf i (h.leaves ▸ hleaf)⟩
  · obtain ⟨_, _, _, _, _, _, _, _, _, hnode⟩ := h.internal i (Nat.le_of_not_lt hleaf) hi
    exact ⟨_, hnode⟩

theorem TreeFacts.internal_of_not_leaf {s : State} (h : TreeFacts s) {i : Nat} {n : Node} (hi : i < s.nnodes)
    (hn : s.nodeAt i = some n) (hleaf : n.kind ≠ .leaf) : n.kind = .internal := by
  rw [h.kind_eq hi hn] at hleaf ⊢
  exact if_neg fun hlt => hleaf (if_pos hlt)

theorem TreeFacts.children_ne {s : State} (h : TreeFacts s) {k : Nat} {n : Node} (hk : k < s.nnodes)
    (hn : s.nodeAt k = some n) (hi : n.kind = .internal) : n.l ≠ n.r := by
  obtain ⟨hleaf, _⟩ := h.of_internal hk hn hi
  obtain ⟨l, r, _, _, _, _, _, _, hne, hnode⟩ := h.internal k hleaf hk
  cases hn.symm.trans hnode
  exact hne

/-- A node below the root is a child of one node only, and on one side of it only (R128, items 3 and 4). -/
theorem TreeFacts.parent_unique {s : State} (h : TreeFacts s) {k k' : Nat} {n n' : Node} {b b' : Bool}
    (hk : k < s.nnodes) (hk' : k' < s.nnodes) (hn : s.nodeAt k = some n) (hn' : s.nodeAt k' = some n')
    (hi : n.kind = .internal) (hi' : n'.kind = .internal)
    (hchild : (if b then n.r else n.l) = if b' then n'.r else n'.l) : k = k' ∧ b = b' := by
  have hbelow : (if b then n.r else n.l) + 1 < s.nnodes := by
    obtain ⟨_, hl, hr, _⟩ := h.of_internal hk hn hi
    split_ifs <;> omega
  have hkk : k = k' := (h.parent _ hbelow).unique
    ⟨hk, n, hn, hi, by cases b <;> simp⟩ ⟨hk', n', hn', hi', by rw [hchild]; cases b' <;> simp⟩
  subst hkk
  cases hn.symm.trans hn'
  have hne := h.children_ne hk hn hi
  match b, b', hchild with
  | false, false, _ | true, true, _ => exact ⟨rfl, rfl⟩
  | false, true, hlr => exact absurd hlr hne
  | true, false, hrl => exact absurd hrl.symm hne

/-- A path that ends at the root has not begun: every step leads to a lesser id. -/
theorem TreeFacts.path_of_root {s : State} (h : TreeFacts s) {p : List Bool} (hp : PathTo s s.root p) :
    p = [] := by
  obtain ⟨_, hle⟩ := h.path_id_le hp
  exact List.length_eq_zero_iff.1 (by omega)

/-- A node has one path only: its last step is the one from its parent (R141). -/
theorem TreeFacts.path_unique {s : State} (h : TreeFacts s) {i : Nat} {p q : List Bool} (hp : PathTo s i p)
    (hq : PathTo s i q) : p = q := by
  induction p using List.reverseRecOn generalizing i q with
  | nil =>
    cases hp.of_nil
    exact (h.path_of_root hq).symm
  | append_singleton p b ih =>
    cases q using List.reverseRecOn with
    | nil =>
      cases hq.of_nil
      exact h.path_of_root hp
    | append_singleton q b' =>
      obtain ⟨k, n, hk, hn, hi, hchild⟩ := hp.of_concat
      obtain ⟨k', n', hk', hn', hi', hchild'⟩ := hq.of_concat
      obtain ⟨rfl, rfl⟩ := h.parent_unique (h.path_id_le hk).1 (h.path_id_le hk').1 hn hn' hi hi'
        (hchild.symm.trans hchild')
      rw [ih hk hk']

/-- Settles O35: a path goes down from the root to every node, and back up from it there is one way only. -/
theorem everyNodeHasOnePath : Obligations.EveryNodeHasOnePath := by
  intro s h i hi
  obtain ⟨p, hp⟩ := h.path_exists hi
  exact ⟨p, hp, fun q hq => h.path_unique hq hp⟩

/-! ### DERIVE completes -/

/-- The walk from a node of the tree completes when its bound is above the node's id: every step down leads
to a lesser one (R145, R271). -/
theorem TreeFacts.walk_exists {s t : State} (h : TreeFacts s) (hnode : t.node = s.node) {d i : Nat}
    (hi : i < s.nnodes) (hd : i < d) (p : List Bool) : ∃ u, walk d i p t = .ok u := by
  induction d generalizing t i p with
  | zero => omega
  | succ d ih =>
    obtain ⟨n, hn⟩ := h.node_exists hi
    have hread : t.readNode i = .ok n := State.readNode_of_nodeAt (by rw [State.nodeAt, hnode]; exact hn)
    simp only [walk, hread]
    split_ifs with hleaf
    · exact ⟨_, rfl⟩
    · obtain ⟨_, hl, hr, _⟩ := h.of_internal hi hn (h.internal_of_not_leaf hi hn hleaf)
      obtain ⟨v, hv⟩ := ih hnode (i := n.l) (by omega) (by omega) (p ++ [false])
      have hnode' : v.node = s.node := by rw [walk_frame hv]; exact hnode
      rw [hv]
      exact ih hnode' (by omega) (by omega) _

theorem TreeFacts.deriveCodes_exists {s : State} (h : TreeFacts s) : ∃ t, deriveCodes s = .ok t := by
  simp only [deriveCodes]
  split_ifs with hv
  · have hroot : s.root < s.nnodes := (h.path_id_le (.root hv)).1
    obtain ⟨n, hn⟩ := h.node_exists hroot
    simp only [State.readNode_of_nodeAt hn]
    split_ifs
    · exact ⟨_, rfl⟩
    · exact h.walk_exists (t := s.blank) rfl hroot hroot []
  · exact ⟨_, rfl⟩

/-- The symbols with a code are those with a count (R142). -/
theorem CodeFacts.hasCode_iff {s : State} (h : CodeFacts s) (ht : TreeFacts s) {x : Nat}
    (hx : x < s.cfg.nsym) : (∃ e, s.codeAt x = some e ∧ e.v = true) ↔ s.count x ≠ 0 := by
  constructor
  · rintro ⟨e, he, hv⟩ hc
    cases he.symm.trans (h.absent x hx hc)
    cases hv
  · intro hc
    have hpos : 0 < s.nleaf := ht.leaves ▸ List.length_pos_of_mem (State.mem_present.2 ⟨hx, hc⟩)
    rcases Nat.eq_or_lt_of_le hpos with hone | htwo
    · exact ⟨_, h.single x hx hc hone.symm, rfl⟩
    · obtain ⟨_, _, _, e, _, _, _, _, he, hv, _⟩ := h.path x hx hc htwo
      exact ⟨e, he, hv⟩

/-- There are as many codes as leaves (R142). -/
theorem CodeFacts.code_count {s : State} (h : CodeFacts s) (ht : TreeFacts s) :
    ((List.range s.cfg.nsym).filter fun x => (s.codeAt x).any (·.v)).length = s.nleaf := by
  rw [ht.leaves, State.present]
  refine congrArg List.length (List.filter_congr fun x hx => ?_)
  rw [Bool.eq_iff_iff, Option.any_eq_true, decide_eq_true_iff]
  exact h.hasCode_iff ht (List.mem_range.1 hx)

/-! ### DERIVE, and a command outside its phase -/

/-- A command with operands in range that PHASE forbids raises `E_SEQUENCE` with its opcode, `PMODE` and
`PHASE` (R23, R220). -/
theorem exec_of_wrongPhase_of_clear {i : Instr} {s : State} (hf : s.fault = false)
    (hr : operandsInRange i s = true) (hp : phaseLegal i s.phase = false) :
    ∃ t, exec i s = .next t ∧
      RaisedFrom s t .sequence (0#16 ++ i.opcode ++ 0#2 ++ s.pmode.code ++ 0#2 ++ s.phase.code) := by
  rw [exec_of_illegal hf hr (.inl hp)]
  exact raised_of_clear hf _ _

/-- What DERIVE leaves of what CD has made: the phase CODED and the answer NLEAF (R142). -/
def State.derivedFrom (u : State) : State :=
  { u with phase := .coded, resp := some (okResponse (BitVec.ofNat 32 u.nleaf)) }

/-- DERIVE performs CD in phase BUILT with no fault latched (R142). -/
theorem exec_derive {s u : State} (hf : s.fault = false) (hbuilt : s.phase = .built)
    (hu : deriveCodes s = .ok u) : exec .derive s = .next u.derivedFrom := by
  rw [exec, execDerive, unlessFaulted_of_clear hf, if_neg (not_not.2 hbuilt), hu]
  rfl

/-- Settles O34: the walk completes on the tree, writes `CODE` alone, and leaves the codes of R142. -/
theorem deriveWritesTheCodes : Obligations.DeriveWritesTheCodes := by
  refine ⟨by decide, fun s hf => ⟨fun hbuilt htree => ?_, fun hphase => ?_⟩⟩
  · obtain ⟨u, hu⟩ := htree.deriveCodes_exists
    have hcodes := deriveCodes_codeFacts htree hu
    obtain ⟨code, rfl⟩ : ∃ code, u = { s with code := code } := ⟨_, deriveCodes_frame hu⟩
    exact ⟨_, exec_derive hf hbuilt hu, hcodes.congr rfl, rfl, hcodes.code_count (htree.congr rfl)⟩
  · exact exec_of_wrongPhase_of_clear hf rfl (by simpa [phaseLegal] using hphase)

/-! ### The codes -/

/-- With two leaves or more a code is the path of a leaf of its symbol (R141, R142). -/
theorem CodeFacts.entry_path {s : State} (h : CodeFacts s) (ht : TreeFacts s) (htwo : 2 ≤ s.nleaf) {x : Nat}
    {e : CodeEntry} (hx : x < s.cfg.nsym) (he : s.codeAt x = some e) (hv : e.v = true) :
    ∃ i n p, s.nodeAt i = some n ∧ n.kind = .leaf ∧ n.sym.toNat = x ∧ PathTo s i p ∧ EntryOfPath e p := by
  obtain ⟨i, n, p, e', hn, hl, hsym, hp, he', hentry⟩ :=
    h.path x hx ((h.hasCode_iff ht hx).1 ⟨e, he, hv⟩) htwo
  cases he.symm.trans he'
  exact ⟨i, n, p, hn, hl, hsym, hp, hentry⟩

/-- The bits of a code are the path it is the code of (R89). -/
theorem EntryOfPath.codeBits {s : State} {x : Symbol} {e : CodeEntry} {p : List Bool} (h : EntryOfPath e p)
    (he : s.codeAt x.toNat = some e) : s.codeBits x = p := by
  obtain ⟨_, hlen, hbit⟩ := h
  simp only [State.codeBits, he]
  refine List.ext_getElem (by simp [hlen]) fun j _ hj => ?_
  rw [List.getElem_map, List.getElem_range, CodeEntry.bit, hbit, List.getD_eq_getElem _ _ hj]

/-- Two symbols with a count make two leaves. -/
theorem TreeFacts.two_le_nleaf {s : State} (h : TreeFacts s) {x y : Nat} (hne : x ≠ y)
    (hx : x ∈ s.present) (hy : y ∈ s.present) : 2 ≤ s.nleaf := by
  have hsub : [x, y] ⊆ s.present := by simp [hx, hy]
  exact h.leaves ▸ (List.subperm_of_subset (by simpa using hne) hsub).length_le

/-- A path that ends at a leaf goes no further (R149). -/
theorem PathTo.eq_of_isPrefix {s : State} {i j : Nat} {n : Node} {p q : List Bool} (hp : PathTo s i p)
    (hn : s.nodeAt i = some n) (hl : n.kind = .leaf) (hq : PathTo s j q) (hpre : p <+: q) : i = j := by
  obtain ⟨r, rfl⟩ := hpre
  rcases eq_or_ne r [] with rfl | hne
  · exact hp.eq_of_path (by simpa using hq)
  · obtain ⟨k, m, hk, hm, hint⟩ := hq.internal_of_append hne
    cases hk.eq_of_path hp
    cases hm.symm.trans hn
    rw [hl] at hint
    cases hint

/-- Settles O36: the codes of two symbols are the paths of two leaves, and no path goes through a leaf. -/
theorem codesArePrefixFree : Obligations.CodesArePrefixFree := by
  rintro s ht h x y hxy hx hy ⟨e, he, hv⟩ ⟨f, hf, hw⟩ hpre
  have hne : x.toNat ≠ y.toNat := fun heq => hxy (BitVec.eq_of_toNat_eq heq)
  have htwo := ht.two_le_nleaf hne (State.mem_present.2 ⟨hx, (h.hasCode_iff ht hx).1 ⟨e, he, hv⟩⟩)
    (State.mem_present.2 ⟨hy, (h.hasCode_iff ht hy).1 ⟨f, hf, hw⟩⟩)
  obtain ⟨i, n, p, hn, hl, hsym, hp, hep⟩ := h.entry_path ht htwo hx he hv
  obtain ⟨j, m, q, hm, _, hsym', hq, hfq⟩ := h.entry_path ht htwo hy hf hw
  rw [hep.codeBits he, hfq.codeBits hf] at hpre
  cases hp.eq_of_isPrefix hn hl hq hpre
  cases hn.symm.trans hm
  exact hne (hsym.symm.trans hsym')

/-- The path of a leaf is not empty in a tree of two leaves or more: its root is internal (R128). -/
theorem TreeFacts.leaf_path_ne_nil {s : State} (h : TreeFacts s) (htwo : 2 ≤ s.nleaf) {i : Nat} {n : Node}
    {p : List Bool} (hp : PathTo s i p) (hn : s.nodeAt i = some n) (hl : n.kind = .leaf) : p ≠ [] := by
  rintro rfl
  have hkind := h.kind_eq (h.path_id_le hp).1 hn
  obtain ⟨_, hroot⟩ := h.root
  have hnodes := h.nodes
  rw [hp.of_nil, if_neg (by omega), hl] at hkind
  cases hkind

/-- Settles O37: a code of a tree of two leaves or more is a path between leaf and root, which are distinct. -/
theorem codeLengthsAreBounded : Obligations.CodeLengthsAreBounded := by
  intro s ht h x e hx he hv
  obtain ⟨hmax, _⟩ := h.entry_bounds ht hx he
  have hfits : e.len < 2 ^ s.cfg.lenw := by
    have := s.cfg.nsym_bounds
    change e.len ≤ s.cfg.nsym - 1 at hmax
    change e.len < s.cfg.nsym
    omega
  refine ⟨fun htwo => ?_, fun hone => ?_, hmax, hfits⟩
  · obtain ⟨i, n, p, hn, hl, _, hp, _, hlen, _⟩ := h.entry_path ht htwo hx he hv
    have := List.length_pos_iff.2 (ht.leaf_path_ne_nil htwo hp hn hl)
    have := ht.path_length_lt hp
    omega
  · cases he.symm.trans (h.single x hx ((h.hasCode_iff ht hx).1 ⟨e, he, hv⟩) hone)
    rfl

/-! ### CLEN and CBITS -/

theorem operandsInRange_clen {x : Symbol} {s : State} :
    operandsInRange (.clen x) s = true ↔ x.toNat < s.cfg.nsym := by
  simp [operandsInRange, Instr.wellFormed, Config.symOk]

theorem operandsInRange_cbits {x : Symbol} {k : BitVec 32} {s : State} :
    operandsInRange (.cbits x k) s = true ↔ x.toNat < s.cfg.nsym ∧ k.toNat < s.cfg.codeWords := by
  simp [operandsInRange, Instr.wellFormed, Config.symOk, Config.wordOk]

/-- CLEN of a symbol in range answers its length word in phase CODED, whatever the fault (R146). -/
theorem exec_clen {s : State} {x : Symbol} {e : CodeEntry} (hr : operandsInRange (.clen x) s = true)
    (hcoded : s.phase = .coded) (he : s.codeAt x.toNat = some e) : exec (.clen x) s = done s e.lenWord := by
  have hx := operandsInRange_clen.1 hr
  rw [exec, execClen, if_neg (by simp [Config.symOk, hx]), if_neg (not_not.2 hcoded),
    State.readCode_of_codeAt he]
  rfl

/-- CBITS with operands in range answers a word of the code in phase CODED, whatever the fault (R147). -/
theorem exec_cbits {s : State} {x : Symbol} {k : BitVec 32} {e : CodeEntry}
    (hr : operandsInRange (.cbits x k) s = true) (hcoded : s.phase = .coded)
    (he : s.codeAt x.toNat = some e) : exec (.cbits x k) s = done s (e.bitsWord k.toNat) := by
  obtain ⟨hx, hk⟩ := operandsInRange_cbits.1 hr
  rw [exec, execCbits, if_neg (by simp [Config.symOk, Config.wordOk, hx, hk]), if_neg (not_not.2 hcoded),
    State.readCode_of_codeAt he]
  rfl

/-- The fields of CLEN's answer: `V`, zeros, `LEN` (R146). -/
theorem CodeEntry.lenWord_fields (e : CodeEntry) (hlen : e.len < 2 ^ 16) : e.lenWord.getLsbD 31 = e.v ∧
    (e.lenWord.extractLsb' 0 16).toNat = e.len ∧ e.lenWord.extractLsb' 16 15 = 0 := by
  refine ⟨?_, ?_, ?_⟩
  · rw [CodeEntry.lenWord, BitVec.getLsbD_append, if_neg (by decide), BitVec.getLsbD_append, if_neg (by decide)]
    cases e.v <;> rfl
  · rw [CodeEntry.lenWord, BitVec.extractLsb'_append_eq_right, BitVec.toNat_ofNat, Nat.mod_eq_of_lt hlen]
  · rw [CodeEntry.lenWord, BitVec.extractLsb'_append_eq_of_le le_rfl]
    exact BitVec.extractLsb'_append_eq_right

/-- Bit j of CBITS's answer for word k is code bit 32k + j (R147). -/
theorem CodeEntry.getLsbD_bitsWord (e : CodeEntry) (k : Nat) {j : Nat} (hj : j < 32) :
    (e.bitsWord k).getLsbD j = e.bits.testBit (32 * k + j) := by
  rw [CodeEntry.bitsWord, BitVec.getLsbD_ofNat, decide_eq_true hj, Bool.true_and, Nat.testBit_shiftRight]

/-- Settles O39: CLEN answers the length word; a symbol out of range comes before the phase. -/
theorem clenReadsTheLength : Obligations.ClenReadsTheLength := by
  refine ⟨fun x => encode_of_head (i := .clen x) (by simp [Instr.opcode]), fun s x e =>
    ⟨fun hx hcoded he hlen => ?_, fun hx hf => ?_, fun hx hphase hf => ?_⟩⟩
  · exact ⟨_, exec_clen (operandsInRange_clen.2 hx) hcoded he, e.lenWord_fields hlen⟩
  · exact exec_of_outOfRange_of_clear hf fun h => hx.not_gt (operandsInRange_clen.1 h)
  · exact exec_of_wrongPhase_of_clear hf (operandsInRange_clen.2 hx) (by simpa [phaseLegal] using hphase)

/-- Settles O40: CBITS answers a word of the code; an operand out of range comes before the phase. -/
theorem cbitsReadsOneWord : Obligations.CbitsReadsOneWord := by
  refine ⟨fun x k => encode_of_head (i := .cbits x k) (by simp [Instr.opcode]), fun s x k e =>
    ⟨fun hx hk hcoded he => ?_, fun hrange hf => ?_, fun hx hk hphase hf => ?_⟩⟩
  · exact ⟨_, exec_cbits (operandsInRange_cbits.2 ⟨hx, hk⟩) hcoded he, fun _ => e.getLsbD_bitsWord k.toNat⟩
  · refine exec_of_outOfRange_of_clear hf fun h => ?_
    obtain ⟨hx, hk⟩ := operandsInRange_cbits.1 h
    exact hrange.elim hx.not_ge hk.not_ge
  · exact exec_of_wrongPhase_of_clear hf (operandsInRange_cbits.2 ⟨hx, hk⟩) (by simpa [phaseLegal] using hphase)

end Sys2Proof.Machine
end

section
/-! The encoder, command by command (43_encoder.md R160 to R163): ENC's loop appends the bits of one code to the
payload, PGET reads one byte of it. -/

namespace Sys2Proof

/-- The word of a command from its upper half, opcode, `Z = 0` and field `A`, and its field `B` (R80). -/
theorem encode_of_upper {i : Instr} {upper : Word} (h : i.opcode ++ 0#8 ++ i.operandA = upper) :
    encode i = upper ++ i.operandB := by
  rw [← h]
  rfl

end Sys2Proof

namespace Sys2Proof.Machine

/-! ### PGET -/

theorem operandsInRange_pget {q : BitVec 32} {s : State} :
    operandsInRange (.pget q) s = true ↔ q.toNat < s.pbytes := by
  simp [operandsInRange, Instr.wellFormed]

/-- PGET of an index below `PBYTES` answers the byte, whatever the phase and the fault (R163). -/
theorem exec_pget {s : State} {q : BitVec 32} {b : Byte} (hq : q.toNat < s.pbytes)
    (hb : s.byteAt q.toNat = some b) : exec (.pget q) s = done s (b.setWidth 32) := by
  rw [exec, execPget, if_neg hq.not_ge, State.readByte_of_byteAt hb]
  rfl

/-- Settles O43: PGET reads a written byte or raises for an index not below `PBYTES`. -/
theorem pgetReadsOneByte : Obligations.PgetReadsOneByte := by
  have hupper : 0x41#8 ++ 0#8 ++ 0#16 = 0x41000000#32 := by decide
  refine ⟨fun q => encode_of_upper (i := .pget q) hupper, fun s q b => ⟨exec_pget, fun hq hf => ?_⟩⟩
  exact exec_of_outOfRange_of_clear hf fun h => hq.not_gt (operandsInRange_pget.1 h)

/-! ### Bits appended to the payload -/

/-- From `s` to `t` these bits are appended at `BITLEN`: the bits before them and the bytes outside their range
are as they were, and the payload is tight afterwards (R161, R162). -/
structure Appends (s t : State) (bits : List Bool) : Prop where
  tight : PayTight t
  bitlen : t.bitlen = s.bitlen + bits.length
  kept : ∀ p, p < s.bitlen → t.payBit p = s.payBit p
  added : ∀ j (h : j < bits.length), t.payBit (s.bitlen + j) = some bits[j]
  frame : ∀ q, q < s.bitlen / 8 ∨ (s.bitlen + bits.length + 7) / 8 ≤ q → t.byteAt q = s.byteAt q

theorem PayTight.appends_nil {s : State} (h : PayTight s) : Appends s s [] :=
  ⟨h, rfl, fun _ _ => rfl, fun _ hj => absurd hj (Nat.not_lt_zero _), fun _ _ => rfl⟩

theorem Appends.cons {s t u : State} {v : Bool} {bits : List Bool} (hv : Appends s t [v])
    (h : Appends t u bits) : Appends s u (v :: bits) := by
  have hlen : t.bitlen = s.bitlen + 1 := hv.bitlen
  have hlen' := h.bitlen
  refine ⟨h.tight, by rw [List.length_cons]; omega, fun p hp => ?_, fun j hj => ?_, fun q hq => ?_⟩
  · exact (h.kept p (by omega)).trans (hv.kept p hp)
  · cases j with
    | zero => exact (h.kept _ (by omega)).trans (hv.added 0 Nat.one_pos)
    | succ j =>
      have hj : j < bits.length := Nat.lt_of_succ_lt_succ hj
      have hadded := h.added j hj
      rwa [hlen, Nat.add_assoc, Nat.add_comm 1 j] at hadded
  · rw [List.length_cons] at hq
    exact (h.frame q (by omega)).trans (hv.frame q (by rw [List.length_singleton]; omega))

theorem State.payBit_of_getBit {s : State} {p : Nat} {v : Bool} (h : s.getBit p = .ok v) : s.payBit p = some v := by
  cases hb : s.byteAt (p / 8) with
  | none =>
    have hread : Memory.read s.pay (p / 8) = none := hb
    simp [State.getBit, State.readByte, hread] at h
  | some b =>
    rw [State.getBit, State.readByte_of_byteAt hb] at h
    rw [State.payBit_of_byteAt hb]
    exact congrArg some (Except.ok.inj h)

/-- In a tight payload the byte at `BITLEN` is new, or written with zeros from there on, as PutBit needs it. -/
theorem PayTight.zero_pad {s : State} (h : PayTight s) (hr : s.bitlen % 8 ≠ 0) :
    ∃ b, s.byteAt (s.bitlen / 8) = some b ∧ ∀ j, j < 8 - s.bitlen % 8 → b.getLsbD j = false := by
  have hsize := h.size
  obtain ⟨b, hb⟩ := Option.isSome_iff_exists.1 ((h.written (s.bitlen / 8)).2 (by omega))
  refine ⟨b, hb, fun j hj => ?_⟩
  have hbyte : (8 * (s.bitlen / 8) + (7 - j)) / 8 = s.bitlen / 8 := by omega
  have hpos : 7 - (8 * (s.bitlen / 8) + (7 - j)) % 8 = j := by omega
  have hbit := State.byteAt_eq_some_of_payBit (hbyte ▸ hb) (h.padding _ (by omega) (by omega))
  rwa [hpos] at hbit

/-- PutBit appends its bit to a tight payload (R69). -/
theorem PayTight.putBit_appends {s : State} (h : PayTight s) (v : Bool) :
    ∃ t, s.putBit v = .ok t ∧ Appends s t [v] := by
  obtain ⟨t, ht, _, hget, hkept, _, hframe⟩ := putBitAppendsOneBit.2 s v h.zero_pad
  obtain ⟨htight, hlen⟩ := payTight_putBit h ht
  refine ⟨t, ht, htight, hlen, hkept, fun j hj => ?_, fun q hq => hframe q ?_⟩
  · obtain rfl : j = 0 := Nat.lt_one_iff.1 hj
    exact State.payBit_of_getBit hget
  · rw [List.length_singleton] at hq
    omega

/-- ENC's loop appends the code bits it is told to, in order (R161). -/
theorem PayTight.putCode_appends {s : State} (h : PayTight s) (e : CodeEntry) (n i : Nat) :
    ∃ t, putCode e n i s = .ok t ∧ Appends s t ((List.range' i n).map e.bit) := by
  induction n generalizing i s with
  | zero => exact ⟨s, rfl, h.appends_nil⟩
  | succ n ih =>
    obtain ⟨t, ht, hbit⟩ := h.putBit_appends (e.bit i)
    obtain ⟨u, hu, hbits⟩ := ih hbit.tight (i + 1)
    exact ⟨u, by simp only [putCode, ht, hu], hbit.cons hbits⟩

theorem State.codeBits_of_codeAt {s : State} {x : Symbol} {e : CodeEntry} (he : s.codeAt x.toNat = some e) :
    s.codeBits x = (List.range e.len).map e.bit := by
  rw [State.codeBits, he]

/-- The whole code of a symbol is what ENC appends (R160, R161). -/
theorem PayTight.putCode_appends_code {s : State} (h : PayTight s) {x : Symbol} {e : CodeEntry}
    (he : s.codeAt x.toNat = some e) : ∃ t, putCode e e.len 0 s = .ok t ∧ Appends s t (s.codeBits x) := by
  rw [State.codeBits_of_codeAt he, List.range_eq_range']
  exact h.putCode_appends e e.len 0

/-! ### ENC -/

theorem operandsInRange_enc {x : Symbol} {s : State} :
    operandsInRange (.enc x) s = true ↔ x.toNat < s.cfg.nsym := by
  simp [operandsInRange, Instr.wellFormed, Config.symOk]

/-- ENC of a symbol in range, where PHASE and PMODE allow it, looks at the code and at the room for it, and then
appends (R161). -/
theorem exec_enc_of_legal {s : State} {x : Symbol} {e : CodeEntry} (hf : s.fault = false)
    (hr : operandsInRange (.enc x) s = true) (hcoded : s.phase = .coded) (hm : s.pmode ≠ .host)
    (he : s.codeAt x.toNat = some e) : exec (.enc x) s =
      if !e.v then raised s .missingCode (x.setWidth 32)
      else if 8 * s.cfg.pcap < s.bitlen + e.len then raised s .capacity (BitVec.ofNat 32 s.bitlen)
      else orStop (putCode e e.len 0 s) fun t => done { t with pmode := .enc } (BitVec.ofNat 32 e.len) := by
  have hx := operandsInRange_enc.1 hr
  rw [exec, execEnc, unlessFaulted_of_clear hf, if_neg (by simp [Config.symOk, hx]),
    if_neg (by simp [hcoded, hm]), State.readCode_of_codeAt he]
  rfl

/-- Settles O42: the loop appends the code to the tight payload; the checks before it raise in their order. -/
theorem encAppendsTheCode : Obligations.EncAppendsTheCode := by
  refine ⟨fun x => encode_of_head (i := .enc x) (by simp [Instr.opcode]), fun s x hinv hf =>
    ⟨fun hx => ?_, fun hx hillegal => ?_, fun e hx hcoded hm he => ?_⟩⟩
  · exact exec_of_outOfRange_of_clear hf fun h => hx.not_gt (operandsInRange_enc.1 h)
  · have hl : phaseLegal (.enc x) s.phase = false ∨ pmodeLegal (.enc x) s.pmode = false := by
      simpa [phaseLegal, pmodeLegal] using hillegal
    rw [exec_of_illegal hf (operandsInRange_enc.2 hx) hl]
    exact raised_of_clear hf _ _
  · rw [exec_enc_of_legal hf (operandsInRange_enc.2 hx) hcoded hm he]
    refine ⟨fun hv => ?_, fun hv hfull => ?_, fun hv hfits => ?_⟩
    · rw [if_pos (by simp [hv])]
      exact raised_of_clear hf _ _
    · rw [if_neg (by simp [hv]), if_pos hfull]
      exact raised_of_clear hf _ _
    · obtain ⟨t, ht, happ⟩ := (hinv.payTight hm).putCode_appends_code he
      rw [if_neg (by simp [hv]), if_neg hfits.not_gt, ht]
      have hbits : (s.codeBits x).length = e.len := by simp [State.codeBits_of_codeAt he]
      obtain ⟨pay, bitlen, pbytes, rfl⟩ : ∃ pay bitlen pbytes, t = { s with pay, bitlen, pbytes } :=
        ⟨_, _, _, putCode_frame ht⟩
      obtain rfl : bitlen = s.bitlen + e.len := hbits ▸ happ.bitlen
      obtain rfl : pbytes = (s.bitlen + e.len + 7) / 8 := happ.tight.size
      refine ⟨_, rfl, rfl, happ.kept, fun j hj => ?_, happ.tight.padding, fun q hq => happ.frame q (hbits.symm ▸ hq)⟩
      have hadded := happ.added j (hbits.symm ▸ hj)
      simp only [State.codeBits_of_codeAt he, List.getElem_map, List.getElem_range] at hadded
      exact hadded

end Sys2Proof.Machine
end

section
/-! A payload of the encoder's is the encoding of a text, of which the decoder has given out the first symbols
(43_encoder.md R160, R162, 44_decoder.md R189): a Step from there follows the code of the next symbol, ENC makes
the text longer, and no other command touches what this is about unless the payload becomes the host's. -/

namespace Sys2Proof.Machine

/-! ### What it depends on -/

theorem PathTo.congr_tree {s t : State} {i : Nat} {p : List Bool} (h : PathTo s i p)
    (he : t = { t with rootv := s.rootv, root := s.root, node := s.node }) : PathTo t i p :=
  h.congr (by rw [he]) (by rw [he]) (by rw [he])

/-- It depends on the payload, the codes, the tree and the decoder's registers alone. -/
theorem EncodedText.congr {s t : State} {done rest : List Symbol} {path : List Bool}
    (h : EncodedText s done rest path) (he : t = { t with pmode := s.pmode, rootv := s.rootv, root := s.root, bitlen := s.bitlen, rpos := s.rpos, cur := s.cur, node := s.node, code := s.code, pay := s.pay, out := s.out }) :
    EncodedText t done rest path := by
  obtain ⟨hm, hcodes, hbits, hout, hrpos, hcur⟩ := h
  rw [he]
  exact ⟨hm, hcodes, hbits, hout, hrpos, hcur.imp_right fun ⟨hp, hx⟩ => ⟨hp.congr_tree rfl, hx⟩⟩

theorem DecodesItsOwn.congr {s t : State} (h : DecodesItsOwn s) (he : t = { t with pmode := s.pmode, rootv := s.rootv, root := s.root, bitlen := s.bitlen, rpos := s.rpos, cur := s.cur, node := s.node, code := s.code, pay := s.pay, out := s.out }) :
    DecodesItsOwn t := by
  intro hm
  have hpmode : t.pmode = s.pmode := by rw [he]
  obtain ⟨done, rest, path, htext⟩ := h (hpmode ▸ hm)
  exact ⟨done, rest, path, htext.congr he⟩

theorem decodesItsOwn_of_host {s : State} (hm : s.pmode = .host) : DecodesItsOwn s := fun hne => absurd hm hne

theorem DecodesItsOwn.done {s : State} (h : DecodesItsOwn s) (v : Word) : Ensures DecodesItsOwn (done s v) :=
  ensures_next (h.congr rfl)

theorem DecodesItsOwn.raised {s : State} (h : DecodesItsOwn s) (c : Cause) (info : Word) :
    Ensures DecodesItsOwn (Machine.raised s c info) :=
  ensures_next (h.congr (by rw [s.raise_frame c info]))

theorem DecodesItsOwn.unlessFaulted {s : State} (h : DecodesItsOwn s) {k : Outcome}
    (hk : Ensures DecodesItsOwn k) : Ensures DecodesItsOwn (unlessFaulted s k) :=
  ensures_unlessFaulted (h.congr rfl) fun _ => hk

theorem decodesItsOwn_toReset (s : State) : DecodesItsOwn s.toReset := fun _ =>
  ⟨[], [], [], (encodedText_fresh s.cfg).congr rfl⟩

/-! ### Before there are codes -/

/-- The encoding of the empty text: nothing is written, nothing decoded. -/
theorem encodedText_nil_iff {s : State} : EncodedText s [] [] [] ↔
    s.pmode ≠ .host ∧ s.bitlen = 0 ∧ s.out = [] ∧ s.rpos = 0 ∧ s.cur = s.root := by
  simp [EncodedText, State.HoldsBits, State.encoding]

/-- A symbol with a code is one of those that the tree and the codes are about. -/
theorem Inv.of_hasCode {s : State} (h : Inv s) {x : Symbol} (hx : s.HasCode x) :
    s.phase = .coded ∧ TreeFacts s ∧ CodeFacts s ∧ x.toNat < s.cfg.nsym ∧ s.count x.toNat ≠ 0 := by
  obtain ⟨e, he, hv⟩ := hx
  obtain ⟨hcoded, hrange⟩ := (h.tables.codeWritten x.toNat).1 (by simp [he])
  have htree := h.tree (by simp [hcoded])
  have hcodes := h.codes hcoded
  exact ⟨hcoded, htree, hcodes, hrange, (hcodes.hasCode_iff htree hrange).1 ⟨e, he, hv⟩⟩

/-- Before DERIVE no text but the empty one is encoded. -/
theorem EncodedText.nil_of_not_coded {s : State} (h : Inv s) (hp : s.phase ≠ .coded) {done rest : List Symbol}
    {path : List Bool} (ht : EncodedText s done rest path) : EncodedText s [] [] [] := by
  have hnone : done ++ rest = [] := List.eq_nil_iff_forall_not_mem.2 fun x hx =>
    hp (h.of_hasCode (ht.2.1 x hx)).1
  obtain ⟨rfl, rfl⟩ := List.append_eq_nil_iff.1 hnone
  obtain ⟨_, _, _, _, _, ⟨rfl, _⟩ | ⟨_, _, _, _, hrest, _⟩⟩ := id ht
  · exact ht
  · cases hrest

theorem DecodesItsOwn.nil_of_not_coded {s : State} (h : Inv s) (hd : DecodesItsOwn s) (hp : s.phase ≠ .coded)
    (hm : s.pmode ≠ .host) : EncodedText s [] [] [] := by
  obtain ⟨_, _, _, ht⟩ := hd hm
  exact ht.nil_of_not_coded h hp

/-- BUILD puts the cursor on the root of the new tree, with nothing encoded and nothing decoded (R124). -/
theorem DecodesItsOwn.execBuild {s : State} (h : Inv s) (hd : DecodesItsOwn s) :
    Ensures DecodesItsOwn (execBuild s) := by
  refine hd.unlessFaulted (ensures_ite (fun _ => hd.raised _ _) fun hload => ensures_orStop fun t ht => ?_)
  obtain ⟨_, hcur⟩ := buildTree_treeFacts ht
  have hframe := buildTree_frame ht
  rw [not_not] at hload
  refine ensures_next fun hm => ⟨[], [], [], ?_⟩
  have hpmode : t.pmode = s.pmode := by rw [hframe]
  obtain ⟨hown, hbits, hout, hrpos, _⟩ :=
    encodedText_nil_iff.1 (hd.nil_of_not_coded h (by simp [hload]) (hpmode ▸ hm))
  rw [hframe] at hcur ⊢
  exact encodedText_nil_iff.2 ⟨hown, hbits, hout, hrpos, hcur⟩

/-- DERIVE finds nothing encoded and nothing decoded: a new code changes no text (R25). -/
theorem DecodesItsOwn.execDerive {s : State} (h : Inv s) (hd : DecodesItsOwn s) :
    Ensures DecodesItsOwn (execDerive s) := by
  refine hd.unlessFaulted (ensures_ite (fun _ => hd.raised _ _) fun hbuilt => ensures_orStop fun t ht => ?_)
  rw [not_not] at hbuilt
  obtain ⟨code, rfl⟩ : ∃ code, t = { s with code := code } := ⟨_, deriveCodes_frame ht⟩
  refine ensures_next fun hm => ⟨[], [], [], ?_⟩
  have hnil := encodedText_nil_iff.1 (hd.nil_of_not_coded h (by simp [hbuilt]) hm)
  exact encodedText_nil_iff.2 hnil

/-! ### ENC makes the text longer -/

theorem State.readCode_ok {s : State} {x : Nat} {e : CodeEntry} : s.readCode x = .ok e ↔ s.codeAt x = some e := by
  unfold State.readCode State.codeAt
  cases Table.get? s.code x <;> simp

/-- Bits appended to a payload that holds `bits` follow them. -/
theorem Appends.holdsBits {s t : State} {bits more : List Bool} (h : Appends s t more) (hs : s.HoldsBits bits) :
    t.HoldsBits (bits ++ more) := by
  obtain ⟨hlen, hold⟩ := hs
  refine ⟨by rw [h.bitlen, hlen, List.length_append], fun p hp => ?_⟩
  by_cases hlt : p < bits.length
  · rw [List.getElem_append_left hlt, h.kept p (by omega), hold p hlt]
  · rw [List.getElem_append_right (by omega)]
    rw [List.length_append] at hp
    have hadded := h.added (p - bits.length) (by omega)
    rwa [hlen, Nat.add_sub_cancel' (by omega)] at hadded

/-- The code of `x` appended, the text ends in `x` (R160, R161). -/
theorem EncodedText.append {s : State} {done rest : List Symbol} {path : List Bool} {x : Symbol} {pay : Memory}
    {bitlen pbytes : Nat} (ht : EncodedText s done rest path) (hx : s.HasCode x)
    (happ : Appends s { s with pay := pay, bitlen := bitlen, pbytes := pbytes } (s.codeBits x)) :
    EncodedText { s with pay := pay, bitlen := bitlen, pbytes := pbytes, pmode := .enc } done (rest ++ [x]) path := by
  obtain ⟨_, hcodes, hbits, hout, hrpos, hcur⟩ := ht
  have hnew : s.encoding (done ++ (rest ++ [x])) = s.encoding (done ++ rest) ++ s.codeBits x := by
    simp [State.encoding]
  refine ⟨by simp, fun y hy => ?_, ?_, hout, hrpos, hcur.imp_right fun ⟨hp, y, more, tail, hrest, htail, hy⟩ => ?_⟩
  · rw [← List.append_assoc, List.mem_append, List.mem_singleton] at hy
    rcases hy with hy | rfl
    · exact hcodes y hy
    · exact hx
  · have hholds := happ.holdsBits hbits
    rw [← hnew] at hholds
    exact hholds
  · exact ⟨hp.congr_tree rfl, y, more ++ [x], tail, by rw [hrest, List.cons_append], htail, hy⟩

theorem DecodesItsOwn.execEnc {s : State} (h : Inv s) (hd : DecodesItsOwn s) (x : Symbol) :
    Ensures DecodesItsOwn (execEnc x s) := by
  refine hd.unlessFaulted <| ensures_ite (fun _ => hd.raised _ _) fun _ =>
    ensures_ite (fun _ => hd.raised _ _) fun hlegal => ensures_orStop fun e he =>
    ensures_ite (fun _ => hd.raised _ _) fun hv =>
    ensures_ite (fun _ => hd.raised _ _) fun _ => ensures_orStop fun t hput => ?_
  rw [not_or] at hlegal
  have he := State.readCode_ok.1 he
  obtain ⟨t', hput', happ⟩ := (h.payTight hlegal.2).putCode_appends_code he
  cases hput'.symm.trans hput
  obtain ⟨pay, bitlen, pbytes, rfl⟩ : ∃ pay bitlen pbytes, t = { s with pay, bitlen, pbytes } :=
    ⟨_, _, _, putCode_frame hput⟩
  obtain ⟨done, rest, path, ht⟩ := hd hlegal.2
  exact ensures_next fun _ => ⟨done, rest ++ [x], path, (ht.append ⟨e, he, by simpa using hv⟩ happ).congr rfl⟩

/-! ### The code of the next symbol -/

theorem TreeFacts.nleaf_pos_of_count {s : State} (h : TreeFacts s) {x : Nat} (hx : x < s.cfg.nsym)
    (hc : s.count x ≠ 0) : 0 < s.nleaf :=
  h.leaves ▸ List.length_pos_of_mem (State.mem_present.2 ⟨hx, hc⟩)

theorem TreeFacts.rootv_of_nleaf_pos {s : State} (h : TreeFacts s) (hpos : 0 < s.nleaf) : s.rootv = true :=
  h.root.1.trans (decide_eq_true hpos)

/-- A code is the bit 0 alone in a tree of one leaf, else the path of the symbol's leaf (R142, R144). -/
theorem CodeFacts.codeBits_cases {s : State} (h : CodeFacts s) (ht : TreeFacts s) {x : Symbol}
    (hx : x.toNat < s.cfg.nsym) (hc : s.count x.toNat ≠ 0) :
    (s.nleaf = 1 ∧ s.codeBits x = [false]) ∨
      (2 ≤ s.nleaf ∧ ∃ i n, s.nodeAt i = some n ∧ n.kind = .leaf ∧ n.sym = x ∧ PathTo s i (s.codeBits x)) := by
  rcases Nat.eq_or_lt_of_le (ht.nleaf_pos_of_count hx hc) with hone | htwo
  · refine .inl ⟨hone.symm, ?_⟩
    rw [State.codeBits_of_codeAt (h.single x.toNat hx hc hone.symm)]
    rfl
  · obtain ⟨i, n, p, e, hn, hl, hsym, hp, he, hentry⟩ := h.path x.toNat hx hc htwo
    rw [hentry.codeBits he]
    exact .inr ⟨htwo, i, n, hn, hl, BitVec.eq_of_toNat_eq hsym, hp⟩

theorem CodeFacts.codeBits_ne_nil {s : State} (h : CodeFacts s) (ht : TreeFacts s) {x : Symbol}
    (hx : x.toNat < s.cfg.nsym) (hc : s.count x.toNat ≠ 0) : s.codeBits x ≠ [] := by
  rcases h.codeBits_cases ht hx hc with ⟨_, hbit⟩ | ⟨htwo, i, n, hn, hl, _, hp⟩
  · simp [hbit]
  · exact ht.leaf_path_ne_nil htwo hp hn hl

/-- A Step with a bit left reads it, in a tree, where the payload's bytes reach as far as its bits (R184). -/
theorem decodeStep_of_payBit {s : State} {b : Bool} (hlt : s.rpos < s.bitlen) (hv : s.rootv = true)
    (hbytes : s.rpos / 8 < s.pbytes) (hb : s.payBit s.rpos = some b) : decodeStep s = stepWithBit s b := by
  rw [decodeStep, if_neg hlt.not_ge, if_neg (by simp [hv]), if_neg hbytes.not_ge, State.getBit_of_payBit hb]

/-- With a symbol left to decode the cursor is at the node of a path that is the first part of its code, and a Step
reads the code's next bit (R160, R189). -/
theorem EncodedText.next_bit {s : State} (h : Inv s) {done more : List Symbol} {x : Symbol} {path : List Bool}
    (ht : EncodedText s done (x :: more) path) : ∃ b tail, s.codeBits x = path ++ b :: tail ∧
      PathTo s s.cur path ∧ decodeStep s = stepWithBit s b := by
  obtain ⟨hm, hcodes, ⟨hlen, hold⟩, _, hrpos, hcur⟩ := ht
  obtain ⟨_, htree, hcode, hrange, hcount⟩ := h.of_hasCode (hcodes x (by simp))
  have hv := htree.rootv_of_nleaf_pos (htree.nleaf_pos_of_count hrange hcount)
  have hcursor : PathTo s s.cur path ∧ ∃ tail, tail ≠ [] ∧ s.codeBits x = path ++ tail := by
    rcases hcur with ⟨rfl, hroot⟩ | ⟨hp, y, more', tail, hrest, htail, hy⟩
    · exact ⟨hroot ▸ .root hv, _, hcode.codeBits_ne_nil htree hrange hcount, rfl⟩
    · cases hrest
      exact ⟨hp, tail, htail, hy⟩
  obtain ⟨hp, tail, htail, hx⟩ := hcursor
  obtain ⟨b, tail, rfl⟩ := List.exists_cons_of_ne_nil htail
  have hbit : (s.encoding (done ++ x :: more))[s.rpos]? = some b := by
    have hsplit : s.encoding (done ++ x :: more) = (s.encoding done ++ path) ++ b :: (tail ++ s.encoding more) := by
      simp [State.encoding, hx]
    rw [hsplit, hrpos, ← List.length_append]
    simp
  obtain ⟨hlt, hget⟩ := List.getElem?_eq_some_iff.1 hbit
  have hsize := (h.payTight hm).size
  exact ⟨b, tail, hx, hp,
    decodeStep_of_payBit (hlen ▸ hlt) hv (by omega) ((hold _ hlt).trans (congrArg some hget))⟩

/-! ### A Step in the encoding of a text -/

/-- In a tree of one leaf the Step emits the leaf's symbol, whatever the bit (R184, R186). -/
theorem stepWithBit_of_leaf {s : State} {n : Node} (hn : s.nodeAt s.root = some n) (hl : n.kind = .leaf) (b : Bool) :
    stepWithBit s b = .ok (.emitted n.sym, { s with rpos := s.rpos + 1, out := s.out ++ [n.sym] }) := by
  simp only [stepWithBit, State.readNode_of_nodeAt hn, if_pos hl]
  rfl

/-- In a larger tree the Step goes from the cursor to the child on the bit's side (R184). -/
theorem stepWithBit_of_internal {s : State} {n m : Node} (hn : s.nodeAt s.root = some n) (hi : n.kind = .internal)
    (hm : s.nodeAt s.cur = some m) (hmi : m.kind = .internal) (b : Bool) :
    stepWithBit s b = descend s (if b then m.r else m.l) := by
  simp [stepWithBit, stepFromCursor, State.readNode_of_nodeAt hn, State.readNode_of_nodeAt hm, hi, hmi]

theorem descend_of_leaf {s : State} {c : Nat} {n : Node} (hn : s.nodeAt c = some n) (hl : n.kind = .leaf) :
    descend s c = .ok (.emitted n.sym, { s with rpos := s.rpos + 1, cur := s.root, out := s.out ++ [n.sym] }) := by
  simp only [descend, State.readNode_of_nodeAt hn, hl]
  rfl

theorem descend_of_internal {s : State} {c : Nat} {n : Node} (hn : s.nodeAt c = some n) (hi : n.kind = .internal) :
    descend s c = .ok (.quiet, { s with rpos := s.rpos + 1, cur := c }) := by
  simp only [descend, State.readNode_of_nodeAt hn, hi]
  rfl

/-- The child of a path's node is the node of the path that is longer by one bit (R141). -/
theorem PathTo.child {s : State} {k : Nat} {p : List Bool} {n : Node} (h : PathTo s k p)
    (hn : s.nodeAt k = some n) (hi : n.kind = .internal) (b : Bool) :
    PathTo s (if b then n.r else n.l) (p ++ [b]) := by
  cases b with
  | false => exact .left h hn hi
  | true => exact .right h hn hi

/-- On the way to a node a path is there already, or passes through an internal node (R141). -/
theorem PathTo.there_or_internal {s : State} {i c : Nat} {n : Node} {p tail : List Bool} (hc : PathTo s c p)
    (hi : PathTo s i (p ++ tail)) (hn : s.nodeAt i = some n) : (tail = [] ∧ s.nodeAt c = some n) ∨
      (tail ≠ [] ∧ ∃ m, s.nodeAt c = some m ∧ m.kind = .internal) := by
  rcases eq_or_ne tail [] with rfl | hne
  · rw [List.append_nil] at hi
    exact .inl ⟨rfl, hc.eq_of_path hi ▸ hn⟩
  · obtain ⟨k, m, hk, hm, hint⟩ := hi.internal_of_append hne
    exact .inr ⟨hne, m, hk.eq_of_path hc ▸ hm, hint⟩

/-- The root of a tree of one leaf is the leaf of the one symbol with a count (R126, R128). -/
theorem TreeFacts.root_of_one {s : State} (h : TreeFacts s) (hone : s.nleaf = 1) {x : Symbol}
    (hx : x.toNat < s.cfg.nsym) (hc : s.count x.toNat ≠ 0) :
    ∃ n, s.nodeAt s.root = some n ∧ n.kind = .leaf ∧ n.sym = x := by
  obtain ⟨_, hroot⟩ := h.root
  have hnodes := h.nodes
  have hzero : s.root = 0 := by omega
  obtain ⟨n, hn⟩ := h.node_exists (i := 0) (by omega)
  refine ⟨n, hzero ▸ hn, ?_, BitVec.eq_of_toNat_eq ((h.single_symbol hone hn).2 ⟨hx, hc⟩)⟩
  rw [h.kind_eq (by omega) hn, if_pos (by omega)]

/-- The root of a larger tree is internal (R128). -/
theorem TreeFacts.root_of_two {s : State} (h : TreeFacts s) (htwo : 2 ≤ s.nleaf) :
    ∃ n, s.nodeAt s.root = some n ∧ n.kind = .internal := by
  obtain ⟨_, hroot⟩ := h.root
  have hnodes := h.nodes
  obtain ⟨n, hn⟩ := h.node_exists (i := s.root) (by omega)
  exact ⟨n, hn, by rw [h.kind_eq (by omega) hn, if_neg (by omega)]⟩

/-- With the last bit of its code consumed and the cursor on the root, the next symbol is given out (R189). -/
theorem EncodedText.emitted {s : State} {done more : List Symbol} {x : Symbol} {path : List Bool} {b : Bool} {c : Nat}
    (ht : EncodedText s done (x :: more) path) (hx : s.codeBits x = path ++ [b]) (hc : c = s.root) :
    EncodedText { s with rpos := s.rpos + 1, cur := c, out := s.out ++ [x] } (done ++ [x]) more [] := by
  obtain ⟨hm, hcodes, hbits, hout, hrpos, _⟩ := ht
  rw [List.append_cons] at hcodes hbits
  refine ⟨hm, hcodes, hbits, congrArg (· ++ [x]) hout, ?_, .inl ⟨rfl, hc⟩⟩
  have hlen : (s.encoding (done ++ [x])).length = (s.encoding done).length + (path.length + 1) := by
    simp [State.encoding, hx]
  change s.rpos + 1 = (s.encoding (done ++ [x])).length + 0
  omega

/-- With a bit of its code consumed and others left, the cursor is one node further on its path (R189). -/
theorem EncodedText.moved {s : State} {done more : List Symbol} {x : Symbol} {path tail : List Bool} {b : Bool} {c : Nat}
    (ht : EncodedText s done (x :: more) path) (hx : s.codeBits x = path ++ b :: tail) (htail : tail ≠ [])
    (hc : PathTo s c (path ++ [b])) :
    EncodedText { s with rpos := s.rpos + 1, cur := c } done (x :: more) (path ++ [b]) := by
  obtain ⟨hm, hcodes, hbits, hout, hrpos, _⟩ := ht
  refine ⟨hm, hcodes, hbits, hout, ?_,
    .inr ⟨hc.congr_tree rfl, x, more, tail, rfl, htail, hx.trans (List.append_cons _ _ _)⟩⟩
  change s.rpos + 1 = (s.encoding done).length + (path ++ [b]).length
  rw [List.length_append, List.length_singleton, hrpos, Nat.add_assoc]

/-- What a Step does with `x` the next symbol of the text: it gives `x` out, or goes on in its code (R189). -/
inductive StepsInto (s : State) (done more : List Symbol) (x : Symbol) : Prop where
  | emitted {u : State} : decodeStep s = .ok (.emitted x, u) → EncodedText u (done ++ [x]) more [] →
      StepsInto s done more x
  | moved {u : State} {path : List Bool} : decodeStep s = .ok (.quiet, u) → EncodedText u done (x :: more) path →
      StepsInto s done more x

/-- At the end of the text a Step ends (R184, R189). -/
theorem EncodedText.decodeStep_nil {s : State} {done : List Symbol} {path : List Bool}
    (ht : EncodedText s done [] path) : decodeStep s = .ok (.finished, s) := by
  obtain ⟨_, _, ⟨hlen, _⟩, _, hrpos, ⟨rfl, hcur⟩ | ⟨_, _, _, _, hrest, _⟩⟩ := ht
  · have hend : s.bitlen ≤ s.rpos := by rw [hlen, hrpos, List.append_nil, List.length_nil, Nat.add_zero]
    rw [decodeStep, if_pos hend, if_neg (by simp [hcur])]
  · cases hrest

/-- With a symbol left a Step follows its code: to its leaf when the bit is the code's last, else to an internal
node (R184, R189). -/
theorem EncodedText.decodeStep_cons {s : State} (h : Inv s) {done more : List Symbol} {x : Symbol} {path : List Bool}
    (ht : EncodedText s done (x :: more) path) : StepsInto s done more x := by
  obtain ⟨b, tail, hx, hp, hstep⟩ := ht.next_bit h
  obtain ⟨_, hcodes, _⟩ := id ht
  obtain ⟨_, htree, hcode, hrange, hcount⟩ := h.of_hasCode (hcodes x (by simp))
  rcases hcode.codeBits_cases htree hrange hcount with ⟨hone, hbit⟩ | ⟨htwo, i, m, hm, hl, rfl, hpath⟩
  · obtain ⟨n, hn, hl, rfl⟩ := htree.root_of_one hone hrange hcount
    rw [hbit] at hx
    obtain ⟨rfl, hlast⟩ := (List.append_eq_singleton_iff.1 hx.symm).resolve_right (by simp)
    cases hlast
    rw [stepWithBit_of_leaf hn hl] at hstep
    exact .emitted hstep (ht.emitted hbit hp.of_nil)
  · obtain ⟨n, hn, hi⟩ := htree.root_of_two htwo
    rw [hx] at hpath
    obtain ⟨hnil, _⟩ | ⟨_, c, hc, hci⟩ := hp.there_or_internal hpath hm
    · cases hnil
    have hchild := hp.child hc hci b
    rw [stepWithBit_of_internal hn hi hc hci] at hstep
    rw [List.append_cons] at hpath
    rcases hchild.there_or_internal hpath hm with ⟨rfl, hd⟩ | ⟨htail, d, hd, hdi⟩
    · rw [descend_of_leaf hd hl] at hstep
      exact .emitted hstep (ht.emitted hx rfl)
    · rw [descend_of_internal hd hdi] at hstep
      exact .moved hstep (ht.moved hx htail hchild)

theorem decodeStep_pmode {s t : State} {r : StepResult} (h : decodeStep s = .ok (r, t)) : t.pmode = s.pmode := by
  rcases decodeStep_consumes h with rfl | ⟨_, _, hc⟩
  · rfl
  · cases hc <;> rfl

/-- A Step keeps the payload the encoding of a text, and the decoder somewhere in it (R189). -/
theorem DecodesItsOwn.decodeStep {s t : State} {r : StepResult} (h : Inv s) (hd : DecodesItsOwn s)
    (hs : decodeStep s = .ok (r, t)) : DecodesItsOwn t := by
  intro hm
  rw [decodeStep_pmode hs] at hm
  obtain ⟨done, rest, path, ht⟩ := hd hm
  cases rest with
  | nil =>
    cases hs.symm.trans ht.decodeStep_nil
    exact ⟨done, [], path, ht⟩
  | cons x more =>
    cases ht.decodeStep_cons h with
    | emitted hstep hu =>
      cases hs.symm.trans hstep
      exact ⟨_, _, _, hu⟩
    | moved hstep hu =>
      cases hs.symm.trans hstep
      exact ⟨_, _, _, hu⟩

theorem DecodesItsOwn.answerStep {s : State} (h : DecodesItsOwn s) (r : StepResult) :
    Ensures DecodesItsOwn (answerStep (r, s)) := by
  cases r with
  | finished | quiet | emitted => exact h.done _
  | malformed => exact h.raised _ _

theorem DecodesItsOwn.execDstep {s : State} (h : Inv s) (hd : DecodesItsOwn s) :
    Ensures DecodesItsOwn (execDstep s) :=
  hd.unlessFaulted <| ensures_ite (fun _ => hd.raised _ _) fun _ =>
    ensures_orStop fun x hs => (hd.decodeStep h hs).answerStep x.1

theorem DecodesItsOwn.runSteps {s : State} (h : Inv s) (hd : DecodesItsOwn s) (k n : Nat) :
    Ensures DecodesItsOwn (runSteps k n s) := by
  induction k generalizing n s with
  | zero => exact ensures_fault _
  | succ k ih =>
    unfold Machine.runSteps
    split
    · exact ensures_fault _
    · exact (hd.decodeStep h ‹_›).done _
    · exact ih (h.decodeStep ‹_›) (hd.decodeStep h ‹_›) _
    · exact ih (h.decodeStep ‹_›) (hd.decodeStep h ‹_›) _
    · exact (hd.decodeStep h ‹_›).raised _ _

theorem DecodesItsOwn.execDrun {s : State} (h : Inv s) (hd : DecodesItsOwn s) : Ensures DecodesItsOwn (execDrun s) :=
  hd.unlessFaulted <| ensures_ite (fun _ => hd.raised _ _) fun _ => hd.runSteps h _ _

/-! ### Every step -/

/-- A reading command answers or raises (R64). -/
theorem DecodesItsOwn.of_read {s : State} (hd : DecodesItsOwn s) {i : Instr} (hread : changesState i = false)
    (hrst : i ≠ .rst) : Ensures DecodesItsOwn (exec i s) := by
  intro t ht
  rcases readsHaveNoSideEffect i s t hread hrst ht with ht | ht
  · exact hd.congr (by rw [ht])
  · exact hd.congr (by rw [ht])

/-- FSET writes no piece of state that this is about (R103). -/
theorem DecodesItsOwn.execFset {s : State} (hd : DecodesItsOwn s) (x : Symbol) (c : Count) :
    Ensures DecodesItsOwn (execFset x c s) :=
  hd.unlessFaulted <| ensures_ite (fun _ => hd.raised _ _) fun _ => ensures_ite (fun _ => hd.raised _ _) fun _ =>
    ensures_next (hd.congr rfl)

/-- PPUT makes the payload the host's (R181). -/
theorem DecodesItsOwn.execPput {s : State} (hd : DecodesItsOwn s) (b : Byte) : Ensures DecodesItsOwn (execPput b s) :=
  hd.unlessFaulted <| ensures_ite (fun _ => hd.raised _ _) fun _ => ensures_ite (fun _ => hd.raised _ _) fun _ =>
    ensures_next (decodesItsOwn_of_host rfl)

/-- PLEN makes the payload the host's (R182). -/
theorem DecodesItsOwn.execPlen {s : State} (hd : DecodesItsOwn s) (n : BitVec 32) :
    Ensures DecodesItsOwn (execPlen n s) :=
  hd.unlessFaulted <| ensures_ite (fun _ => hd.raised _ _) fun _ => ensures_next (decodesItsOwn_of_host rfl)

theorem DecodesItsOwn.exec {s : State} (h : Inv s) (hd : DecodesItsOwn s) (i : Instr) :
    Ensures DecodesItsOwn (exec i s) := by
  cases i with
  | nop | rdcsr | fget | nget | clen | cbits | pget => exact hd.of_read rfl nofun
  | rst => exact (decodesItsOwn_toReset s).done _
  | fset x c => exact hd.execFset x c
  | build => exact hd.execBuild h
  | derive => exact hd.execDerive h
  | enc x => exact hd.execEnc h x
  | pput b => exact hd.execPput b
  | plen n => exact hd.execPlen n
  | dstep => exact hd.execDstep h
  | drun => exact hd.execDrun h

theorem DecodesItsOwn.runWord {s : State} (h : Inv s) (hd : DecodesItsOwn s) (w : CmdWord) :
    Ensures DecodesItsOwn (runWord w s) := by
  unfold Machine.runWord
  split
  · exact hd.exec h _
  · exact hd.raised _ _

/-- Settles O56: ENC makes the text longer, the decoder goes on in it, BUILD and DERIVE find it empty, and the other
commands leave it alone, give the payload to the host or reset. -/
theorem stepKeepsTheEncodedText : Obligations.StepKeepsTheEncodedText := by
  intro s t h hd ht
  have hdrop : DecodesItsOwn s.dropInput := hd.congr rfl
  unfold step at ht
  split at ht
  · cases ht; exact hd
  · exact hdrop.runWord h.dropInput _ t ht
  · cases ht; exact decodesItsOwn_toReset _
  · cases ht; exact decodesItsOwn_toReset _

end Sys2Proof.Machine
end

section
/-! The payload load and the decoder, command by command (44_decoder.md R181 to R189): what a DSTEP does check by
check, when it faults, and that DRUN is DSTEP until the end. -/

namespace Sys2Proof.Machine

/-! ### PPUT and PLEN -/

/-- A command with operands in range that PMODE forbids raises `E_SEQUENCE` with its opcode, `PMODE` and
`PHASE` (R25, R220). -/
theorem exec_of_wrongOwner_of_clear {i : Instr} {s : State} (hf : s.fault = false)
    (hr : operandsInRange i s = true) (hm : pmodeLegal i s.pmode = false) :
    ∃ t, exec i s = .next t ∧
      RaisedFrom s t .sequence (0#16 ++ i.opcode ++ 0#2 ++ s.pmode.code ++ 0#2 ++ s.phase.code) := by
  rw [exec_of_illegal hf hr (.inr hm)]
  exact raised_of_clear hf _ _

/-- PPUT's word, upper half: the byte is the low one of the field `A` (R181). -/
theorem pput_upper (b : Byte) : (Instr.pput b).opcode ++ 0#8 ++ (Instr.pput b).operandA = 0x500000#24 ++ b := by
  have hzero : 0x500000#24 = 0x50#8 ++ 0#8 ++ 0#8 := by decide
  rw [hzero, Instr.opcode, Instr.operandA]
  ext k hk
  simp only [BitVec.getElem_append, BitVec.getElem_setWidth]
  grind

/-- PPUT where PMODE allows it looks at the room for the byte and then writes it (R181). -/
theorem exec_pput_of_legal {s : State} {b : Byte} (hf : s.fault = false) (hm : s.pmode ≠ .enc) :
    exec (.pput b) s = if s.cfg.pcap ≤ s.pbytes then raised s .capacity (BitVec.ofNat 32 s.pbytes)
      else done { s with pay := Memory.write s.pay s.pbytes b, pbytes := s.pbytes + 1, pmode := .host } 0 := by
  rw [exec, execPput, unlessFaulted_of_clear hf, if_neg hm]

/-- Settles O44: PPUT writes one byte; the owner is looked at before the room. -/
theorem pputAppendsOneByte : Obligations.PputAppendsOneByte := by
  refine ⟨fun b => encode_of_upper (pput_upper b), fun s b hf => ⟨fun hm => ?_, fun hm hfull => ?_, fun hm hroom => ?_⟩⟩
  · exact exec_of_wrongOwner_of_clear hf rfl (by simp [pmodeLegal, hm])
  · rw [exec_pput_of_legal hf hm, if_pos hfull]
    exact raised_of_clear hf _ _
  · rw [exec_pput_of_legal hf hm, if_neg hroom.not_ge]
    have hbyte := State.byteAt_of_write (s := s) (t := { s with pay := Memory.write s.pay s.pbytes b }) rfl
    exact ⟨_, rfl, rfl, (hbyte _).trans (if_pos rfl), fun q hq => (hbyte q).trans (if_neg hq)⟩

/-- PLEN where PMODE allows it (R182). -/
theorem exec_plen {s : State} {n : BitVec 32} (hf : s.fault = false) (hm : s.pmode ≠ .enc) :
    exec (.plen n) s = done { s with bitlen := n.toNat, pmode := .host } 0 := by
  rw [exec, execPlen, unlessFaulted_of_clear hf, if_neg hm]

/-- Settles O45: PLEN sets `BITLEN`, or raises where the payload is the encoder's. -/
theorem plenSetsTheBitLength : Obligations.PlenSetsTheBitLength := by
  have hupper : 0x51#8 ++ 0#8 ++ 0#16 = 0x51000000#32 := by decide
  exact ⟨fun n => encode_of_upper (i := .plen n) hupper, fun s n hf =>
    ⟨exec_plen hf, fun hm => exec_of_wrongOwner_of_clear hf rfl (by simp [pmodeLegal, hm])⟩⟩

/-! ### The checks of one Step -/

theorem Node.kind_eq_leaf_iff {n : Node} : n.kind = .leaf ↔ n.lv = false ∧ n.rv = false := by
  cases hl : n.lv <;> cases hr : n.rv <;> simp [Node.kind, hl, hr]

theorem Node.kind_eq_internal_iff {n : Node} : n.kind = .internal ↔ n.lv = true ∧ n.rv = true := by
  cases hl : n.lv <;> cases hr : n.rv <;> simp [Node.kind, hl, hr]

theorem Node.kind_eq_broken_iff {n : Node} : n.kind = .broken ↔ n.lv ≠ n.rv := by
  cases hl : n.lv <;> cases hr : n.rv <;> simp [Node.kind, hl, hr]

/-- Check 1, in the middle of a path (R184). -/
theorem decodeStep_of_midPath {s : State} (hend : s.bitlen ≤ s.rpos) (hv : s.rootv = true) (hcur : s.cur ≠ s.root) :
    decodeStep s = .ok (.malformed, s) := by
  rw [decodeStep, if_pos hend, if_pos (by simp [hv, hcur])]

/-- Check 1, between symbols (R184). -/
theorem decodeStep_of_end {s : State} (hend : s.bitlen ≤ s.rpos) (hcur : s.rootv = false ∨ s.cur = s.root) :
    decodeStep s = .ok (.finished, s) := by
  rw [decodeStep, if_pos hend, if_neg (by rcases hcur with h | h <;> simp [h])]

/-- Checks 2 and 3 (R184). -/
theorem decodeStep_of_missing {s : State} (hlt : s.rpos < s.bitlen) (hmiss : s.rootv = false ∨ s.pbytes ≤ s.rpos / 8) :
    decodeStep s = .ok (.malformed, s) := by
  rw [decodeStep, if_neg hlt.not_ge]
  by_cases hv : s.rootv = false
  · rw [if_pos (by simp [hv])]
  · rw [if_neg (by simpa using hv), if_pos (hmiss.resolve_left hv)]

/-- Under a root that is not a leaf the Step goes on from the cursor (R184). -/
theorem stepWithBit_of_not_leaf {s : State} {n : Node} (hn : s.nodeAt s.root = some n) (hl : n.kind ≠ .leaf)
    (b : Bool) : stepWithBit s b = stepFromCursor s b := by
  simp only [stepWithBit, State.readNode_of_nodeAt hn, if_neg hl]

/-- Check 4: the node under the cursor, and no other descent (R184). -/
theorem stepFromCursor_of_nodeAt {s : State} {m : Node} (hm : s.nodeAt s.cur = some m) (b : Bool) :
    stepFromCursor s b = if m.kind = .internal then descend s (if b then m.r else m.l) else .ok (.malformed, s) := by
  simp only [stepFromCursor, State.readNode_of_nodeAt hm]

/-- Check 5 (R184). -/
theorem descend_of_broken {s : State} {c : Nat} {n : Node} (hn : s.nodeAt c = some n) (hb : n.kind = .broken) :
    descend s c = .ok (.malformed, s) := by
  simp only [descend, State.readNode_of_nodeAt hn, hb]

/-! ### DSTEP -/

/-- DSTEP answers what the Step gives (R184). -/
theorem exec_dstep {s t : State} {r : StepResult} (hf : s.fault = false) (hp : s.phase ≠ .load)
    (hs : decodeStep s = .ok (r, t)) : exec .dstep s = answerStep (r, t) := by
  rw [exec, execDstep, unlessFaulted_of_clear hf, if_neg hp, hs]
  rfl

/-- A Step that a check stops is `E_MALFORMED` with `FINFO = RPOS`, and nothing else changes (R184). -/
theorem exec_dstep_of_malformed {s : State} (hf : s.fault = false) (hp : s.phase ≠ .load)
    (hs : decodeStep s = .ok (.malformed, s)) :
    ∃ t, exec .dstep s = .next t ∧ RaisedFrom s t .malformed (BitVec.ofNat 32 s.rpos) := by
  rw [exec_dstep hf hp hs]
  exact raised_of_clear hf _ _

/-- Settles O46: each check in its order, then the leaf at the root, or the descent from the cursor. -/
theorem dstepConsumesOneBit : Obligations.DstepConsumesOneBit := by
  refine ⟨by decide, fun s hf => ⟨fun hload => ?_, fun hp => ⟨fun hend hv hcur => ?_, fun hend hcur => ?_,
    fun hlt hmiss => ?_, fun b n hlt hv hbyte hb hn => ?_⟩⟩⟩
  · exact exec_of_wrongPhase_of_clear hf rfl (by simp [phaseLegal, hload])
  · exact exec_dstep_of_malformed hf hp (decodeStep_of_midPath hend hv hcur)
  · exact exec_dstep hf hp (decodeStep_of_end hend hcur)
  · exact exec_dstep_of_malformed hf hp (decodeStep_of_missing hlt hmiss)
  have hbit := decodeStep_of_payBit hlt hv hbyte hb
  simp only [← Node.kind_eq_leaf_iff, ← Node.kind_eq_internal_iff, ← Node.kind_eq_broken_iff]
  refine ⟨fun hl => exec_dstep hf hp (hbit.trans (stepWithBit_of_leaf hn hl b)), fun m hl hm => ?_⟩
  rw [stepWithBit_of_not_leaf hn hl, stepFromCursor_of_nodeAt hm] at hbit
  refine ⟨fun hmi => exec_dstep_of_malformed hf hp (hbit.trans (if_neg hmi)), fun d hmi hd => ?_⟩
  rw [if_pos hmi] at hbit
  exact ⟨fun hdl => exec_dstep hf hp (hbit.trans (descend_of_leaf hd hdl)),
    fun hdi => exec_dstep hf hp (hbit.trans (descend_of_internal hd hdi)),
    fun hdb => exec_dstep_of_malformed hf hp (hbit.trans (descend_of_broken hd hdb))⟩

/-! ### When a Step faults -/

/-- The three causes of `E_MALFORMED` (R188). -/
def MalformedCause (s : State) : Prop :=
  (s.rpos < s.bitlen ∧ s.rootv = false) ∨ (s.rpos < s.bitlen ∧ s.pbytes ≤ s.rpos / 8) ∨
    (s.bitlen ≤ s.rpos ∧ s.rootv = true ∧ s.cur ≠ s.root)

theorem Inv.tree_of_rootv {s : State} (h : Inv s) (hv : s.rootv = true) : TreeFacts s :=
  h.tree fun hp => by
    obtain ⟨_, _, hnone, _⟩ := h.load hp
    exact absurd (hv.symm.trans hnone) (by decide)

/-- From an internal node of a tree the descent completes: its children are leaves or internal (R128, R188). -/
theorem TreeFacts.descend_exists {s : State} (h : TreeFacts s) {m : Node} (hm : s.nodeAt s.cur = some m)
    (hcur : s.cur < s.nnodes) (hi : m.kind = .internal) (b : Bool) :
    ∃ r t, descend s (if b then m.r else m.l) = .ok (r, t) ∧ r ≠ .malformed := by
  obtain ⟨_, hl, hr, _⟩ := h.of_internal hcur hm hi
  have hchild : (if b then m.r else m.l) < s.nnodes := by split_ifs <;> omega
  obtain ⟨d, hd⟩ := h.node_exists hchild
  by_cases hdl : d.kind = .leaf
  · exact ⟨_, _, descend_of_leaf hd hdl, nofun⟩
  · exact ⟨_, _, descend_of_internal hd (h.internal_of_not_leaf hchild hd hdl), nofun⟩

/-- With a bit left, a tree and the bit's byte loaded, checks 4 and 5 do not fail (R188). -/
theorem Inv.decodeStep_of_byte {s : State} (h : Inv s) (hlt : s.rpos < s.bitlen) (hv : s.rootv = true)
    (hbyte : s.rpos / 8 < s.pbytes) : ∃ r t, Machine.decodeStep s = .ok (r, t) ∧ r ≠ .malformed := by
  obtain ⟨byte, hb⟩ := Option.isSome_iff_exists.1 ((h.tables.payWritten _).2 hbyte)
  rw [decodeStep_of_payBit hlt hv hbyte (State.payBit_of_byteAt hb)]
  obtain ⟨hcur, hint⟩ := h.cursor.cursor hv
  have htree := h.tree_of_rootv hv
  have hroot : s.root < s.nnodes := (htree.path_id_le (.root hv)).1
  obtain ⟨n, hn⟩ := htree.node_exists hroot
  by_cases hl : n.kind = .leaf
  · exact ⟨_, _, stepWithBit_of_leaf hn hl _, nofun⟩
  · have hcursor : ∃ m, s.nodeAt s.cur = some m ∧ m.kind = .internal := by
      rcases hint with hroot' | hint
      · exact ⟨n, hroot' ▸ hn, htree.internal_of_not_leaf hroot hn hl⟩
      · exact hint
    obtain ⟨m, hm, hmi⟩ := hcursor
    rw [stepWithBit_of_not_leaf hn hl, stepFromCursor_of_nodeAt hm, if_pos hmi]
    exact htree.descend_exists hm hcur hmi _

/-- Under the invariant a Step completes, and it faults for one of the three causes (R188). -/
theorem Inv.decodeStep_exists {s : State} (h : Inv s) :
    ∃ r t, Machine.decodeStep s = .ok (r, t) ∧ (r = .malformed ↔ MalformedCause s) := by
  by_cases hend : s.bitlen ≤ s.rpos
  · by_cases hcur : s.rootv = false ∨ s.cur = s.root
    · refine ⟨_, _, decodeStep_of_end hend hcur, iff_of_false nofun ?_⟩
      rcases hcur with hcur | hcur <;> simp [MalformedCause, hend, hcur]
    · obtain ⟨hv, hcur⟩ := not_or.1 hcur
      have hv := eq_true_of_ne_false hv
      exact ⟨_, _, decodeStep_of_midPath hend hv hcur, iff_of_true rfl (.inr (.inr ⟨hend, hv, hcur⟩))⟩
  · have hlt := Nat.lt_of_not_le hend
    by_cases hmiss : s.rootv = false ∨ s.pbytes ≤ s.rpos / 8
    · exact ⟨_, _, decodeStep_of_missing hlt hmiss, iff_of_true rfl (by simpa [MalformedCause, hlt, hend] using hmiss)⟩
    · obtain ⟨hv, hbyte⟩ := not_or.1 hmiss
      obtain ⟨r, t, hs, hr⟩ := h.decodeStep_of_byte hlt (by simpa using hv) (Nat.lt_of_not_le hbyte)
      exact ⟨r, t, hs, iff_of_false hr (by simpa [MalformedCause, hlt, hend] using hmiss)⟩

/-- A Step writes the decoder's registers and `OUT` alone (R184). -/
theorem decodeStep_frame {s t : State} {r : StepResult} (h : decodeStep s = .ok (r, t)) :
    t = { s with rpos := t.rpos, cur := t.cur, out := t.out } := by
  rcases decodeStep_consumes h with rfl | ⟨_, _, hc⟩
  · rfl
  · cases hc <;> rfl

theorem answerStep_exists (r : StepResult) (u : State) : ∃ t, answerStep (r, u) = .next t := by
  cases r <;> exact ⟨_, rfl⟩

/-- DSTEP faults where the Step does, with `E_MALFORMED` (R184). -/
theorem fault_answerStep {s t u : State} {r : StepResult} (hf : s.fault = false) (hs : decodeStep s = .ok (r, u))
    (ht : answerStep (r, u) = .next t) : (t.fault = true ↔ r = .malformed) ∧ (t.fault = true → t.cause = .malformed) := by
  have hclear : u.fault = false := by rw [decodeStep_frame hs]; exact hf
  cases r with
  | malformed =>
    cases ht
    have hraised : _ = _ := State.raise_of_clear hclear .malformed (BitVec.ofNat 32 u.rpos)
    rw [hraised]
    simp
  | finished | quiet | emitted =>
    cases ht
    simp [hclear]

/-- Settles O49: the Step completes, DSTEP faults where the Step does, and checks 4 and 5 do not fail. -/
theorem malformedHasThreeCauses : Obligations.MalformedHasThreeCauses := by
  intro s t h hf hp ht
  obtain ⟨r, u, hs, hcause⟩ := h.decodeStep_exists
  rw [exec_dstep hf hp hs] at ht
  obtain ⟨hfault, hmal⟩ := fault_answerStep hf hs ht
  exact ⟨hfault.trans hcause, hmal⟩

/-! ### DRUN's loop -/

theorem runSteps_of_finished {s t : State} (hs : decodeStep s = .ok (.finished, t)) (k n : Nat) :
    runSteps (k + 1) n s = done t (BitVec.ofNat 32 n) := by
  simp only [runSteps, hs]

theorem runSteps_of_malformed {s t : State} (hs : decodeStep s = .ok (.malformed, t)) (k n : Nat) :
    runSteps (k + 1) n s = raiseMalformed t := by
  simp only [runSteps, hs]

theorem runSteps_of_quiet {s t : State} (hs : decodeStep s = .ok (.quiet, t)) (k n : Nat) :
    runSteps (k + 1) n s = runSteps k n t := by
  simp only [runSteps, hs]

theorem runSteps_of_emitted {s t : State} {x : Symbol} (hs : decodeStep s = .ok (.emitted x, t)) (k n : Nat) :
    runSteps (k + 1) n s = runSteps k (n + 1) t := by
  simp only [runSteps, hs]

/-- DRUN runs the loop outside LOAD with no fault latched (R185). -/
theorem exec_drun {s : State} (hf : s.fault = false) (hp : s.phase ≠ .load) :
    exec .drun s = runSteps (s.bitlen - s.rpos + 1) 0 s := by
  rw [exec, execDrun, unlessFaulted_of_clear hf, if_neg hp]

/-- Settles O48: the first Step of either command ends at check 1 or at check 2. -/
theorem withoutATreeNothingDecodes : Obligations.WithoutATreeNothingDecodes := by
  intro s h hf hp hv
  obtain ⟨_, _, hrpos, _⟩ := h.cursor.noTree hv
  rw [exec_drun hf hp]
  refine ⟨fun hlen => ?_, fun hlen => ?_⟩
  · have hs := decodeStep_of_end (s := s) (by omega) (.inl hv)
    exact ⟨exec_dstep hf hp hs, runSteps_of_finished hs _ _⟩
  · have hs := decodeStep_of_missing (s := s) (by omega) (.inl hv)
    rw [exec_dstep hf hp hs, runSteps_of_malformed hs]
    refine ⟨_, rfl, rfl, ?_⟩
    have hraised := State.raise_of_clear hf .malformed (BitVec.ofNat 32 s.rpos)
    rwa [hrpos] at hraised ⊢

/-- Taking a fault overwrites the response (R221). -/
theorem State.raise_withResp (s : State) (c : Cause) (info : Word) (r : Option Response) :
    State.raise { s with resp := r } c info = s.raise c info := by
  unfold State.raise State.latch
  split_ifs <;> rfl

/-- DRUN's loop does not look at the response: its last Step overwrites it (R185). -/
theorem runSteps_withResp (k n : Nat) (s : State) (r : Option Response) :
    runSteps k n { s with resp := r } = runSteps k n s := by
  induction k generalizing n s with
  | zero => rfl
  | succ k ih =>
    have hresp := decodeStep_withResp s r
    cases hs : decodeStep s with
    | error f => simp only [runSteps, hresp, hs, Except.map]
    | ok x =>
      obtain ⟨a, t⟩ := x
      rw [hs] at hresp
      cases a with
      | finished => exact (runSteps_of_finished hresp k n).trans (runSteps_of_finished hs k n).symm
      | quiet => exact (runSteps_of_quiet hresp k n).trans ((ih n t).trans (runSteps_of_quiet hs k n).symm)
      | emitted y =>
        exact (runSteps_of_emitted hresp k n).trans ((ih (n + 1) t).trans (runSteps_of_emitted hs k n).symm)
      | malformed =>
        rw [runSteps_of_malformed hs, runSteps_of_malformed hresp]
        exact congrArg Host.Outcome.next (t.raise_withResp _ _ r)

theorem runSteps_ok (k n : Nat) (s : State) (v : Word) : runSteps k n (s.ok v) = runSteps k n s :=
  runSteps_withResp k n s _

/-! ### DRUN is DSTEP until the end -/

/-- One DSTEP that goes on: it has consumed a bit, and emitted at most one Symbol (R184). -/
structure GoesOn (s t : State) : Prop where
  step : exec .dstep s = .next t
  wentOn : wentOn t
  phase : t.phase = s.phase
  bit : s.rpos < s.bitlen
  bitlen : t.bitlen = s.bitlen
  rpos : t.rpos = s.rpos + 1
  grows : s.out.length ≤ t.out.length

/-- Some DSTEPs that go on, no more than there are bits, and the one to `v` that does not (R185). -/
structure DstepsEnd (s v : State) : Prop where
  steps : ∃ k u, DstepsTo k s u ∧ exec .dstep u = .next v ∧ k ≤ s.bitlen - s.rpos
  stops : ¬ wentOn v
  ended : v.fault = false → v.dend = true
  grows : s.out.length ≤ v.out.length

/-- A DSTEP that goes on may come before the others as well as after them (R185). -/
theorem DstepsTo.prepend {k : Nat} {s t u : State} (ht : exec .dstep s = .next t) (hw : wentOn t)
    (h : DstepsTo k t u) : DstepsTo (k + 1) s u := by
  induction h with
  | none => exact .more (.none s) ht hw
  | more _ hu hw' ih => exact .more (ih ht hw) hu hw'

theorem GoesOn.dstepsEnd {s t v : State} (h : GoesOn s t) (ht : DstepsEnd t v) : DstepsEnd s v := by
  obtain ⟨hstep, hwent, _, hbit, hbitlen, hrpos, hgrows⟩ := h
  obtain ⟨k, u, hsteps, hu, hk⟩ := ht.steps
  exact ⟨⟨k + 1, u, hsteps.prepend hstep hwent, hu, by omega⟩, ht.stops, ht.ended, hgrows.trans ht.grows⟩

/-- How DRUN answers where the last DSTEP leads to `v`: the fault that it took, or the number of Symbols (R185). -/
def drunAnswer (n : Nat) (v : State) : State := if v.fault then v else v.ok (BitVec.ofNat 32 n)

/-- DRUN's loop does what a DSTEP does: it ends as that one stops, or it goes on from where that one leads. -/
inductive LoopFollows (s : State) : Prop where
  | stops {v : State} : DstepsEnd s v → v.out = s.out →
      (∀ k n, runSteps (k + 1) n s = .next (drunAnswer n v)) → LoopFollows s
  | goesOn {t : State} : GoesOn s t →
      (∀ k n, runSteps (k + 1) n s = runSteps k (n + (t.out.length - s.out.length)) t) → LoopFollows s

theorem okResponse_injective : Function.Injective okResponse := fun v w h => by
  have hdata := congrArg (BitVec.extractLsb' 0 32) h
  rwa [okResponse, mkResponse, okResponse, mkResponse, BitVec.extractLsb'_append_eq_right,
    BitVec.extractLsb'_append_eq_right] at hdata

/-- An answer with bit 17 clear is not `END`'s (R184). -/
theorem wentOn_ok {s : State} (hf : s.fault = false) {v : Word} (hv : v.getLsbD 17 = false) : wentOn (s.ok v) := by
  refine ⟨hf, fun h => ?_⟩
  cases okResponse_injective (Option.some.inj h)
  cases hv

theorem LoopFollows.of_finished {s : State} (hf : s.fault = false) (hp : s.phase ≠ .load)
    (hs : decodeStep s = .ok (.finished, s)) (hend : s.dend = true) : LoopFollows s :=
  .stops (v := s.ok 0x00020000)
    ⟨⟨0, s, .none s, exec_dstep hf hp hs, Nat.zero_le _⟩, fun hw => hw.2 rfl, fun _ => hend, le_rfl⟩ rfl
    fun k n => by rw [runSteps_of_finished hs, drunAnswer, if_neg (by simp [hf])]; rfl

theorem LoopFollows.of_malformed {s : State} (hf : s.fault = false) (hp : s.phase ≠ .load)
    (hs : decodeStep s = .ok (.malformed, s)) : LoopFollows s := by
  have hfault : (s.raise .malformed (BitVec.ofNat 32 s.rpos)).fault = true := s.raise_fault _ _
  refine .stops (v := s.raise .malformed (BitVec.ofNat 32 s.rpos))
    ⟨⟨0, s, .none s, exec_dstep hf hp hs, Nat.zero_le _⟩, fun hw => ?_, fun hclear => ?_, by simp⟩ (by simp)
    fun k n => ?_
  · exact absurd (hfault.symm.trans hw.1) (by decide)
  · exact absurd (hfault.symm.trans hclear) (by decide)
  · rw [runSteps_of_malformed hs, drunAnswer, if_pos hfault]; rfl

/-- In a state of the invariant the loop follows DSTEP: neither stops on a read of the model's (R184, R185). -/
theorem Inv.loopFollows {s : State} (h : Inv s) (hf : s.fault = false) (hp : s.phase ≠ .load) : LoopFollows s := by
  obtain ⟨r, t, hs, _⟩ := h.decodeStep_exists
  rcases decodeStep_cases hs with ⟨rfl, rfl⟩ | ⟨rfl, rfl, hend⟩ | ⟨hbit, ⟨rfl, c, rfl⟩ | ⟨x, c, rfl, rfl⟩⟩
  · exact .of_malformed hf hp hs
  · exact .of_finished hf hp hs (t.dend_iff.2 hend)
  · refine .goesOn ⟨exec_dstep hf hp hs, wentOn_ok hf rfl, rfl, hbit, rfl, rfl, le_rfl⟩ fun k n => ?_
    simp [runSteps_of_quiet hs, runSteps_ok]
  · refine .goesOn ⟨exec_dstep hf hp hs, wentOn_ok hf (by simp), rfl, hbit, rfl, rfl, by simp⟩ fun k n => ?_
    simp [runSteps_of_emitted hs, runSteps_ok]

/-- With a call of Step for each bit left and one more, DRUN's loop ends as the DSTEPs do (R185, R271). -/
theorem Inv.runSteps_dstepsEnd {s : State} (h : Inv s) (hf : s.fault = false) (hp : s.phase ≠ .load) {k : Nat}
    (hk : s.bitlen - s.rpos < k) (n : Nat) : ∃ v, DstepsEnd s v ∧
      Machine.runSteps k n s = .next (drunAnswer (n + (v.out.length - s.out.length)) v) := by
  induction k generalizing n s with
  | zero => omega
  | succ k ih =>
    cases h.loopFollows hf hp with
    | stops hend hout hloop => exact ⟨_, hend, by rw [hloop, hout, Nat.sub_self, Nat.add_zero]⟩
    | @goesOn t hgo hloop =>
      obtain ⟨hstep, hwent, hphase, hbit, hbitlen, hrpos, hgrows⟩ := id hgo
      obtain ⟨v, hend, hrun⟩ := ih (h.exec .dstep t hstep) hwent.1 (hphase ▸ hp) (by omega)
        (n + (t.out.length - s.out.length))
      have hcount : n + (t.out.length - s.out.length) + (v.out.length - t.out.length) =
          n + (v.out.length - s.out.length) := by
        have hgrows' := hend.grows
        omega
      exact ⟨v, hgo.dstepsEnd hend, by rw [hloop, hrun, hcount]⟩

theorem State.status_dend_iff (s : State) : s.status.getLsbD 6 = true ↔ s.dend = true := by
  obtain ⟨_, _, _, _, hbit, _⟩ := statusCollectsTheFlags s
  exact hbit.trans s.dend_iff.symm

/-- Settles O47: DRUN's loop ends as the DSTEPs do, and where the last of them is `END`, `DEND` is set. -/
theorem drunIsDstepUntilTheEnd : Obligations.DrunIsDstepUntilTheEnd := by
  refine ⟨by decide, fun s h hf => ⟨fun hload => ?_, fun hp => ?_⟩⟩
  · exact exec_of_wrongPhase_of_clear hf rfl (by simp [phaseLegal, hload])
  · obtain ⟨v, hend, hrun⟩ := h.runSteps_dstepsEnd hf hp (Nat.lt_succ_self _) 0
    obtain ⟨k, u, hsteps, hu, hk⟩ := hend.steps
    rw [exec_drun hf hp, hrun, Nat.zero_add]
    refine ⟨k, u, v, hsteps, hu, hend.stops, hk, fun hv => ?_, fun hv => ⟨?_, ?_⟩⟩
    · rw [drunAnswer, if_pos hv]
    · exact v.status_dend_iff.2 (hend.ended hv)
    · rw [drunAnswer, if_neg (by simp [hv])]
      rfl

/-! ### The payload of an encoder -/

/-- At the end of the text the cursor is on the root (R189). -/
theorem EncodedText.cur_at_end {s : State} {done : List Symbol} {path : List Bool}
    (ht : EncodedText s done [] path) : path = [] ∧ s.cur = s.root := by
  obtain ⟨_, _, _, _, _, hcur | ⟨_, _, _, _, hrest, _⟩⟩ := ht
  · exact hcur
  · cases hrest

/-- At the end of the text all of it is given out and every bit is consumed (R189). -/
theorem EncodedText.at_end {s : State} {done : List Symbol} (ht : EncodedText s done [] []) :
    s.out = done ∧ s.rpos = s.bitlen ∧ s.cur = s.root := by
  obtain ⟨_, hcur⟩ := ht.cur_at_end
  obtain ⟨_, _, ⟨hlen, _⟩, hout, hrpos, _⟩ := ht
  exact ⟨hout, by rw [hrpos, hlen, List.append_nil, List.length_nil, Nat.add_zero], hcur⟩

/-- In the encoding of a text DRUN's loop emits what is left of it (R189). -/
theorem EncodedText.runSteps {s : State} (h : Inv s) {done rest : List Symbol} {path : List Bool}
    (ht : EncodedText s done rest path) {k : Nat} (hk : s.bitlen - s.rpos < k) (n : Nat) :
    ∃ u, Machine.runSteps k n s = Machine.done u (BitVec.ofNat 32 (n + rest.length)) ∧
      EncodedText u (done ++ rest) [] [] ∧ u = { s with rpos := u.rpos, cur := u.cur, out := u.out } := by
  induction k generalizing n s done rest path with
  | zero => omega
  | succ k ih =>
    cases rest with
    | nil =>
      obtain ⟨rfl, _⟩ := ht.cur_at_end
      exact ⟨s, runSteps_of_finished ht.decodeStep_nil k n, by simpa using ht, rfl⟩
    | cons x more =>
      cases ht.decodeStep_cons h with
      | @emitted u hstep hu =>
        obtain ⟨hbit, c, hframe⟩ : s.rpos < s.bitlen ∧
            ∃ c, u = { s with rpos := s.rpos + 1, cur := c, out := s.out ++ [x] } := by
          simpa using decodeStep_cases hstep
        obtain ⟨v, hrun, hv, hframe'⟩ := ih (h.decodeStep hstep) hu (by rw [hframe]; simp; omega) (n + 1)
        refine ⟨v, ?_, ?_, ?_⟩
        · rw [runSteps_of_emitted hstep, hrun, List.length_cons, Nat.add_right_comm, Nat.add_assoc]
        · simpa using hv
        · rw [hframe', hframe]
      | @moved u _ hstep hu =>
        obtain ⟨hbit, c, hframe⟩ : s.rpos < s.bitlen ∧ ∃ c, u = { s with rpos := s.rpos + 1, cur := c } := by
          simpa using decodeStep_cases hstep
        obtain ⟨v, hrun, hv, hframe'⟩ := ih (h.decodeStep hstep) hu (by rw [hframe]; simp; omega) n
        exact ⟨v, (runSteps_of_quiet hstep k n).trans hrun, hv, by rw [hframe', hframe]⟩

/-- In the encoding of a text a Step does not fault (R189). -/
theorem EncodedText.decodeStep_exists {s : State} (h : Inv s) {done rest : List Symbol} {path : List Bool}
    (ht : EncodedText s done rest path) : ∃ r t, decodeStep s = .ok (r, t) ∧ r ≠ .malformed := by
  cases rest with
  | nil => exact ⟨_, _, ht.decodeStep_nil, nofun⟩
  | cons x more =>
    cases ht.decodeStep_cons h with
    | emitted hstep | moved hstep => exact ⟨_, _, hstep, nofun⟩

/-- Settles O50: at each Step the text is the one encoded, with one Symbol more given out or one bit more of the
next one read. -/
theorem encodedPayloadDecodes : Obligations.EncodedPayloadDecodes := by
  intro s done rest path h hf hm ht
  have hp : s.phase ≠ .load := by
    obtain ⟨hcoded, _⟩ := h.payload.encoded hm
    simp [hcoded]
  obtain ⟨r, t, hs, hr⟩ := ht.decodeStep_exists h
  obtain ⟨u, hrun, hu, hframe⟩ := ht.runSteps h (Nat.lt_succ_self _) 0
  obtain ⟨v, hv⟩ := answerStep_exists r t
  refine ⟨⟨v, (exec_dstep hf hp hs).trans hv, ?_⟩, ?_⟩
  · exact eq_false_of_ne_true fun hfault => hr ((fault_answerStep hf hs hv).1.1 hfault)
  · obtain ⟨hout, hrpos, hcur⟩ := hu.at_end
    have hdend := (u.ok (BitVec.ofNat 32 rest.length)).dend_iff.2 ⟨hrpos.ge, .inr hcur⟩
    rw [exec_drun hf hp, hrun, Nat.zero_add]
    rw [hframe] at hrpos hcur
    exact ⟨_, rfl, hout, hrpos, hcur, by rw [hframe]; exact hf, (State.status_dend_iff _).2 hdend, rfl,
      by rw [hframe]; rfl⟩

end Sys2Proof.Machine
end

section
/-! A payload that is cut short is detected (45_properties.md R206): without a tree at its first bit, with one at the
first bit of the byte that is missing. -/

namespace Sys2Proof.Machine

/-- DRUN's loop reads the bytes there are and faults at the first bit of the byte that is missing (R184, R206). -/
theorem Inv.runSteps_of_truncated {s : State} (h : Inv s) (hv : s.rootv = true) (hcut : 8 * s.pbytes < s.bitlen)
    (hpos : s.rpos ≤ 8 * s.pbytes) {k : Nat} (hk : s.bitlen - s.rpos < k) (n : Nat) :
    ∃ u, Machine.runSteps k n s = Machine.raiseMalformed u ∧ u.rpos = 8 * s.pbytes ∧ u.fault = s.fault := by
  induction k generalizing n s with
  | zero => omega
  | succ k ih =>
    rcases Nat.eq_or_lt_of_le hpos with hpos | hpos
    · exact ⟨s, runSteps_of_malformed (decodeStep_of_missing (by omega) (.inr (by omega))) k n, hpos, rfl⟩
    · obtain ⟨r, t, hs, hr⟩ := h.decodeStep_of_byte (by omega) hv (by omega)
      have ht := h.decodeStep hs
      rcases decodeStep_cases hs with ⟨rfl, _⟩ | ⟨_, _, hend, _⟩ | ⟨_, ⟨rfl, c, rfl⟩ | ⟨x, c, rfl, rfl⟩⟩
      · exact absurd rfl hr
      · omega
      · rw [runSteps_of_quiet hs]
        exact ih ht hv hcut hpos (by simp only; omega) n
      · rw [runSteps_of_emitted hs]
        exact ih ht hv hcut hpos (by simp only; omega) (n + 1)

/-- Settles O51: with a tree the loop stops at the missing byte, without one at the first bit. -/
theorem truncationIsDetected : Obligations.TruncationIsDetected := by
  intro s h hf hp hcut hpos
  by_cases hv : s.rootv = true
  · obtain ⟨u, hrun, hrpos, hfault⟩ := h.runSteps_of_truncated hv hcut hpos (Nat.lt_succ_self _) 0
    obtain ⟨t, ht, hraised⟩ := raised_of_clear (hfault.trans hf) .malformed (BitVec.ofNat 32 u.rpos)
    refine ⟨t, (exec_drun hf hp).trans (hrun.trans ht), ?_⟩
    rw [hraised]
    exact ⟨rfl, rfl, fun _ => ⟨hrpos, congrArg (BitVec.ofNat 32) hrpos⟩⟩
  · obtain ⟨_, hdrun⟩ := withoutATreeNothingDecodes s h hf hp (eq_false_of_ne_true hv)
    obtain ⟨t, _, ht, hraised⟩ := hdrun (by omega)
    exact ⟨t, ht, by rw [hraised], by rw [hraised], fun hroot => absurd hroot hv⟩

end Sys2Proof.Machine
end

section
/-! BUILD and DERIVE on a table (45_properties.md R202, R208): the greedy choices fix the tree, heavier nodes are
joined later and so lie no deeper, and the codes are the paths of the leaves. -/

namespace Sys2Proof.Config

theorem toNat_ofNat_symbol (c : Config) {x : Nat} (hx : x < c.nsym) : (BitVec.ofNat 16 x).toNat = x := by
  obtain ⟨_, hmax⟩ := c.nsym_bounds
  exact Nat.mod_eq_of_lt (hx.trans_le hmax)

theorem nsym_eq_of_symw_eq {c c' : Config} (h : c'.symw = c.symw) : c'.nsym = c.nsym := by
  rw [nsym, h, nsym]

end Sys2Proof.Config

namespace Sys2Proof.Machine

/-! ### The two nodes that an internal node joins -/

theorem KeyLess.key_lt {s : State} {i j : Nat} (h : KeyLess s i j) : s.key i < s.key j := by
  obtain ⟨ni, nj, hi, hj, hlt⟩ := h
  rwa [State.key_lt_iff, State.weightAt_of_nodeAt hi, State.weightAt_of_nodeAt hj]

theorem State.key_le_iff {s : State} {i j : Nat} :
    s.key i ≤ s.key j ↔ s.weightAt i < s.weightAt j ∨ s.weightAt i = s.weightAt j ∧ i ≤ j :=
  Prod.Lex.toLex_le_toLex

/-- Node `k` joins the two nodes of least key among those without a parent when it is made (R122, R123). -/
structure JoinsLeast (s : State) (k l r : Nat) : Prop where
  node : s.nodeAt k = some (mergedNode l r (s.weightAt l) (s.weightAt r))
  left : LiveAt s k l
  right : LiveAt s k r
  less : s.key l < s.key r
  rest : ∀ j, LiveAt s k j → j ≠ l → j ≠ r → s.key r < s.key j

/-- In a greedy tree every internal node does (R125). -/
theorem GreedyTree.joinsLeast {s : State} (hg : GreedyTree s) (ht : TreeFacts s) {k : Nat} (hleaf : s.nleaf ≤ k)
    (hk : k < s.nnodes) : ∃ l r, JoinsLeast s k l r := by
  obtain ⟨n, hn, hl, hr, hless, hrest⟩ := hg k hleaf hk
  obtain ⟨l, r, nl, nr, hnl, hnr, _, _, _, hnode⟩ := ht.internal k hleaf hk
  cases hn.symm.trans hnode
  rw [← State.weightAt_of_nodeAt hnl, ← State.weightAt_of_nodeAt hnr] at hnode
  exact ⟨l, r, hnode, hl, hr, hless.key_lt, fun j hj hjl hjr => (hrest j hj hjl hjr).key_lt⟩

namespace JoinsLeast

variable {s : State} {k l r : Nat} (h : JoinsLeast s k l r)
include h

theorem childOf_iff {i : Nat} : ChildOf s i k ↔ i = l ∨ i = r := by
  have hchild : ChildOf s i k ↔ l = i ∨ r = i := by simp [ChildOf, h.node, mergedNode, Node.kind]
  rw [hchild, eq_comm, @eq_comm _ r]

theorem weightAt_eq : s.weightAt k = s.weightAt l + s.weightAt r := State.weightAt_of_nodeAt h.node

theorem left_le {j : Nat} (hj : LiveAt s k j) : s.key l ≤ s.key j := by
  by_cases hjl : j = l
  · rw [hjl]
  by_cases hjr : j = r
  · exact hjr ▸ h.less.le
  · exact h.less.le.trans (h.rest j hj hjl hjr).le

theorem right_le {j : Nat} (hj : LiveAt s k j) (hjl : j ≠ l) : s.key r ≤ s.key j := by
  by_cases hjr : j = r
  · rw [hjr]
  · exact (h.rest j hj hjl hjr).le

theorem liveAt_child {i : Nat} (hi : ChildOf s i k) : LiveAt s k i := by
  rcases h.childOf_iff.1 hi with rfl | rfl
  · exact h.left
  · exact h.right

theorem child_le_right {i : Nat} (hi : ChildOf s i k) : s.key i ≤ s.key r := by
  rcases h.childOf_iff.1 hi with rfl | rfl
  · exact h.less.le
  · exact le_rfl

/-- A node's key is below its parent's: it is older and weighs no more. -/
theorem child_lt {i : Nat} (hi : ChildOf s i k) : s.key i < s.key k := by
  obtain ⟨hik, _⟩ := h.liveAt_child hi
  have hw := h.weightAt_eq
  rw [State.key_lt_iff]
  rcases h.childOf_iff.1 hi with rfl | rfl <;> omega

/-- A node left over by the merge that makes `k` weighs no less than either node joined in it. -/
theorem weightAt_le_of_left_over {j : Nat} (hj : LiveAt s (k + 1) j) (hjk : j ≠ k) :
    s.weightAt l ≤ s.weightAt r ∧ s.weightAt r ≤ s.weightAt j := by
  obtain ⟨hlt, hfree⟩ := hj
  have hchild : ¬ (j = l ∨ j = r) := fun hc => hfree k (Nat.lt_succ_self k) (h.childOf_iff.2 hc)
  rw [not_or] at hchild
  have hlive : LiveAt s k j := ⟨by omega, fun k' hk' => hfree k' (hk'.trans (Nat.lt_succ_self k))⟩
  have hrj := State.key_lt_iff.1 (h.rest j hlive hchild.1 hchild.2)
  have hlr := State.key_lt_iff.1 h.less
  omega

end JoinsLeast

/-! ### Heavier nodes lie no deeper -/

/-- The last step of a path comes from the node's parent (R141). -/
theorem PathTo.parent {s : State} {i : Nat} {p : List Bool} {b : Bool} (h : PathTo s i (p ++ [b])) :
    ∃ k, PathTo s k p ∧ ChildOf s i k := by
  obtain ⟨k, n, hk, hn, hi, rfl⟩ := h.of_concat
  exact ⟨k, hk, n, hn, hi, by cases b <;> simp⟩

section Greedy

variable {s : State} (ht : TreeFacts s) (hg : GreedyTree s)
include ht hg

/-- A merge makes a node that weighs no less than the one before it: what it joins was left over by that one, or
is that one. -/
theorem weightAt_le_succ {k : Nat} (hleaf : s.nleaf ≤ k) (hk : k + 1 < s.nnodes) :
    s.weightAt k ≤ s.weightAt (k + 1) := by
  obtain ⟨l, r, h⟩ := hg.joinsLeast ht hleaf (by omega)
  obtain ⟨l', r', h'⟩ := hg.joinsLeast ht (by omega) hk
  have hw := h.weightAt_eq
  have hw' := h'.weightAt_eq
  by_cases hl : l' = k
  · rw [hl] at hw'; omega
  by_cases hr : r' = k
  · rw [hr] at hw'; omega
  have := h.weightAt_le_of_left_over h'.left hl
  have := h.weightAt_le_of_left_over h'.right hr
  omega

/-- The keys of the internal nodes rise with their ids. -/
theorem key_le_of_internal {k m : Nat} (hleaf : s.nleaf ≤ k) (hkm : k ≤ m) (hm : m < s.nnodes) :
    s.key k ≤ s.key m := by
  have hw : s.weightAt k ≤ s.weightAt m := by
    induction m, hkm using Nat.le_induction with
    | base => exact le_rfl
    | succ m hkm ih => exact (ih (by omega)).trans (weightAt_le_succ ht hg (by omega) hm)
  rw [State.key_le_iff]
  omega

/-- A parent is an internal node, so it joins two nodes of least key. -/
theorem joinsLeast_of_childOf {i k : Nat} (hk : k < s.nnodes) (hi : ChildOf s i k) :
    s.nleaf ≤ k ∧ ∃ l r, JoinsLeast s k l r := by
  obtain ⟨n, hn, hint, _⟩ := hi
  obtain ⟨hleaf, _⟩ := ht.of_internal hk hn hint
  exact ⟨hleaf, hg.joinsLeast ht hleaf hk⟩

/-- The node of lesser key is joined no later: as long as it is not joined, no node of greater key is. -/
theorem parent_le_of_key_le {i j k m : Nat} (hk : k < s.nnodes) (hm : m < s.nnodes) (hi : ChildOf s i k)
    (hj : ChildOf s j m) (hij : s.key i ≤ s.key j) : k ≤ m := by
  by_contra hlt
  obtain ⟨_, _, _, hkj⟩ := joinsLeast_of_childOf ht hg hk hi
  obtain ⟨hleaf, l, r, hmj⟩ := joinsLeast_of_childOf ht hg hm hj
  obtain ⟨hik, hfree⟩ := hkj.liveAt_child hi
  refine hij.not_gt ?_
  by_cases him : i < m
  · have hchild := hfree m (by omega)
    rw [hmj.childOf_iff, not_or] at hchild
    exact (hmj.child_le_right hj).trans_lt
      (hmj.rest i ⟨him, fun k' hk' => hfree k' (by omega)⟩ hchild.1 hchild.2)
  · exact (hmj.child_lt hj).trans_le (key_le_of_internal ht hg hleaf (by omega) (by omega))

/-- A node of lesser key has a path that is no shorter: so has its parent, by the parents' keys. -/
theorem path_length_le_of_key_le {i j : Nat} {p q : List Bool} (hp : PathTo s i p) (hq : PathTo s j q)
    (hij : s.key i ≤ s.key j) : q.length ≤ p.length := by
  induction q using List.reverseRecOn generalizing i j p with
  | nil => exact Nat.zero_le _
  | append_singleton q b ih =>
    obtain ⟨m, hqm, hjm⟩ := hq.parent
    obtain ⟨hm, hmroot⟩ := ht.path_id_le hqm
    obtain ⟨hleaf, _, _, hjoin⟩ := joinsLeast_of_childOf ht hg hm hjm
    cases p using List.reverseRecOn with
    | nil =>
      obtain ⟨hroot, _⟩ := ht.path_id_le hp
      cases hp.of_nil
      have hle := key_le_of_internal ht hg hleaf (Nat.le_of_add_right_le hmroot) hroot
      exact absurd hij ((hjoin.child_lt hjm).trans_le hle).not_ge
    | append_singleton p b' =>
      obtain ⟨k, hpk, hik⟩ := hp.parent
      obtain ⟨hk, _⟩ := ht.path_id_le hpk
      obtain ⟨hleafk, _⟩ := joinsLeast_of_childOf ht hg hk hik
      have hle := key_le_of_internal ht hg hleafk (parent_le_of_key_le ht hg hk hm hik hjm hij) hm
      simpa using ih hpk hqm hle

end Greedy

/-! ### BUILD and DERIVE -/

/-- BUILD leads from `s` to `t` and has made the greedy tree of its table (R125, R128). -/
structure Built (s t : State) : Prop where
  step : exec .build s = .next t
  tree : TreeFacts t
  greedy : GreedyTree t
  cur : t.cur = t.root
  frame : t = { s with node := t.node, nleaf := t.nleaf, nnodes := t.nnodes, rootv := t.rootv, root := t.root, cur := t.cur, phase := .built, resp := t.resp }

theorem built_exists {s : State} (hf : s.fault = false) (hload : s.phase = .load) : ∃ t, Built s t := by
  obtain ⟨hbuild, _⟩ := buildMakesTheTree.2 s hf
  obtain ⟨t, hstep, htree, hcur, hphase, _, hframe⟩ := hbuild hload
  obtain ⟨t', hstep', hgreedy⟩ := buildIsGreedy s hf hload
  cases hstep.symm.trans hstep'
  exact ⟨t, hstep, htree, hgreedy, hcur, hphase ▸ hframe⟩

/-- DERIVE leads from `t` to `u` and has written the codes of the tree (R142). -/
structure Derived (t u : State) : Prop where
  step : exec .derive t = .next u
  codes : CodeFacts { t with code := u.code }
  frame : u = { t with code := u.code, phase := .coded, resp := u.resp }

theorem Built.derived_exists {s t : State} (h : Built s t) (hf : s.fault = false) : ∃ u, Derived t u := by
  obtain ⟨hderive, _⟩ := deriveWritesTheCodes.2 t (by rw [h.frame]; exact hf)
  obtain ⟨u, hstep, hcodes, hframe, _⟩ := hderive (by rw [h.frame]) h.tree
  exact ⟨u, hstep, hcodes.congr (by rw [hframe]), by rw [hframe]⟩

/-! ### Code lengths -/

/-- A leaf is the one of its symbol: its id is the symbol's place among those with a count, its weight the count
(R128, item 2). -/
theorem TreeFacts.leaf_symbol {s : State} (h : TreeFacts s) {i : Nat} {n : Node} (hi : i < s.nnodes)
    (hn : s.nodeAt i = some n) (hl : n.kind = .leaf) :
    s.present[i]? = some n.sym.toNat ∧ n.w = (s.count n.sym.toNat).toNat := by
  have hleaf : i < s.present.length := by
    by_contra hlt
    rw [h.kind_eq hi hn, if_neg (by rwa [h.leaves])] at hl
    cases hl
  have hsym : (BitVec.ofNat 16 s.present[i]).toNat = s.present[i] := by
    obtain ⟨hlt, _⟩ := State.mem_present.1 (List.getElem_mem hleaf)
    exact s.cfg.toNat_ofNat_symbol hlt
  cases hn.symm.trans (h.leaf i hleaf)
  exact ⟨(List.getElem?_eq_getElem hleaf).trans (congrArg some hsym.symm), by simp only [hsym]⟩

/-- The code of a symbol with a count is, with two leaves or more, the path of the symbol's leaf, which weighs the
count (R142). -/
theorem Derived.leaf_path {t u : State} (h : Derived t u) (ht : TreeFacts t) (htwo : 2 ≤ t.nleaf) {x : Nat}
    (hx : x ∈ t.present) : ∃ i p e, PathTo t i p ∧ t.present[i]? = some x ∧ t.weightAt i = (t.count x).toNat ∧
      u.codeAt x = some e ∧ EntryOfPath e p := by
  obtain ⟨hrange, hc⟩ := State.mem_present.1 hx
  obtain ⟨i, n, p, e, hn, hl, rfl, hp, he, hentry⟩ := h.codes.path x hrange hc htwo
  have hp : PathTo t i p := hp.congr_tree rfl
  have hn : t.nodeAt i = some n := hn
  obtain ⟨hsym, hw⟩ := ht.leaf_symbol (ht.path_id_le hp).1 hn hl
  exact ⟨i, p, e, hp, hsym, (State.weightAt_of_nodeAt hn).trans hw, he, hentry⟩

/-- Settles O38: the leaf of the greater count has the greater key, so its path is no longer. -/
theorem moreFrequentSymbolsHaveNoLongerCodes : Obligations.MoreFrequentSymbolsHaveNoLongerCodes := by
  intro s hf hload
  obtain ⟨t, hbuilt⟩ := built_exists hf hload
  obtain ⟨u, hderived⟩ := hbuilt.derived_exists hf
  have hcfg : t.cfg = s.cfg := by rw [hbuilt.frame]
  have hcount : ∀ z, t.count z = s.count z := fun z => by rw [hbuilt.frame]; rfl
  refine ⟨t, u, hbuilt.step, hderived.step, fun x y ex ey hx hy hlt hpos hex hey => ?_⟩
  rw [← hcount] at hpos
  rw [← hcount, ← hcount] at hlt
  rw [← hcfg] at hx hy
  have hpresent : ∀ {z}, z < t.cfg.nsym → 0 < (t.count z).toNat → z ∈ t.present := fun hz hc =>
    State.mem_present.2 ⟨hz, fun h0 => by simp [h0] at hc⟩
  have hxp := hpresent hx (by omega)
  have hyp := hpresent hy hpos
  have htwo := hbuilt.tree.two_le_nleaf (by rintro rfl; omega) hxp hyp
  obtain ⟨i, p, e, hp, _, hwx, he, _, hlenx, _⟩ := hderived.leaf_path hbuilt.tree htwo hxp
  obtain ⟨j, q, e', hq, _, hwy, he', _, hleny, _⟩ := hderived.leaf_path hbuilt.tree htwo hyp
  cases hex.symm.trans he
  cases hey.symm.trans he'
  rw [hlenx, hleny]
  exact path_length_le_of_key_le hbuilt.tree hbuilt.greedy hq hp (State.key_le_iff.2 (.inl (by omega)))

/-! ### The tree depends on the table alone -/

/-- Both machines have the same symbols and the same counts (R208). -/
structure SameTable (s t : State) : Prop where
  symw : t.cfg.symw = s.cfg.symw
  count : ∀ x, x < s.cfg.nsym → t.count x = s.count x

theorem SameTable.nsym_eq {s t : State} (h : SameTable s t) : t.cfg.nsym = s.cfg.nsym :=
  Config.nsym_eq_of_symw_eq h.symw

theorem SameTable.present_eq {s t : State} (h : SameTable s t) : t.present = s.present := by
  rw [State.present, h.nsym_eq]
  exact List.filter_congr fun x hx => by rw [h.count x (List.mem_range.1 hx)]

theorem SameTable.counters_eq {s t : State} (h : SameTable s t) (hs : TreeFacts s) (ht : TreeFacts t) :
    t.nleaf = s.nleaf ∧ t.nnodes = s.nnodes := by
  have hnleaf : t.nleaf = s.nleaf := by rw [ht.leaves, h.present_eq, hs.leaves]
  exact ⟨hnleaf, by rw [ht.nodes, hnleaf, hs.nodes]⟩

/-- Both machines have the same tree (R208). -/
structure SameTree (s t : State) : Prop where
  nleaf : t.nleaf = s.nleaf
  nnodes : t.nnodes = s.nnodes
  rootv : t.rootv = s.rootv
  root : t.root = s.root
  node : ∀ i, i < s.nnodes → t.nodeAt i = s.nodeAt i

theorem key_eq_of_nodeAt_eq {s t : State} {i : Nat} (h : t.nodeAt i = s.nodeAt i) : t.key i = s.key i := by
  simp only [State.key, State.weightAt, h]

/-- Which nodes have no parent yet depends on the older nodes alone. -/
theorem liveAt_iff_of_nodeAt_eq {s t : State} {k i : Nat} (h : ∀ j, j < k → t.nodeAt j = s.nodeAt j) :
    LiveAt t k i ↔ LiveAt s k i :=
  and_congr_right fun _ => forall₂_congr fun j hj => by simp only [ChildOf, h j hj]

/-- With the older nodes the same, the two nodes of least key are the same. -/
theorem JoinsLeast.unique {s t : State} {k l r l' r' : Nat} (h : JoinsLeast s k l r) (h' : JoinsLeast t k l' r')
    (hold : ∀ i, i < k → t.nodeAt i = s.nodeAt i) : l' = l ∧ r' = r := by
  have hkey : ∀ {i}, LiveAt s k i → t.key i = s.key i := fun hi => key_eq_of_nodeAt_eq (hold _ hi.1)
  have hlive : ∀ {i}, LiveAt t k i ↔ LiveAt s k i := liveAt_iff_of_nodeAt_eq hold
  have hl' := hlive.1 h'.left
  have hr' := hlive.1 h'.right
  have hl : l' = l := by
    refine s.key_injective (le_antisymm ?_ (h.left_le hl'))
    rw [← hkey hl', ← hkey h.left]
    exact h'.left_le (hlive.2 h.left)
  subst hl
  refine ⟨rfl, s.key_injective (le_antisymm ?_ (h.right_le hr' ?_))⟩
  · rw [← hkey hr', ← hkey h.right]
    exact h'.right_le (hlive.2 h.right) fun he => h.less.ne (congrArg s.key he.symm)
  · exact fun he => h'.less.ne (congrArg t.key he.symm)

/-- The leaves are the table, and the greedy choices fix every other node (R205, R208). -/
theorem SameTable.nodeAt_eq {s t : State} (h : SameTable s t) (hs : TreeFacts s) (ht : TreeFacts t)
    (hsg : GreedyTree s) (htg : GreedyTree t) : ∀ i, i < s.nnodes → t.nodeAt i = s.nodeAt i := by
  obtain ⟨hnleaf, hnnodes⟩ := h.counters_eq hs ht
  intro i
  induction i using Nat.strong_induction_on with
  | _ i ih =>
    intro hi
    by_cases hleaf : i < s.nleaf
    · have hip : i < s.present.length := hs.leaves ▸ hleaf
      obtain ⟨hrange, _⟩ := State.mem_present.1 (List.getElem_mem hip)
      rw [ht.leaf i (h.present_eq ▸ hip), hs.leaf i hip]
      simp only [h.present_eq, h.count _ hrange]
    · have hold : ∀ j, j < i → t.nodeAt j = s.nodeAt j := fun j hj => ih j hj (hj.trans hi)
      obtain ⟨l, r, hjoin⟩ := hsg.joinsLeast hs (Nat.le_of_not_lt hleaf) hi
      obtain ⟨l', r', hjoin'⟩ := htg.joinsLeast ht (by omega) (hnnodes ▸ hi)
      obtain ⟨rfl, rfl⟩ := hjoin.unique hjoin' hold
      rw [hjoin.node, hjoin'.node]
      simp only [State.weightAt, hold _ hjoin.left.1, hold _ hjoin.right.1]

theorem SameTable.tree {s t : State} (h : SameTable s t) (hs : TreeFacts s) (ht : TreeFacts t)
    (hsg : GreedyTree s) (htg : GreedyTree t) : SameTree s t := by
  obtain ⟨hnleaf, hnnodes⟩ := h.counters_eq hs ht
  obtain ⟨hrootv, hroot⟩ := hs.root
  obtain ⟨hrootv', hroot'⟩ := ht.root
  exact ⟨hnleaf, hnnodes, by rw [hrootv, hrootv', hnleaf], by rw [hroot, hroot', hnnodes],
    h.nodeAt_eq hs ht hsg htg⟩

/-! ### The codes depend on the table alone -/

/-- The same tree has the same paths (R141). -/
theorem SameTree.path {s t : State} (h : SameTree s t) (hs : TreeFacts s) {i : Nat} {p : List Bool}
    (hp : PathTo s i p) : PathTo t i p := by
  induction hp with
  | root hv => exact h.root ▸ .root (h.rootv.trans hv)
  | left hk hn hi ih => exact .left ih ((h.node _ (hs.path_id_le hk).1).trans hn) hi
  | right hk hn hi ih => exact .right ih ((h.node _ (hs.path_id_le hk).1).trans hn) hi

/-- A path is the path of one entry only (R87, R142). -/
theorem EntryOfPath.unique {e e' : CodeEntry} {p : List Bool} (h : EntryOfPath e p) (h' : EntryOfPath e' p) :
    e' = e := by
  obtain ⟨hv, hlen, hbit⟩ := h
  obtain ⟨hv', hlen', hbit'⟩ := h'
  have hbits : e'.bits = e.bits := Nat.eq_of_testBit_eq fun j => (hbit' j).trans (hbit j).symm
  change CodeEntry.mk e'.v e'.len e'.bits = ⟨e.v, e.len, e.bits⟩
  rw [hv, hv', hlen, hlen', hbits]

theorem State.present_nodup (s : State) : s.present.Nodup := List.nodup_range.filter _

/-- The same table and the same tree give the same codes (R208). -/
theorem SameTree.codeAt_eq {s s' t t' : State} (h : SameTree s s') (htable : SameTable s s') (hs : TreeFacts s)
    (hs' : TreeFacts s') (ht : Derived s t) (ht' : Derived s' t') {x : Nat} (hx : x < s.cfg.nsym) :
    t'.codeAt x = t.codeAt x := by
  have hx' : x < s'.cfg.nsym := htable.nsym_eq ▸ hx
  have hcount := htable.count x hx
  by_cases hc : s.count x = 0
  · exact (ht'.codes.absent x hx' (hcount.trans hc)).trans (ht.codes.absent x hx hc).symm
  have hc' : s'.count x ≠ 0 := hcount ▸ hc
  rcases Nat.eq_or_lt_of_le (hs.nleaf_pos_of_count hx hc) with hone | htwo
  · exact (ht'.codes.single x hx' hc' (h.nleaf.trans hone.symm)).trans (ht.codes.single x hx hc hone.symm).symm
  · obtain ⟨i, p, e, hp, hi, _, he, hentry⟩ := ht.leaf_path hs htwo (State.mem_present.2 ⟨hx, hc⟩)
    obtain ⟨i', p', e', hp', hi', _, he', hentry'⟩ :=
      ht'.leaf_path hs' (h.nleaf ▸ htwo) (State.mem_present.2 ⟨hx', hc'⟩)
    obtain ⟨hlt, _⟩ := List.getElem?_eq_some_iff.1 hi
    rw [htable.present_eq, ← hi] at hi'
    cases (List.getElem?_inj hlt s.present_nodup).1 hi'.symm
    cases hs'.path_unique (h.path hs hp) hp'
    exact he'.trans ((congrArg some (hentry.unique hentry')).trans he.symm)

/-- Settles O32: the greedy choices fix the tree, the paths in it the codes. -/
theorem treeAndCodesDependOnTheTableAlone : Obligations.TreeAndCodesDependOnTheTableAlone := by
  intro s s' hf hf' hload hload' hsymw hcount
  obtain ⟨t, hbuilt⟩ := built_exists hf hload
  obtain ⟨t', hbuilt'⟩ := built_exists hf' hload'
  obtain ⟨u, hderived⟩ := hbuilt.derived_exists hf
  obtain ⟨u', hderived'⟩ := hbuilt'.derived_exists hf'
  have htable : SameTable t t' := by
    rw [hbuilt.frame, hbuilt'.frame]
    exact ⟨hsymw.symm, fun x hx => (hcount x hx).symm⟩
  have hsame := htable.tree hbuilt.tree hbuilt'.tree hbuilt.greedy hbuilt'.greedy
  have hcfg : t.cfg = s.cfg := by rw [hbuilt.frame]
  refine ⟨t, t', u, u', hbuilt.step, hbuilt'.step, hderived.step, hderived'.step, hsame.nleaf.symm,
    hsame.nnodes.symm, hsame.rootv.symm, hsame.root.symm, fun i hi => (hsame.node i hi).symm, fun x hx => ?_⟩
  exact (hsame.codeAt_eq htable hbuilt.tree hbuilt'.tree hderived hderived' (hcfg ▸ hx)).symm

end Sys2Proof.Machine
end

section
/-! The host's command sequences (70_reset_and_hazards.md R252, R253): what loading a table, encoding a text and
loading a payload leave. -/

namespace Sys2Proof.Machine

/-! ### Commands one after another -/

theorem execAll_cons {i : Instr} {s t : State} (h : exec i s = .next t) (l : List Instr) :
    execAll (i :: l) s = execAll l t := by
  simp only [execAll, h]

theorem execAll_append {l : List Instr} {s t : State} (h : execAll l s = .next t) (l' : List Instr) :
    execAll (l ++ l') s = execAll l' t := by
  induction l generalizing s with
  | nil => cases h; rfl
  | cons i l ih =>
    unfold execAll at h
    split at h
    · rename_i u hu
      exact (execAll_cons hu _).trans (ih h)
    · cases h
    · cases h

theorem Inv.execAll {s : State} (h : Inv s) (l : List Instr) : Ensures Inv (execAll l s) := by
  induction l generalizing s with
  | nil => exact ensures_next h
  | cons i l ih =>
    unfold Machine.execAll
    split
    · exact ih (h.exec i _ ‹_›)
    · exact ensures_fault _
    · exact nofun

/-! ### Loading a table -/

/-- `FREQ` after one FSET per pair (R94, R103). -/
def freqSetAll (f : Table Count) (pairs : List (Symbol × Count)) : Table Count :=
  pairs.foldl (fun f p => freqSet f p.1.toNat p.2) f

theorem freqGet_freqSetAll_of_not_mem {pairs : List (Symbol × Count)} {x : Nat} (hx : ∀ p ∈ pairs, p.1.toNat ≠ x)
    (f : Table Count) : freqGet (freqSetAll f pairs) x = freqGet f x := by
  induction pairs generalizing f with
  | nil => rfl
  | cons p pairs ih =>
    obtain ⟨hp, hx⟩ := List.forall_mem_cons.1 hx
    refine (ih hx _).trans ?_
    rw [freqGet_freqSet, if_neg hp.symm]

/-- With no symbol twice among the pairs their order does not matter (R205). -/
theorem freqGet_freqSetAll_of_mem {pairs : List (Symbol × Count)} (hnd : (pairs.map Prod.fst).Nodup) {x : Symbol}
    {c : Count} (hx : (x, c) ∈ pairs) (f : Table Count) : freqGet (freqSetAll f pairs) x.toNat = c := by
  induction pairs generalizing f with
  | nil => cases hx
  | cons p pairs ih =>
    rw [List.map_cons, List.nodup_cons] at hnd
    obtain ⟨hp, hnd⟩ := hnd
    rcases List.mem_cons.1 hx with rfl | hx
    · have hlater : ∀ q ∈ pairs, q.1.toNat ≠ x.toNat := fun q hq he =>
        hp (List.mem_map.2 ⟨q, hq, BitVec.eq_of_toNat_eq he⟩)
      refine (freqGet_freqSetAll_of_not_mem hlater _).trans ?_
      rw [freqGet_freqSet, if_pos rfl]
    · exact ih hnd hx _

/-- Pairs in range are loaded one after another (R94, R103). -/
theorem execAll_ftab {pairs : List (Symbol × Count)} {s : State} (hf : s.fault = false) (hload : s.phase = .load)
    (hr : ∀ p ∈ pairs, p.1.toNat < s.cfg.nsym ∧ p.2.toNat < 2 ^ s.cfg.cw) :
    ∃ r, execAll (ftab pairs) s = .next { s with freq := freqSetAll s.freq pairs, resp := r } := by
  induction pairs generalizing s with
  | nil => exact ⟨s.resp, rfl⟩
  | cons p pairs ih =>
    obtain ⟨hp, hr⟩ := List.forall_mem_cons.1 hr
    have hset := exec_fset hf (operandsInRange_fset.2 hp) hload
    obtain ⟨r, hrest⟩ := ih (s := State.ok { s with freq := freqSet s.freq p.1.toNat p.2 } 0) hf hload hr
    exact ⟨r, (execAll_cons hset _).trans hrest⟩

/-! ### The table of a text -/

/-- The table holds the symbols of the text with their counts (R254). -/
theorem mem_tableOf {c : Config} {text : List Symbol} {x : Symbol} {n : Count} : (x, n) ∈ tableOf c text ↔
    x.toNat < c.nsym ∧ occurrences text x ≠ 0 ∧ n = BitVec.ofNat 32 (occurrences text x) := by
  simp only [tableOf, List.mem_filterMap, List.mem_map, List.mem_range]
  constructor
  · rintro ⟨_, ⟨k, hk, rfl⟩, hpair⟩
    split_ifs at hpair with hocc
    cases hpair
    exact ⟨by rwa [c.toNat_ofNat_symbol hk], hocc, rfl⟩
  · rintro ⟨hx, hocc, rfl⟩
    exact ⟨x, ⟨x.toNat, hx, BitVec.ofNat_toNat .. ▸ rfl⟩, if_neg hocc⟩

theorem tableOf_keys_nodup (c : Config) (text : List Symbol) : ((tableOf c text).map Prod.fst).Nodup := by
  rw [List.Nodup, List.pairwise_map, tableOf, List.pairwise_filterMap, List.pairwise_map]
  refine List.pairwise_lt_range.imp_of_mem fun {x y} hx hy hlt p hp q hq heq => ?_
  simp only [Option.ite_none_left_eq_some, Option.some.injEq] at hp hq
  obtain ⟨_, rfl⟩ := hp
  obtain ⟨_, rfl⟩ := hq
  have hxy := congrArg BitVec.toNat heq
  rw [c.toNat_ofNat_symbol (List.mem_range.1 hx), c.toNat_ofNat_symbol (List.mem_range.1 hy)] at hxy
  exact hlt.ne hxy

/-- The machine with parameters `c` after reset and one FSET for each symbol of the text (R252, R253). -/
structure Loaded (c : Config) (text : List Symbol) (s : State) : Prop where
  inv : Inv s
  frame : s = { State.fresh c with freq := s.freq, resp := s.resp }
  count : ∀ x, x < c.nsym → s.count x = BitVec.ofNat 32 (occurrences text (BitVec.ofNat 16 x))

/-- The table of a text loads in any order when its counts fit (R200, R205). -/
theorem loaded_exists {c : Config} {text : List Symbol} {table : List (Symbol × Count)} (hc : c.Legal)
    (htable : table.Perm (tableOf c text)) (hfit : ∀ x ∈ text, occurrences text x < 2 ^ c.cw) :
    ∃ s, execAll (ftab table) (State.fresh c) = .next s ∧ Loaded c text s := by
  have hmem : ∀ {x n}, (x, n) ∈ table ↔ _ := fun {x n} => (htable.mem_iff (a := (x, n))).trans mem_tableOf
  have hnd : (table.map Prod.fst).Nodup := (htable.map _).nodup_iff.2 (tableOf_keys_nodup c text)
  have hrange : ∀ p ∈ table, p.1.toNat < c.nsym ∧ p.2.toNat < 2 ^ c.cw := by
    rintro ⟨x, n⟩ hp
    obtain ⟨hx, hocc, rfl⟩ := hmem.1 hp
    exact ⟨hx, (Nat.mod_le _ _).trans_lt (hfit x (List.count_pos_iff.1 (Nat.pos_of_ne_zero hocc)))⟩
  obtain ⟨r, hload⟩ := execAll_ftab (s := State.fresh c) rfl rfl hrange
  refine ⟨_, hload, (inv_fresh hc).execAll _ _ hload, rfl, fun x hx => ?_⟩
  have hsym := c.toNat_ofNat_symbol hx
  by_cases hocc : occurrences text (BitVec.ofNat 16 x) = 0
  · rw [hocc]
    refine freqGet_freqSetAll_of_not_mem (fun p hp he => ?_) _
    obtain ⟨_, hne, _⟩ := hmem.1 hp
    exact hne (by rwa [← he, BitVec.ofNat_toNat, BitVec.setWidth_eq] at hocc)
  · have hcount := freqGet_freqSetAll_of_mem hnd (hmem.2 ⟨hsym.symm ▸ hx, hocc, rfl⟩) (State.fresh c).freq
    rwa [hsym] at hcount

/-- Every symbol of the text has a count. -/
theorem Loaded.count_ne_zero {c : Config} {text : List Symbol} {s : State} (h : Loaded c text s)
    (hfit : ∀ x ∈ text, occurrences text x < 2 ^ c.cw) {x : Symbol} (hx : x ∈ text) (hrange : x.toNat < c.nsym) :
    s.count x.toNat ≠ 0 := by
  have hlegal := h.inv.legal
  rw [h.frame] at hlegal
  obtain ⟨_, hcw, _⟩ := hlegal
  have hpos : 0 < occurrences text x := List.count_pos_iff.2 hx
  have hlt := (hfit x hx).trans_le (Nat.pow_le_pow_right two_pos hcw)
  rw [h.count _ hrange, BitVec.ofNat_toNat, BitVec.setWidth_eq]
  intro hzero
  have hnat := congrArg BitVec.toNat hzero
  rw [BitVec.toNat_ofNat, Nat.mod_eq_of_lt hlt] at hnat
  exact hpos.ne' hnat

/-! ### Encoding a text -/

/-- ENC of a symbol with a code, where there is room for it, makes the text longer by it (R160, R161). -/
theorem EncodedText.exec_enc {s : State} (h : Inv s) (hf : s.fault = false) {done rest : List Symbol}
    {path : List Bool} (ht : EncodedText s done rest path) {x : Symbol} (hx : s.HasCode x)
    (hfits : s.bitlen + (s.codeBits x).length ≤ 8 * s.cfg.pcap) :
    ∃ t, exec (.enc x) s = .next t ∧ EncodedText t done (rest ++ [x]) path ∧
      t = { s with pay := t.pay, bitlen := s.bitlen + (s.codeBits x).length, pbytes := t.pbytes, pmode := .enc, resp := t.resp } := by
  obtain ⟨hcoded, _, _, hrange, _⟩ := h.of_hasCode hx
  obtain ⟨e, he, hv⟩ := id hx
  obtain ⟨t, hput, happ⟩ := (h.payTight ht.1).putCode_appends_code he
  obtain ⟨pay, bitlen, pbytes, rfl⟩ : ∃ pay bitlen pbytes, t = { s with pay, bitlen, pbytes } :=
    ⟨_, _, _, putCode_frame hput⟩
  obtain rfl : bitlen = _ := happ.bitlen
  have hlen : (s.codeBits x).length = e.len := by simp [State.codeBits_of_codeAt he]
  refine ⟨State.ok { s with pay, bitlen := s.bitlen + (s.codeBits x).length, pbytes, pmode := .enc } (BitVec.ofNat 32 e.len),
    ?_, (ht.append hx happ).congr rfl, rfl⟩
  rw [exec_enc_of_legal hf (operandsInRange_enc.2 hrange) hcoded ht.1 he, if_neg (by simp [hv]),
    if_neg (by omega), hput]
  rfl

/-- One ENC per symbol encodes a text whose symbols have codes, where there is room for all of it (R94, R160). -/
theorem EncodedText.execAll_encs {s : State} (h : Inv s) (hf : s.fault = false) {done rest : List Symbol}
    {path : List Bool} (ht : EncodedText s done rest path) {text : List Symbol} (hcode : ∀ x ∈ text, s.HasCode x)
    (hfits : s.bitlen + (s.encoding text).length ≤ 8 * s.cfg.pcap) :
    ∃ t, execAll (encs text) s = .next t ∧ EncodedText t done (rest ++ text) path ∧
      t = { s with pay := t.pay, bitlen := t.bitlen, pbytes := t.pbytes, pmode := t.pmode, resp := t.resp } := by
  induction text generalizing s rest with
  | nil => exact ⟨s, rfl, by simpa using ht, rfl⟩
  | cons x text ih =>
    obtain ⟨hx, hcode⟩ := List.forall_mem_cons.1 hcode
    have hsplit : (s.encoding (x :: text)).length = (s.codeBits x).length + (s.encoding text).length := by
      simp [State.encoding]
    obtain ⟨t, henc, ht', hframe⟩ := ht.exec_enc h hf hx (by omega)
    have hinv := h.exec _ _ henc
    obtain ⟨pay, pbytes, resp, rfl⟩ : ∃ pay pbytes resp, t = { s with pay, bitlen := s.bitlen + (s.codeBits x).length, pbytes, pmode := .enc, resp } :=
      ⟨_, _, _, hframe⟩
    obtain ⟨u, hencs, hu, hframe⟩ := ih hinv hf ht' hcode (by
      change s.bitlen + _ + (s.encoding text).length ≤ 8 * s.cfg.pcap
      omega)
    exact ⟨u, (execAll_cons henc _).trans hencs, by simpa using hu, by rw [hframe]⟩

/-! ### Loading a payload -/

/-- One PPUT per byte appends the bytes to the payload, where there is room for them (R94, R181). -/
theorem execAll_pload {bytes : List Byte} {s : State} (hf : s.fault = false) (hm : s.pmode ≠ .enc)
    (hroom : s.pbytes + bytes.length ≤ s.cfg.pcap) : ∃ t, execAll (pload bytes) s = .next t ∧
      t = { s with pay := t.pay, pbytes := s.pbytes + bytes.length, pmode := t.pmode, resp := t.resp } ∧
      t.pmode ≠ .enc ∧ (∀ q, q < s.pbytes → t.byteAt q = s.byteAt q) ∧
      ∀ j, j < bytes.length → t.byteAt (s.pbytes + j) = bytes[j]? := by
  induction bytes generalizing s with
  | nil => exact ⟨s, rfl, rfl, hm, fun _ _ => rfl, fun _ hj => absurd hj (Nat.not_lt_zero _)⟩
  | cons b bytes ih =>
    rw [List.length_cons] at hroom
    obtain ⟨_, _, hput⟩ := pputAppendsOneByte.2 s b hf
    obtain ⟨t, hstep, hframe, hnew, hold⟩ := hput hm (by omega)
    have hbytes : t.pbytes = s.pbytes + 1 := by rw [hframe]
    obtain ⟨u, hrest, hframe', hm', hold', hnew'⟩ := ih (s := t) (by rw [hframe]; exact hf)
      (by rw [hframe]; nofun) (by rw [hframe]; simp only; omega)
    refine ⟨u, (execAll_cons hstep _).trans hrest, ?_, hm', fun q hq => ?_, fun j hj => ?_⟩
    · rw [hframe', hbytes, hframe, List.length_cons, Nat.add_right_comm, Nat.add_assoc]
    · exact (hold' q (by omega)).trans (hold q hq.ne)
    · cases j with
      | zero => exact (hold' _ (by omega)).trans hnew
      | succ j =>
        have hj := hnew' j (Nat.lt_of_succ_lt_succ hj)
        rwa [hbytes, Nat.add_assoc, Nat.add_comm 1 j] at hj

/-- The payload's bytes as the host reads them out (R164). -/
theorem Inv.getElem?_payloadBytes {s : State} (h : Inv s) :
    s.payloadBytes.length = s.pbytes ∧ ∀ q, q < s.pbytes → s.payloadBytes[q]? = s.byteAt q := by
  have hread : ∀ q, q < s.pbytes → Memory.read s.pay q = some ((s.byteAt q).getD 0) := fun q hq => by
    obtain ⟨b, hb⟩ := Option.isSome_iff_exists.1 ((h.tables.payWritten q).2 hq)
    rw [hb]
    exact hb
  have hmap : s.payloadBytes = (List.range s.pbytes).map fun q => (s.byteAt q).getD 0 :=
    (List.filterMap_congr fun q hq => hread q (List.mem_range.1 hq)).trans
      (congrFun List.filterMap_eq_map _)
  refine ⟨by simp [hmap], fun q hq => ?_⟩
  rw [hmap, List.getElem?_map, List.getElem?_range hq]
  exact (hread q hq).symm

end Sys2Proof.Machine
end

section
/-! The round trip (45_properties.md R200): the encoder's own payload decodes, and DRUN does the same on every
machine with the same tree and the same payload. -/

namespace Sys2Proof.Machine

/-! ### DRUN on the encoder's machine -/

/-- DRUN ends without a fault at the end of the stream, with this in `OUT` (R200). -/
def DrunEmits (s : State) (out : List Symbol) : Prop :=
  ∃ v, exec .drun s = .next v ∧ v.out = out ∧ v.fault = false ∧ v.status.getLsbD 6 = true

theorem EncodedText.drunEmits {s : State} (h : Inv s) (hf : s.fault = false) (hp : s.phase ≠ .load)
    {done rest : List Symbol} {path : List Bool} (ht : EncodedText s done rest path) :
    DrunEmits s (done ++ rest) := by
  obtain ⟨u, hrun, hu, hframe⟩ := ht.runSteps h (Nat.lt_succ_self _) 0
  obtain ⟨hout, hrpos, hcur⟩ := hu.at_end
  refine ⟨_, (exec_drun hf hp).trans hrun, hout, by rw [hframe]; exact hf, (State.status_dend_iff _).2 ?_⟩
  exact (State.dend_iff _).2 ⟨hrpos.ge, .inr hcur⟩

/-! ### DRUN on another machine -/

/-- The machine `o` with the registers that a Step reads as they are in `s`. -/
def State.reading (s o : State) : State :=
  { o with rootv := s.rootv, root := s.root, bitlen := s.bitlen, pbytes := s.pbytes, rpos := s.rpos, cur := s.cur, out := s.out }

/-- Nodes and payload bits read the same in both machines. -/
structure SameReads (s o : State) : Prop where
  node : ∀ i, o.readNode i = s.readNode i
  bit : ∀ p, o.getBit p = s.getBit p

/-- A Step's result with the rest of the state as in `o`. -/
def readingResult (o : State) (x : StepResult × State) : StepResult × State := (x.1, x.2.reading o)

section Reading

variable {s o : State} (h : SameReads s o)
include h

theorem descend_reading (c : Nat) : descend (s.reading o) c = (descend s c).map (readingResult o) := by
  have hread : (s.reading o).readNode c = s.readNode c := h.node c
  unfold descend
  rw [hread]
  cases s.readNode c with
  | error f => rfl
  | ok n => cases hk : n.kind <;> simp only [hk] <;> rfl

theorem stepFromCursor_reading (b : Bool) :
    stepFromCursor (s.reading o) b = (stepFromCursor s b).map (readingResult o) := by
  have hread : (s.reading o).readNode (s.reading o).cur = s.readNode s.cur := h.node _
  unfold stepFromCursor
  rw [hread]
  cases s.readNode s.cur with
  | error f => rfl
  | ok n =>
    simp only
    split_ifs
    · exact descend_reading h _
    · exact descend_reading h _
    · rfl

theorem stepWithBit_reading (b : Bool) : stepWithBit (s.reading o) b = (stepWithBit s b).map (readingResult o) := by
  have hread : (s.reading o).readNode (s.reading o).root = s.readNode s.root := h.node _
  unfold stepWithBit
  rw [hread]
  cases s.readNode s.root with
  | error f => rfl
  | ok n =>
    simp only
    split_ifs
    · rfl
    · exact stepFromCursor_reading h b

/-- A Step looks at nothing else: in the other machine it gives the same (R184, R208). -/
theorem decodeStep_reading : decodeStep (s.reading o) = (decodeStep s).map (readingResult o) := by
  have hbit : (s.reading o).getBit (s.reading o).rpos = s.getBit s.rpos := h.bit _
  unfold decodeStep
  rw [hbit]
  change (if s.bitlen ≤ s.rpos then if s.rootv && decide (s.cur ≠ s.root) then _ else _
    else if !s.rootv then _ else if s.pbytes ≤ s.rpos / 8 then _ else _) = _
  split_ifs
  · rfl
  · rfl
  · rfl
  · rfl
  · cases s.getBit s.rpos with
    | error f => rfl
    | ok b => exact stepWithBit_reading h b

/-- So does DRUN's loop, where it ends without a fault (R185). -/
theorem runSteps_reading {k n : Nat} {v : State} (hv : runSteps k n s = .next v)
    (hclear : v.fault = false) : ∃ r, runSteps k n (s.reading o) = .next { v.reading o with resp := r } := by
  induction k generalizing n s with
  | zero => cases hv
  | succ k ih =>
    have hstep := decodeStep_reading h
    cases hs : decodeStep s with
    | error f =>
      simp only [runSteps, hs] at hv
      cases hv
    | ok x =>
      obtain ⟨r, t⟩ := x
      rw [hs] at hstep
      have ht : SameReads t o := by
        rw [decodeStep_frame hs]
        exact ⟨h.node, h.bit⟩
      cases r with
      | finished =>
        rw [runSteps_of_finished hs] at hv
        cases hv
        exact ⟨_, runSteps_of_finished hstep k n⟩
      | quiet =>
        rw [runSteps_of_quiet hs] at hv
        rw [runSteps_of_quiet hstep]
        exact ih ht hv
      | emitted x =>
        rw [runSteps_of_emitted hs] at hv
        rw [runSteps_of_emitted hstep]
        exact ih ht hv
      | malformed =>
        rw [runSteps_of_malformed hs] at hv
        cases hv
        exact absurd ((t.raise_fault _ _).symm.trans hclear) (by decide)

/-- Two machines with the same tree and payload emit the same (R200, R208). -/
theorem DrunEmits.reading {out : List Symbol} (hs : DrunEmits s out) (hsf : s.fault = false) (hsp : s.phase ≠ .load)
    (hf : o.fault = false) (hp : o.phase ≠ .load) : DrunEmits (s.reading o) out := by
  obtain ⟨v, hv, hout, hclear, hend⟩ := hs
  obtain ⟨r, hrun⟩ := runSteps_reading h ((exec_drun hsf hsp).symm.trans hv) hclear
  have hdend := (State.status_dend_iff _).1 hend
  exact ⟨_, (exec_drun (s := s.reading o) hf hp).trans hrun, hout, hf, (State.status_dend_iff _).2 hdend⟩

end Reading

/-! ### The compress sequence -/

/-- From reset the table of a text loads and BUILD makes its tree (R200, R252, R253). -/
theorem built_from_reset {c : Config} {text : List Symbol} {table : List (Symbol × Count)} (hc : c.Legal)
    (htable : table.Perm (tableOf c text)) (hfit : ∀ x ∈ text, occurrences text x < 2 ^ c.cw) :
    ∃ s t, execAll (ftab table ++ [.build]) (State.fresh c) = .next t ∧ Loaded c text s ∧ Built s t := by
  obtain ⟨s, hload, hs⟩ := loaded_exists hc htable hfit
  obtain ⟨t, hb⟩ := built_exists (s := s) (by rw [hs.frame]; rfl) (by rw [hs.frame]; rfl)
  exact ⟨s, t, (execAll_append hload _).trans (execAll_cons hb.step _), hs, hb⟩

/-- The machine `w` is `t` with codes and a payload that encodes the text (R160, R252). -/
structure Encoded (text : List Symbol) (t w : State) : Prop where
  inv : Inv w
  text : EncodedText w [] text []
  frame : w = { t with code := w.code, phase := .coded, pay := w.pay, bitlen := w.bitlen, pbytes := w.pbytes, pmode := w.pmode, resp := w.resp }

section Compress

variable {c : Config} {text : List Symbol} {s t u : State} (hs : Loaded c text s) (hb : Built s t)
include hs hb

/-- BUILD leaves the tree and nothing in the payload or in `OUT` (R42, R125). -/
theorem Loaded.built_frame : t = { State.fresh c with freq := s.freq, node := t.node, nleaf := t.nleaf, nnodes := t.nnodes, rootv := t.rootv, root := t.root, cur := t.root, phase := .built, resp := t.resp } := by
  have hframe := hb.frame
  rw [hs.frame, hb.cur] at hframe
  exact hframe

theorem Loaded.inv_built : Inv t := hs.inv.exec _ _ hb.step

/-- With the text's table and enough room, one ENC per symbol encodes the text (R160, R200). -/
theorem Loaded.encs_exists (hd : Derived t u) (hrange : ∀ x ∈ text, x.toNat < c.nsym)
    (hfit : ∀ x ∈ text, occurrences text x < 2 ^ c.cw) (hroom : (u.encoding text).length ≤ 8 * c.pcap) :
    ∃ w, execAll (encs text) u = .next w ∧ Encoded text t w := by
  have hinv : Inv u := (hs.inv_built hb).exec _ _ hd.step
  have hframe := hd.frame
  rw [hs.built_frame hb] at hframe
  have hcount : ∀ x, u.count x = s.count x := fun x => by rw [hframe]; rfl
  have hcfg : u.cfg = c := by rw [hframe]; rfl
  have hcoded : u.phase = .coded := by rw [hframe]
  have hcode : ∀ x ∈ text, u.HasCode x := fun x hx =>
    ((hinv.codes hcoded).hasCode_iff (hinv.tree (by simp [hcoded])) (hcfg.symm ▸ hrange x hx)).2
      (hcount _ ▸ hs.count_ne_zero hfit hx (hrange x hx))
  have hempty : EncodedText u [] [] [] := by
    rw [hframe]
    exact encodedText_nil_iff.2 ⟨nofun, rfl, rfl, rfl, rfl⟩
  have hlen : u.bitlen = 0 := by rw [hframe]; rfl
  obtain ⟨w, hencs, htext, hw⟩ := hempty.execAll_encs hinv (by rw [hframe]; rfl) hcode
    (by rwa [hlen, Nat.zero_add, hcfg])
  have hsame : w.code = u.code := by rw [hw]
  exact ⟨w, hencs, hinv.execAll _ _ hencs, htext, hw.trans (by rw [hsame, hd.frame])⟩

end Compress

/-! ### The decompress sequence -/

/-- Where nothing has been written, the bytes and the bit length of another machine's payload load (R253). -/
theorem payload_loads {t w : State} (ht : Inv t) (hf : t.fault = false) (hm : t.pmode = .none) (hw : Inv w)
    (hroom : w.pbytes ≤ t.cfg.pcap) : ∃ p o, execAll (pload w.payloadBytes) t = .next p ∧
      exec (.plen (BitVec.ofNat 32 w.bitlen)) p = .next o ∧ (∀ q, o.byteAt q = w.byteAt q) ∧
      o = { t with pay := o.pay, pbytes := w.pbytes, bitlen := w.bitlen, pmode := .host, resp := o.resp } := by
  obtain ⟨_, hzero⟩ := ht.payload.unowned hm
  obtain ⟨hlen, hget⟩ := hw.getElem?_payloadBytes
  obtain ⟨p, hload, hframe, hmp, _, hbyte⟩ := execAll_pload (bytes := w.payloadBytes) hf (by simp [hm])
    (by rwa [hzero, hlen, Nat.zero_add])
  rw [hzero, Nat.zero_add, hlen] at hframe
  have hbits : (BitVec.ofNat 32 w.bitlen).toNat = w.bitlen := Nat.mod_eq_of_lt hw.bitlenWidth
  refine ⟨p, _, hload, exec_plen (by rw [hframe]; exact hf) hmp, fun q => ?_, by rw [hbits, hframe]; rfl⟩
  by_cases hq : q < w.pbytes
  · have hbyte := hbyte q (hlen.symm ▸ hq)
    rw [hzero, Nat.zero_add, hget q hq] at hbyte
    exact hbyte
  · have hbytes : p.pbytes = w.pbytes := by rw [hframe]
    have hp := ((ht.execAll _ p hload).tables.payWritten q).not.2 (hbytes ▸ hq)
    have hwq := (hw.tables.payWritten q).not.2 hq
    rw [Option.not_isSome_iff_eq_none] at hp hwq
    exact hp.trans hwq.symm

/-- Equal trees of two machines that meet the invariant are equal everywhere: no other node holds a value (R66). -/
theorem SameTree.nodeAt_eq {s t : State} (h : SameTree s t) (hs : Inv s) (ht : Inv t) (i : Nat) :
    t.nodeAt i = s.nodeAt i := by
  by_cases hi : i < s.nnodes
  · exact h.node i hi
  · have hsi := (hs.tables.nodeWritten i).not.2 hi
    have hti := (ht.tables.nodeWritten i).not.2 (h.nnodes ▸ hi)
    rw [Option.not_isSome_iff_eq_none] at hsi hti
    exact hti.trans hsi.symm

theorem sameReads_of {s o : State} (hnode : ∀ i, o.nodeAt i = s.nodeAt i) (hbyte : ∀ q, o.byteAt q = s.byteAt q) :
    SameReads s o := by
  refine ⟨fun i => by rw [State.readNode_eq, State.readNode_eq, hnode], fun p => ?_⟩
  have hread : Memory.read o.pay (p / 8) = Memory.read s.pay (p / 8) := hbyte _
  simp only [State.getBit, State.readByte, hread]

/-- The tables of one text on two machines are the same. -/
theorem Loaded.sameTable {c c' : Config} {text : List Symbol} {s s' t t' : State} (hs : Loaded c text s)
    (hs' : Loaded c' text s') (hb : Built s t) (hb' : Built s' t') (hsymw : c'.symw = c.symw) : SameTable t t' := by
  have hcfg : t.cfg = c := by rw [hs.built_frame hb]; rfl
  have hcfg' : t'.cfg = c' := by rw [hs'.built_frame hb']; rfl
  have hcount : ∀ x, t.count x = s.count x := fun x => by rw [hb.frame]; rfl
  have hcount' : ∀ x, t'.count x = s'.count x := fun x => by rw [hb'.frame]; rfl
  have hnsym := Config.nsym_eq_of_symw_eq hsymw
  refine ⟨by rw [hcfg, hcfg', hsymw], fun x hx => ?_⟩
  rw [hcfg] at hx
  rw [hcount, hcount', hs.count x hx, hs'.count x (hnsym ▸ hx)]

/-- The decompress sequence on a machine that can hold the counts and the bytes of an encoded text emits what
DRUN emits on the encoder's (R200, R253). -/
theorem Encoded.decompressSeq_emits {c c' : Config} {text out : List Symbol} {table : List (Symbol × Count)}
    {s t w : State} (h : Encoded text t w) (hs : Loaded c text s) (hb : Built s t) (hemits : DrunEmits w out)
    (hc : c'.Legal) (hsymw : c'.symw = c.symw) (htable : table.Perm (tableOf c' text))
    (hfit : ∀ x ∈ text, occurrences text x < 2 ^ c'.cw) (hroom : w.pbytes ≤ c'.pcap) :
    ∃ v, execAll (decompressSeq table w.payloadBytes (BitVec.ofNat 32 w.bitlen)) (State.fresh c') = .next v ∧
      v.out = out ∧ v.fault = false ∧ v.status.getLsbD 6 = true := by
  obtain ⟨s', t', hbuild, hs', hb'⟩ := built_from_reset hc htable hfit
  have hsame := (hs.sameTable hs' hb hb' hsymw).tree hb.tree hb'.tree hb.greedy hb'.greedy
  have hframe := h.frame
  rw [hs.built_frame hb] at hframe
  have hframe' := hs'.built_frame hb'
  obtain ⟨p, o, hload, hplen, hbyte, ho⟩ := payload_loads (hs'.inv_built hb') (by rw [hframe']; rfl)
    (by rw [hframe']; rfl) h.inv (by rw [hframe']; exact hroom)
  rw [hframe'] at ho
  have hnode : ∀ i, o.nodeAt i = w.nodeAt i := fun i => by
    rw [ho, hframe]
    exact hsame.nodeAt_eq (hs.inv_built hb) (hs'.inv_built hb') i
  have hreading : w.reading o = o := by
    rw [State.reading, ho, hframe, ← hsame.rootv, ← hsame.root]
    rfl
  obtain ⟨v, hdrun, hv⟩ := hemits.reading (sameReads_of hnode hbyte) (by rw [hframe]; rfl) (by rw [hframe]; nofun)
    (by rw [ho]; rfl) (by rw [ho]; nofun)
  rw [hreading] at hdrun
  have hpay := (execAll_append hbuild _).trans hload
  exact ⟨v, (execAll_append hpay _).trans ((execAll_cons hplen _).trans (execAll_cons hdrun _)), hv⟩

/-- Settles O57: ENC leaves the encoding of the text, DRUN decodes it, and a machine with the same table has the same
tree, so it decodes the same payload to the same text. -/
theorem roundTrip : Obligations.RoundTrip := by
  intro c text table hc hrange hfit htable
  obtain ⟨s, t, hbuild, hs, hb⟩ := built_from_reset hc htable hfit
  obtain ⟨u, hd⟩ := hb.derived_exists (by rw [hs.frame]; rfl)
  have hcoded : execAll (ftab table ++ [.build, .derive]) (State.fresh c) = .next u := by
    rw [List.append_cons]
    exact (execAll_append hbuild _).trans (execAll_cons hd.step _)
  refine ⟨u, hcoded, fun hroom => ?_⟩
  obtain ⟨w, hencs, hw⟩ := hs.encs_exists hb hd hrange hfit hroom
  have hframe := hw.frame
  rw [hs.built_frame hb] at hframe
  have hf : w.fault = false := by rw [hframe]; rfl
  have hemits := hw.text.drunEmits hw.inv hf (by rw [hframe]; nofun)
  refine ⟨w, (execAll_append hcoded _).trans hencs, hf, hemits, fun c' table' hc' hsymw hfit' hbytes htable' => ?_⟩
  have hnsym := Config.nsym_eq_of_symw_eq hsymw
  have htable' : table'.Perm (tableOf c' text) := by
    rw [tableOf, hnsym]
    exact htable'.trans htable
  exact hw.decompressSeq_emits hs hb hemits hc' hsymw htable' hfit' hbytes

end Sys2Proof.Machine
end

section
/-! Faults (60_exceptions.md R221 to R226): the first one is recorded and freezes the state until a reset, and a
command that faults has done nothing else; DRUN is precise at one payload bit. -/

namespace Sys2Proof.Machine

/-! ### Taking a fault -/

/-- Settles O11: a clear fault register takes the fault, a latched one keeps its own. -/
theorem raiseLatchesTheFirstFault : Obligations.RaiseLatchesTheFirstFault := fun _ c info =>
  ⟨fun hf => State.raise_of_clear hf c info, fun hf => State.raise_of_fault hf c info⟩

/-! ### While a fault is latched -/

/-- The commands that change state are refused (R224). -/
theorem exec_of_refused {i : Instr} {s : State} (hf : s.fault = true) (hi : changesState i = true) :
    exec i s = .next s.respondLatched := by
  cases i with
  | nop | rst | rdcsr | fget | nget | clen | cbits | pget => cases hi
  | fset | build | derive | enc | pput | plen | dstep | drun => exact unlessFaulted_of_fault hf _

/-- A reading command in a phase that forbids it raises `E_SEQUENCE`, whether or not a fault is latched (R23). -/
theorem exec_read_of_wrongPhase {i : Instr} {s : State} (hread : changesState i = false)
    (hr : operandsInRange i s = true) (hp : phaseLegal i s.phase = false) : exec i s = raiseSequence s i := by
  cases i with
  | nop | rst | rdcsr | fget | nget | pget => cases hp
  | fset | build | derive | enc | pput | plen | dstep | drun => cases hread
  | clen x =>
    have hx := operandsInRange_clen.1 hr
    have hphase : s.phase ≠ .coded := by simpa [phaseLegal] using hp
    rw [exec, execClen, if_neg (by simp [Config.symOk, hx]), if_pos hphase]
  | cbits x word =>
    obtain ⟨hx, hword⟩ := operandsInRange_cbits.1 hr
    have hphase : s.phase ≠ .coded := by simpa [phaseLegal] using hp
    rw [exec, execCbits, if_neg (by simp [Config.symOk, Config.wordOk, hx, hword]), if_pos hphase]

/-- A command that would fault answers the latched fault (R223, R225). -/
theorem exec_of_wouldFault {i : Instr} {s : State} (hf : s.fault = true)
    (h : operandsInRange i s = false ∨ phaseLegal i s.phase = false) : exec i s = .next s.respondLatched := by
  cases hi : changesState i with
  | true => exact exec_of_refused hf hi
  | false =>
    cases hr : operandsInRange i s with
    | false =>
      rw [exec_of_outOfRange hr]
      exact raised_of_fault hf _ _
    | true =>
      rw [exec_read_of_wrongPhase hi hr (h.resolve_left (by simp [hr]))]
      exact raised_of_fault hf _ _

/-- A command other than RST changes nothing but the response (R224). -/
theorem frozen_of_effect {i : Instr} {s t : State} (h : Effect i s t) (hf : s.fault = true) (hrst : i ≠ .rst) :
    t = { s with resp := t.resp } := by
  cases h with
  | latched _ _ ht => rw [ht]; rfl
  | faulted _ _ hclear | drunIllegal hclear | drunEnded _ hclear => exact absurd (hf.symm.trans hclear) (by decide)
  | answered v u hclear ht _ _ _ hu =>
    have hread : changesState i ≠ true := fun hi => absurd (hf.symm.trans (hclear hi)) (by decide)
    rcases hu with ⟨_, _, rfl⟩ | ⟨hi, _⟩ | ⟨_, _, rfl, _⟩ | ⟨rfl, _⟩ | ⟨rfl, _⟩ | ⟨_, rfl, _⟩ | ⟨_, rfl, _⟩ |
      ⟨_, rfl, _⟩ | ⟨rfl, _⟩
    · rw [ht]; rfl
    · exact absurd hi hrst
    all_goals exact absurd rfl hread

/-- Settles O12: the refusal, the raise that finds a fault latched, and the effects that are left. -/
theorem latchedFaultFreezesTheState : Obligations.LatchedFaultFreezesTheState := fun _ _ hf =>
  ⟨exec_of_refused hf, exec_of_wouldFault hf, fun hrst _ h => frozen_of_effect (exec_effect h) hf hrst⟩

/-- A word that is not that of RST, a command or not, changes nothing but the response (R223, R224). -/
theorem frozen_of_runWord {w : CmdWord} {s t : State} (hf : s.fault = true) (hrst : decode w ≠ .ok .rst)
    (h : runWord w s = .next t) : t = { s with resp := t.resp } := by
  unfold runWord at h
  split at h
  next i hi => exact frozen_of_effect (exec_effect h) hf fun he => hrst (he ▸ hi)
  next =>
    rw [illegalWord, raised_of_fault hf] at h
    cases h
    rfl

/-- Settles O13: of the host's inputs the resets and the word of RST alone clear a fault. -/
theorem latchedFaultStaysUntilReset : Obligations.LatchedFaultStaysUntilReset := by
  intro s t hf h
  refine ⟨fun c info => State.raise_of_fault hf c info, ?_⟩
  unfold step at h
  split at h
  next =>
    cases h
    exact .inl ⟨hf, rfl, rfl⟩
  next w rest hin =>
    by_cases hrst : decode w = .ok .rst
    · exact .inr ⟨rest, .inr (.inr ⟨w, hin, hrst⟩)⟩
    · rw [frozen_of_runWord (s := s.dropInput) hf hrst h]
      exact .inl ⟨hf, rfl, rfl⟩
  next rest hin => exact .inr ⟨rest, .inl hin⟩
  next w rest hin => exact .inr ⟨rest, .inr (.inl ⟨w, hin⟩)⟩

/-! ### A command that faults -/

/-- `ok` takes no fault (R83). -/
theorem fault_ne_true_of_ok {u t : State} {v : Word} (hf : u.fault = false) (ht : t = u.ok v) : t.fault ≠ true := by
  subst ht
  simp [State.ok, hf]

/-- A command that faults has raised one of its causes, and unless it is a DRUN that has taken Steps it raised it in
the state it began in (R222, R226). -/
theorem raised_of_effect {i : Instr} {s t : State} (h : Effect i s t) (hf : s.fault = false) (ht : t.fault = true) :
    t.cause ∈ mayRaise i ∧ (i ≠ .drun ∨ s.phase = .load → RaisedFrom s t t.cause t.finfo) := by
  cases h with
  | latched hl => exact absurd (hf.symm.trans hl) (by decide)
  | faulted c info _ _ hr hmay =>
    have hraised : RaisedFrom s t c info := hr ▸ State.raise_of_clear hf c info
    have hcause : t.cause = c := by rw [hraised]
    exact ⟨hcause ▸ hmay, fun _ => hraised.recorded⟩
  | drunIllegal _ hi _ hr =>
    have hraised : RaisedFrom s t .sequence (s.seqInfo i) := hr ▸ State.raise_of_clear hf _ _
    have hcause : t.cause = .sequence := by rw [hraised]
    exact ⟨by rw [hcause, hi]; decide, fun _ => hraised.recorded⟩
  | answered v u _ hu _ _ _ hcases =>
    have hclear : u.fault = false := by
      rcases hcases with ⟨_, _, rfl⟩ | ⟨_, rfl⟩ | ⟨_, _, _, _, hu⟩ | ⟨_, _, hu⟩ | ⟨_, _, hu⟩ | ⟨_, _, hu⟩ |
        ⟨_, _, hu⟩ | ⟨_, _, hu⟩ | ⟨_, hu, _⟩
      · exact hf
      · exact s.toReset_fault
      all_goals rw [hu]; exact hf
    exact absurd ht (fault_ne_true_of_ok hclear hu)
  | drunEnded u _ hi hp hu _ _ hend =>
    obtain ⟨c, hu⟩ := hu
    have hclear : u.fault = false := by rw [hu]; exact hf
    rcases hend with ⟨_, hr⟩ | ⟨m, _, hr⟩
    · have hraised : RaisedFrom u t .malformed (BitVec.ofNat 32 u.rpos) := hr ▸ State.raise_of_clear hclear _ _
      have hcause : t.cause = .malformed := by rw [hraised]
      exact ⟨by rw [hcause, hi]; decide, fun hbegan => absurd hbegan (by simp [hi, hp])⟩
    · exact absurd ht (fault_ne_true_of_ok hclear hr)

/-- Settles O15: the causes of the effects that fault. -/
theorem commandsRaiseOnlyTheirFaults : Obligations.CommandsRaiseOnlyTheirFaults := by
  intro i s t hf h ht
  obtain ⟨hmay, _⟩ := raised_of_effect (exec_effect h) hf ht
  exact hmay

/-- DRUN's loop that faults has done what some DSTEPs that go on and one that faults do (R185, R226). -/
theorem dsteps_of_runSteps_fault {k n : Nat} {s t : State} (hf : s.fault = false) (hp : s.phase ≠ .load)
    (h : runSteps k n s = .next t) (ht : t.fault = true) : ∃ j u, DstepsTo j s u ∧ exec .dstep u = .next t := by
  induction k generalizing n s with
  | zero => cases h
  | succ k ih =>
    cases hs : decodeStep s with
    | error f =>
      simp only [runSteps, hs] at h
      cases h
    | ok x =>
      obtain ⟨r, v⟩ := x
      have hstep := exec_dstep hf hp hs
      rcases decodeStep_cases hs with ⟨rfl, rfl⟩ | ⟨rfl, rfl, _⟩ | ⟨_, ⟨rfl, c, rfl⟩ | ⟨x, c, rfl, rfl⟩⟩
      · exact ⟨0, v, .none v, hstep.trans ((runSteps_of_malformed hs k n).symm.trans h)⟩
      · rw [runSteps_of_finished hs] at h
        cases h
        exact absurd ht (fault_ne_true_of_ok hf rfl)
      · rw [runSteps_of_quiet hs, ← runSteps_ok k n _ 0] at h
        obtain ⟨j, u, hsteps, hu⟩ := ih (by exact hf) (by exact hp) h
        exact ⟨j + 1, u, hsteps.prepend hstep (wentOn_ok hf rfl), hu⟩
      · rw [runSteps_of_emitted hs, ← runSteps_ok k (n + 1) _ (0x00010000 ||| x.setWidth 32)] at h
        obtain ⟨j, u, hsteps, hu⟩ := ih (by exact hf) (by exact hp) h
        exact ⟨j + 1, u, hsteps.prepend hstep (wentOn_ok hf (by simp)), hu⟩

/-- Settles O14: a fault is raised in the state the command began in, or in the one its last Step began in. -/
theorem faultsArePrecise : Obligations.FaultsArePrecise := by
  intro i s t hf h ht
  obtain ⟨_, hprecise⟩ := raised_of_effect (exec_effect h) hf ht
  refine ⟨fun hi => hprecise (.inl hi), fun _ hload => hprecise (.inr hload), fun hi hp => ?_⟩
  subst hi
  rw [exec_drun hf hp] at h
  exact dsteps_of_runSteps_fault hf hp h ht

end Sys2Proof.Machine
end

section
/-! Every step ends (70_reset_and_hazards.md R271): with nothing issued nothing happens, and in a state of the
invariant no command stops on a read of an entry that holds no value or on a bound of the model's. -/

namespace Sys2Proof.Machine

/-! ### Nothing issued -/

/-- Settles O7: `step` looks at the host's inputs first. -/
theorem stepWaitsForTheHost : Obligations.StepWaitsForTheHost := fun s h => by rw [step, h]

/-! ### How a command ends in a next state

The rules follow the combinators that the meanings are written with. -/

/-- The outcome is a next state. -/
def Ends (o : Outcome) : Prop := ∃ t, o = .next t

theorem ends_next (s : State) : Ends (.next s) := ⟨s, rfl⟩

theorem ends_done (s : State) (v : Word) : Ends (done s v) := ends_next _

theorem ends_raised (s : State) (c : Cause) (info : Word) : Ends (raised s c info) := ends_next _

theorem ends_ite {p : Prop} [Decidable p] {a b : Outcome} (ha : Ends a) (hb : ¬ p → Ends b) :
    Ends (if p then a else b) := by
  split
  · exact ha
  · exact hb ‹_›

/-- A check that raises where it fails leaves the rest of the command to show. -/
theorem ends_unless_raised {p : Prop} [Decidable p] {s : State} {c : Cause} {info : Word} {k : Outcome}
    (hk : ¬ p → Ends k) : Ends (if p then raised s c info else k) :=
  ends_ite (ends_raised s c info) hk

theorem ends_unlessFaulted {s : State} {k : Outcome} (hk : s.fault = false → Ends k) : Ends (unlessFaulted s k) :=
  ends_ite (ends_next _) fun hf => hk (eq_false_of_ne_true hf)

theorem ends_orStop {α : Type} {x : Except Fault α} {k : α → Outcome} (hx : ∃ a, x = .ok a ∧ Ends (k a)) :
    Ends (orStop x k) := by
  obtain ⟨a, rfl, hk⟩ := hx
  exact hk

/-! ### The reads of a command complete (R66 to R68) -/

section Completes

variable {s : State} (h : Inv s)
include h

theorem Inv.readNode_exists {i : Nat} (hi : i < s.nnodes) : ∃ n, s.readNode i = .ok n :=
  (Option.isSome_iff_exists.1 ((h.tables.nodeWritten i).2 hi)).imp fun _ => State.readNode_of_nodeAt

theorem Inv.codeAt_exists {x : Symbol} (hcoded : s.phase = .coded) (hx : s.cfg.symOk x = true) :
    ∃ e, s.codeAt x.toNat = some e :=
  Option.isSome_iff_exists.1 ((h.tables.codeWritten _).2 ⟨hcoded, of_decide_eq_true hx⟩)

theorem Inv.readByte_exists {q : Nat} (hq : q < s.pbytes) : ∃ b, s.readByte q = .ok b :=
  (Option.isSome_iff_exists.1 ((h.tables.payWritten q).2 hq)).imp fun _ => State.readByte_of_byteAt

/-! ### Every command ends -/

theorem Inv.ends_nget (field : BitVec 16) (id : BitVec 32) : Ends (Machine.execNget field id s) := by
  unfold Machine.execNget
  split
  · exact ends_raised _ _ _
  · refine ends_unless_raised fun hid => ends_orStop ?_
    exact (h.readNode_exists (Nat.lt_of_not_le hid)).imp fun _ hn => ⟨hn, ends_done _ _⟩

theorem Inv.ends_clen (x : Symbol) : Ends (Machine.execClen x s) := by
  refine ends_unless_raised fun hx => ends_unless_raised fun hcoded => ends_orStop ?_
  obtain ⟨e, he⟩ := h.codeAt_exists (not_not.1 hcoded) (by simpa using hx)
  exact ⟨e, State.readCode_of_codeAt he, ends_done _ _⟩

theorem Inv.ends_cbits (x : Symbol) (word : BitVec 32) : Ends (Machine.execCbits x word s) := by
  refine ends_unless_raised fun hx => ends_unless_raised fun hcoded => ends_orStop ?_
  simp only [Bool.or_eq_true, not_or, Bool.not_eq_true, Bool.not_eq_false'] at hx
  obtain ⟨e, he⟩ := h.codeAt_exists (not_not.1 hcoded) hx.1
  exact ⟨e, State.readCode_of_codeAt he, ends_done _ _⟩

theorem Inv.ends_pget (index : BitVec 32) : Ends (Machine.execPget index s) := by
  refine ends_unless_raised fun hindex => ends_orStop ?_
  exact (h.readByte_exists (Nat.lt_of_not_le hindex)).imp fun _ hb => ⟨hb, ends_done _ _⟩

/-- ENC finds the entry of its symbol, and its loop the last byte of the encoder's payload (R161). -/
theorem Inv.ends_enc (x : Symbol) : Ends (Machine.execEnc x s) := by
  refine ends_unlessFaulted fun _ => ends_unless_raised fun hx => ends_unless_raised fun hlegal => ends_orStop ?_
  obtain ⟨hcoded, hm⟩ := not_or.1 hlegal
  obtain ⟨e, he⟩ := h.codeAt_exists (not_not.1 hcoded) (by simpa using hx)
  obtain ⟨t, ht, _⟩ := (h.payTight hm).putCode_appends_code he
  exact ⟨e, State.readCode_of_codeAt he,
    ends_unless_raised fun _ => ends_unless_raised fun _ => ends_orStop ⟨t, ht, ends_done _ _⟩⟩

theorem Inv.ends_derive : Ends (Machine.execDerive s) := by
  refine ends_unlessFaulted fun _ => ends_unless_raised fun hbuilt => ends_orStop ?_
  have htree := h.tree (by rw [not_not.1 hbuilt]; decide)
  exact htree.deriveCodes_exists.imp fun _ ht => ⟨ht, ends_done _ _⟩

theorem Inv.ends_dstep : Ends (Machine.execDstep s) := by
  refine ends_unlessFaulted fun _ => ends_unless_raised fun _ => ends_orStop ?_
  obtain ⟨r, t, hs, _⟩ := h.decodeStep_exists
  exact ⟨(r, t), hs, answerStep_exists r t⟩

/-- DRUN's loop ends within its bound, since each Step that goes on consumes a bit (R185, R271). -/
theorem Inv.ends_drun : Ends (Machine.execDrun s) := by
  refine ends_unlessFaulted fun hf => ends_unless_raised fun hp => ?_
  obtain ⟨_, _, hrun⟩ := h.runSteps_dstepsEnd hf hp (Nat.lt_succ_self _) 0
  exact ⟨_, hrun⟩

end Completes

/-- BUILD completes on every table (R125, R128). -/
theorem ends_build (s : State) : Ends (execBuild s) := by
  refine ends_unlessFaulted fun _ => ends_unless_raised fun _ => ends_orStop ?_
  exact (buildTree_exists s).imp fun _ ht => ⟨ht, ends_done _ _⟩

theorem ends_rdcsr (csr : BitVec 16) (s : State) : Ends (execRdcsr csr s) := by
  unfold execRdcsr
  split
  · exact ends_raised _ _ _
  · exact ends_done _ _

/-- In a state of the invariant every command ends in a next state. -/
theorem Inv.ends_exec {s : State} (h : Inv s) (i : Instr) : Ends (Machine.exec i s) := by
  cases i with
  | nop => exact ends_done _ _
  | rst => exact ends_done _ _
  | rdcsr csr => exact ends_rdcsr csr s
  | fset x c =>
    exact ends_unlessFaulted fun _ => ends_unless_raised fun _ => ends_unless_raised fun _ => ends_done _ _
  | fget x => exact ends_unless_raised fun _ => ends_done _ _
  | build => exact ends_build s
  | nget field id => exact h.ends_nget field id
  | derive => exact h.ends_derive
  | clen x => exact h.ends_clen x
  | cbits x word => exact h.ends_cbits x word
  | enc x => exact h.ends_enc x
  | pget index => exact h.ends_pget index
  | pput b =>
    exact ends_unlessFaulted fun _ => ends_unless_raised fun _ => ends_unless_raised fun _ => ends_done _ _
  | plen n => exact ends_unlessFaulted fun _ => ends_unless_raised fun _ => ends_done _ _
  | dstep => exact h.ends_dstep
  | drun => exact h.ends_drun

theorem Inv.ends_runWord {s : State} (h : Inv s) (w : CmdWord) : Ends (Machine.runWord w s) := by
  unfold Machine.runWord
  split
  · exact h.ends_exec _
  · exact ends_raised _ _ _

/-- Settles O54: a step waits, resets, or runs one word, and no command stops the model. -/
theorem everyStepEnds : Obligations.EveryStepEnds := by
  intro s h
  cases hin : s.inputs with
  | nil => exact ⟨s, stepWaitsForTheHost s hin⟩
  | cons input rest =>
    cases input with
    | command w => rw [step_command hin]; exact (h.withHost rest s.resp).ends_runWord w
    | reset => exact ⟨_, step_reset hin⟩
    | resetDuring w => exact ⟨_, step_resetDuring hin⟩

end Sys2Proof.Machine
end
